-- ==== Sys2Proof/Word.lean ====
section
/-!
DEFINITION. The word types of MaxVec: a byte of a register or of the scratchpad (R21, R50), a 32-bit word of
the host register window (R30) and a 64-bit command word (R70).
-/
namespace Sys2Proof

/-- One byte (bits 7:0), the unit of a vector register (R21) and of the scratchpad (R50). -/
abbrev Byte := BitVec 8

/-- A 32-bit word: a register of the host window (R29, R30) and the IMM field of a command (R71). -/
abbrev Word := BitVec 32

/-- A 64-bit command word, the block's instruction (R70). -/
abbrev CmdWord := BitVec 64

end Sys2Proof
end

