-- ==== Sys2Proof/Config.lean ====
section
/-!
DEFINITION. The implementation parameters of R6 and the free values of the model.
A `Config` is legal by construction: each field holds only the part of a parameter that R6 leaves open, so every
`Config` is a legal set of parameters and every legal set of parameters is a `Config`
(`Sys2Proof/Laws/Config.lean` proves both). The model takes it as an argument, as R6 asks: it is the field `cfg` of
State, and a claim about every state is a claim about every legal configuration (log 1).
-/
namespace Sys2Proof

/-- The parameters of R6, each as the part R6 leaves open. -/
structure Config where
  /-- VLENB is `2 ^ (5 + vlenbExp)`: a power of two, 32 to 32768 (R6). -/
  vlenbExp : Fin 11
  /-- SPM_BYTES is `2 ^ (12 + spmExp)`: a power of two, 4096 to 65536 (R6). -/
  spmExp : Fin 5
  /-- CMDQ_DEPTH is `depthPred + 1`: 1 to 255 (R6). -/
  depthPred : Fin 255
  /-- Bit 31 of NAN_F32; bits 30:22 are ones (R6). -/
  nanF32Sign : Bool
  /-- Bits 21:0 of NAN_F32 (R6). -/
  nanF32Low : BitVec 22
  /-- Bit 63 of NAN_F64; bits 62:51 are ones (R6). -/
  nanF64Sign : Bool
  /-- Bits 50:0 of NAN_F64 (R6). -/
  nanF64Low : BitVec 51
  /-- Bit 15 of NAN_BF16; bits 14:7 are ones (R6). -/
  nanBf16Sign : Bool
  /-- Bits 6:0 of NAN_BF16, less 1: they are not zero (R6). -/
  nanBf16Pred : Fin 127
  /-- Bit 7 of NAN_E5M2; bits 6:2 are ones (R6). -/
  nanE5m2Sign : Bool
  /-- Bits 1:0 of NAN_E5M2, less 1: they are not zero (R6). -/
  nanE5m2Pred : Fin 3
  /-- MMIO_BASE is `2 ^ 17 * mmioPage`: aligned to 2^17 and otherwise OPEN (R6, D49). -/
  mmioPage : Nat
  deriving DecidableEq, Repr

namespace Config

/-- VLENB: bytes in one vector register (R6). -/
def vlenb (c : Config) : Nat := 2 ^ (5 + c.vlenbExp.val)

/-- SPM_BYTES: bytes of scratchpad (R6). -/
def spmBytes (c : Config) : Nat := 2 ^ (12 + c.spmExp.val)

/-- CMDQ_DEPTH: entries of the command queue (R6). -/
def cmdqDepth (c : Config) : Nat := c.depthPred.val + 1

/-- NAN_F32: the canonical f32 NaN (R6, R107). -/
def nanF32 (c : Config) : BitVec 32 := BitVec.ofBool c.nanF32Sign ++ 0xFF#8 ++ 1#1 ++ c.nanF32Low

/-- NAN_F64: the canonical f64 NaN (R6, R107). -/
def nanF64 (c : Config) : BitVec 64 := BitVec.ofBool c.nanF64Sign ++ 0x7FF#11 ++ 1#1 ++ c.nanF64Low

/-- NAN_BF16: the canonical bf16 NaN (R6, R107). -/
def nanBf16 (c : Config) : BitVec 16 :=
  BitVec.ofBool c.nanBf16Sign ++ 0xFF#8 ++ BitVec.ofNat 7 (c.nanBf16Pred.val + 1)

/-- NAN_E5M2: the canonical e5m2 NaN (R6, R107). -/
def nanE5m2 (c : Config) : BitVec 8 :=
  BitVec.ofBool c.nanE5m2Sign ++ 0x1F#5 ++ BitVec.ofNat 2 (c.nanE5m2Pred.val + 1)

/-- MMIO_BASE: the host address of the register window (R6, R29, R57). -/
def mmioBase (c : Config) : Nat := 2 ^ 17 * c.mmioPage

/-- The defaults of R6 (VLENB 64, SPM_BYTES 65536, CMDQ_DEPTH 16, NAN_F32 0x7FC00000, NAN_F64
0x7FF8000000000000, NAN_BF16 0x7FC0, NAN_E5M2 0x7F).
DESIGN CHOICE (log 2): R6 gives MMIO_BASE no default (OPEN); the reference configuration places the window at 0. -/
def reference : Config where
  vlenbExp := 1
  spmExp := 4
  depthPred := 15
  nanF32Sign := false
  nanF32Low := 0
  nanF64Sign := false
  nanF64Low := 0
  nanBf16Sign := false
  nanBf16Pred := 0x3F
  nanE5m2Sign := false
  nanE5m2Pred := 2
  mmioPage := 0

/-- The free value of an unwritten byte (R42, U2: "any value, fresh at each read"): the k-th draw of a run.
It has no body: nothing is known of it, and two draws need not agree (log 3). -/
opaque freeByte : Nat → Byte

end Config

end Sys2Proof
end

