-- ==== Sys2Proof/Syntax.lean ====
section
/-!
DEFINITION. The instruction set of MaxVec as syntax: element types (R5), operand kinds (R71, R74) and the 40
commands of the opcode map (R77), one constructor per row of spec/opcode_table.json.
-/
namespace Sys2Proof

/-- The element types a lane may have (R5). -/
inductive EType where
  | u8 | u16 | u32 | u64 | u128 | u256
  | i8 | i16 | i32 | i64 | i128 | i256
  | bool
  | e4m3 | e5m2 | bf16 | f16 | f32 | f64
  deriving DecidableEq, Repr

/-- A vector register number, V0 to V31 (R20, R75). -/
abbrev VReg := Fin 32

/-- The logarithm of a lane count: a 4-bit field (LOGN of R71; LOGO, LOGW, LOGM of R74). -/
abbrev LogCount := Fin 16

/-- The causes of the fault report, in the order of R210; NONE is CAUSE while ERR = 0. -/
inductive Cause where
  | none
  | illegalOpcode
  | illegalField
  | illegalType
  | width
  | range
  | misalign
  | addr
  | cmdqOverflow
  deriving DecidableEq, Repr

/-- The commands of R77. Operand names are the spec's: `vd`, `vd2` destinations, `vs` the VS1 source, `t` the element
type, `n` LOGN, and the immediate sub-fields of R74. A CVT command has no type operand: its opcode fixes ET (R78). -/
inductive Instr where
  /-- NOP (R141). -/
  | nop
  /-- SIGNAL (R142): `sig` is IMM. -/
  | signal (sig : Word)
  /-- VZERO (R143). -/
  | vzero (vd : VReg)
  /-- VSPLAT (R144): `lane` is the source lane index L. -/
  | vsplat (vd vs : VReg) (t : EType) (n : LogCount) (lane : BitVec 16)
  /-- VLD (R146): `a` is the scratchpad address. -/
  | vld (vd : VReg) (t : EType) (n : LogCount) (a : Word)
  /-- VLD.BE (R147). -/
  | vldBe (vd : VReg) (t : EType) (n : LogCount) (a : Word)
  /-- VST (R148): `vs` is the register stored. -/
  | vst (vs : VReg) (t : EType) (n : LogCount) (a : Word)
  /-- VST.BE (R149). -/
  | vstBe (vs : VReg) (t : EType) (n : LogCount) (a : Word)
  /-- CVT.F32.E4M3 (R126). -/
  | cvtF32E4m3 (vd vs : VReg) (n : LogCount)
  /-- CVT.F32.E5M2 (R127). -/
  | cvtF32E5m2 (vd vs : VReg) (n : LogCount)
  /-- CVT.F32.BF16 (R128). -/
  | cvtF32Bf16 (vd vs : VReg) (n : LogCount)
  /-- CVT.F64.E4M3 (R129). -/
  | cvtF64E4m3 (vd vs : VReg) (n : LogCount)
  /-- CVT.F64.E5M2 (R130). -/
  | cvtF64E5m2 (vd vs : VReg) (n : LogCount)
  /-- CVT.F64.BF16 (R131). -/
  | cvtF64Bf16 (vd vs : VReg) (n : LogCount)
  /-- CVT.E4M3.F32 (R132). -/
  | cvtE4m3F32 (vd vs : VReg) (n : LogCount)
  /-- CVT.E5M2.F32 (R133). -/
  | cvtE5m2F32 (vd vs : VReg) (n : LogCount)
  /-- CVT.BF16.F32 (R134). -/
  | cvtBf16F32 (vd vs : VReg) (n : LogCount)
  /-- CVT.E4M3.F64 (R135). -/
  | cvtE4m3F64 (vd vs : VReg) (n : LogCount)
  /-- CVT.E5M2.F64 (R136). -/
  | cvtE5m2F64 (vd vs : VReg) (n : LogCount)
  /-- CVT.BF16.F64 (R137). -/
  | cvtBf16F64 (vd vs : VReg) (n : LogCount)
  /-- REDADD (R200): `o` is LOGO. -/
  | redadd (vd vs : VReg) (t : EType) (n o : LogCount)
  /-- REDMUL (R201). -/
  | redmul (vd vs : VReg) (t : EType) (n o : LogCount)
  /-- REDMIN (R202). -/
  | redmin (vd vs : VReg) (t : EType) (n o : LogCount)
  /-- REDMAX (R203). -/
  | redmax (vd vs : VReg) (t : EType) (n o : LogCount)
  /-- REDAND (R204). -/
  | redand (vd vs : VReg) (t : EType) (n o : LogCount)
  /-- REDOR (R205). -/
  | redor (vd vs : VReg) (t : EType) (n o : LogCount)
  /-- REDPOPC (R206). -/
  | redpopc (vd vs : VReg) (t : EType) (n o : LogCount)
  /-- SLICE (R160): `off` is K, `w` is LOGW. -/
  | slice (vd vs : VReg) (t : EType) (n : LogCount) (off : BitVec 16) (w : LogCount)
  /-- INSERT (R161): `vv` is VS2, the value inserted. -/
  | insert (vd vs vv : VReg) (t : EType) (n : LogCount) (off : BitVec 16) (w : LogCount)
  /-- JOIN (R162): `va` is VS1, `vb` is VS2. -/
  | join (vd va vb : VReg) (t : EType) (n : LogCount)
  /-- SPLIT (R163): `vd2` is IMM[4:0]. -/
  | split (vd vd2 vs : VReg) (t : EType) (n : LogCount)
  /-- ILV (R164). -/
  | ilv (vd va vb : VReg) (t : EType) (n : LogCount)
  /-- DILV (R165). -/
  | dilv (vd vd2 vs : VReg) (t : EType) (n : LogCount)
  /-- SHUF1 (R166): `vm` is VS2, the mask; `m` is LOGM. -/
  | shuf1 (vd vs vm : VReg) (t : EType) (n m : LogCount)
  /-- SHUF2 (R167): `vo` is VS2, the other vector; `vm` is VS3, the mask. -/
  | shuf2 (vd vs vo vm : VReg) (t : EType) (n m : LogCount)
  /-- ROTL (R168): `sh` is SHAMT, read signed. -/
  | rotl (vd vs : VReg) (t : EType) (n : LogCount) (sh : BitVec 16)
  /-- ROTR (R169): `sh` is SHAMT, read signed. -/
  | rotr (vd vs : VReg) (t : EType) (n : LogCount) (sh : BitVec 16)
  /-- SHLL (R170): `sh` is SHAMT, read unsigned. -/
  | shll (vd vs : VReg) (t : EType) (n : LogCount) (sh : BitVec 16)
  /-- SHRL (R171): `sh` is SHAMT, read unsigned. -/
  | shrl (vd vs : VReg) (t : EType) (n : LogCount) (sh : BitVec 16)
  /-- REV (R173). -/
  | rev (vd vs : VReg) (t : EType) (n : LogCount)
  deriving DecidableEq, Repr

end Sys2Proof
end

