-- ==== Sys2Proof/WellFormed.lean ====
section
/-!
DEFINITION. Which terms of `Instr` are commands the block has: the element types R78 admits for a reduction, and
the two destinations of SPLIT and DILV, which R75 and R76 require to differ. Every other operand is legal by its type.
-/
namespace Sys2Proof

/-- The integer element types, codes 0 to 5 and 8 to 13 (R5). -/
def EType.isInteger : EType → Bool
  | .u8 | .u16 | .u32 | .u64 | .u128 | .u256 => true
  | .i8 | .i16 | .i32 | .i64 | .i128 | .i256 => true
  | .bool | .e4m3 | .e5m2 | .bf16 | .f16 | .f32 | .f64 => false

/-- The element types REDADD, REDMUL, REDMIN and REDMAX admit: the integers, f32 and f64 (R78). -/
def EType.isNumeric (t : EType) : Bool := t.isInteger || t == .f32 || t == .f64

/-- The element types REDAND, REDOR and REDPOPC admit: the integers and bool (R78). -/
def EType.isBitwise (t : EType) : Bool := t.isInteger || t == .bool

/-- A term of `Instr` that is a command of R77 with operands R75, R76 and R78 admit. -/
def Instr.wf : Instr → Bool
  | .redadd _ _ t _ _ | .redmul _ _ t _ _ | .redmin _ _ t _ _ | .redmax _ _ t _ _ => t.isNumeric
  | .redand _ _ t _ _ | .redor _ _ t _ _ | .redpopc _ _ t _ _ => t.isBitwise
  | .split vd vd2 _ _ _ | .dilv vd vd2 _ _ _ => vd != vd2
  | .nop | .signal _ | .vzero _ | .vsplat _ _ _ _ _ | .vld _ _ _ _ | .vldBe _ _ _ _ => true
  | .vst _ _ _ _ | .vstBe _ _ _ _ => true
  | .cvtF32E4m3 _ _ _ | .cvtF32E5m2 _ _ _ | .cvtF32Bf16 _ _ _ => true
  | .cvtF64E4m3 _ _ _ | .cvtF64E5m2 _ _ _ | .cvtF64Bf16 _ _ _ => true
  | .cvtE4m3F32 _ _ _ | .cvtE5m2F32 _ _ _ | .cvtBf16F32 _ _ _ => true
  | .cvtE4m3F64 _ _ _ | .cvtE5m2F64 _ _ _ | .cvtBf16F64 _ _ _ => true
  | .slice _ _ _ _ _ _ | .insert _ _ _ _ _ _ _ | .join _ _ _ _ _ | .ilv _ _ _ _ _ => true
  | .shuf1 _ _ _ _ _ _ | .shuf2 _ _ _ _ _ _ _ => true
  | .rotl _ _ _ _ _ | .rotr _ _ _ _ _ | .shll _ _ _ _ _ | .shrl _ _ _ _ _ | .rev _ _ _ _ => true

end Sys2Proof
end

