-- ==== Sys2Proof/Decode.lean ====
section
/-!
DEFINITION. The encoding of commands: the fields of the 64-bit word (R71), the opcode map (R77), the immediate
sub-fields (R74), the decoder with the checks 1 to 3 of R216 and the encoder (R88). The decoder is total on every
64-bit word: it answers a command, or rejects the word by the cause R216 names.
-/
namespace Sys2Proof

/-! ## Element types (R5, R72) -/

/-- The size of a lane in bytes (R5). -/
def EType.esize : EType → Nat
  | .u8 | .i8 | .bool | .e4m3 | .e5m2 => 1
  | .u16 | .i16 | .bf16 | .f16 => 2
  | .u32 | .i32 | .f32 => 4
  | .u64 | .i64 | .f64 => 8
  | .u128 | .i128 => 16
  | .u256 | .i256 => 32

/-- The ET code of an element type (R5). -/
def EType.code : EType → BitVec 5
  | .u8 => 0 | .u16 => 1 | .u32 => 2 | .u64 => 3 | .u128 => 4 | .u256 => 5
  | .i8 => 8 | .i16 => 9 | .i32 => 10 | .i64 => 11 | .i128 => 12 | .i256 => 13
  | .bool => 16
  | .e4m3 => 20 | .e5m2 => 21 | .bf16 => 22 | .f16 => 23 | .f32 => 24 | .f64 => 25

/-- The element types in the order of R5. -/
def EType.all : List EType :=
  [.u8, .u16, .u32, .u64, .u128, .u256, .i8, .i16, .i32, .i64, .i128, .i256,
   .bool, .e4m3, .e5m2, .bf16, .f16, .f32, .f64]

/-- The element type of an ET code; none for the reserved codes (R72). -/
def EType.ofCode (c : BitVec 5) : Option EType := EType.all.find? fun t => t.code == c

/-! ## The fields of a command word (R71) -/

/-- The seven fields of a command word (R71). -/
structure Fields where
  opc : BitVec 8
  vd : BitVec 5
  vs1 : BitVec 5
  vs2 : BitVec 5
  et : BitVec 5
  logn : BitVec 4
  imm : Word
  deriving DecidableEq, Repr

/-- `w = OPC | VD<<8 | VS1<<13 | VS2<<18 | ET<<23 | LOGN<<28 | IMM<<32` (R88). -/
def Fields.pack (f : Fields) : CmdWord := f.imm ++ f.logn ++ f.et ++ f.vs2 ++ f.vs1 ++ f.vd ++ f.opc

/-- The fields at bits 7:0, 12:8, 17:13, 22:18, 27:23, 31:28 and 63:32 (R71). -/
def Fields.unpack (w : CmdWord) : Fields where
  opc := w.extractLsb' 0 8
  vd := w.extractLsb' 8 5
  vs1 := w.extractLsb' 13 5
  vs2 := w.extractLsb' 18 5
  et := w.extractLsb' 23 5
  logn := w.extractLsb' 28 4
  imm := w.extractLsb' 32 32

/-- The register a 5-bit register field names (R20, R75). -/
def VReg.ofField (b : BitVec 5) : VReg := b.toFin

/-- The 5-bit field of a register number. -/
def VReg.toField (r : VReg) : BitVec 5 := BitVec.ofFin (w := 5) r

/-- The logarithm a 4-bit field holds (R71, R73, R74). -/
def LogCount.ofField (b : BitVec 4) : LogCount := b.toFin

/-- The 4-bit field of a logarithm. -/
def LogCount.toField (n : LogCount) : BitVec 4 := BitVec.ofFin (w := 4) n

/-! ## The opcode map (R77) -/

/-- The assigned opcodes, in the order of R77. -/
inductive Opcode where
  | nop | signal | vzero | vsplat | vld | vldBe | vst | vstBe
  | cvtF32E4m3 | cvtF32E5m2 | cvtF32Bf16 | cvtF64E4m3 | cvtF64E5m2 | cvtF64Bf16
  | cvtE4m3F32 | cvtE5m2F32 | cvtBf16F32 | cvtE4m3F64 | cvtE5m2F64 | cvtBf16F64
  | redadd | redmul | redmin | redmax | redand | redor | redpopc
  | slice | insert | join | split | ilv | dilv | shuf1 | shuf2
  | rotl | rotr | shll | shrl | rev
  deriving DecidableEq, Repr

/-- The OPC value of an opcode (R77). -/
def Opcode.code : Opcode → BitVec 8
  | .nop => 0x00 | .signal => 0x01 | .vzero => 0x02 | .vsplat => 0x03
  | .vld => 0x04 | .vldBe => 0x05 | .vst => 0x06 | .vstBe => 0x07
  | .cvtF32E4m3 => 0x10 | .cvtF32E5m2 => 0x11 | .cvtF32Bf16 => 0x12
  | .cvtF64E4m3 => 0x14 | .cvtF64E5m2 => 0x15 | .cvtF64Bf16 => 0x16
  | .cvtE4m3F32 => 0x18 | .cvtE5m2F32 => 0x19 | .cvtBf16F32 => 0x1A
  | .cvtE4m3F64 => 0x1C | .cvtE5m2F64 => 0x1D | .cvtBf16F64 => 0x1E
  | .redadd => 0x20 | .redmul => 0x21 | .redmin => 0x22 | .redmax => 0x23
  | .redand => 0x24 | .redor => 0x25 | .redpopc => 0x26
  | .slice => 0x30 | .insert => 0x31 | .join => 0x32 | .split => 0x33
  | .ilv => 0x34 | .dilv => 0x35 | .shuf1 => 0x36 | .shuf2 => 0x37
  | .rotl => 0x38 | .rotr => 0x39 | .shll => 0x3A | .shrl => 0x3B | .rev => 0x3C

/-- Every assigned opcode (R77). -/
def Opcode.all : List Opcode :=
  [.nop, .signal, .vzero, .vsplat, .vld, .vldBe, .vst, .vstBe,
   .cvtF32E4m3, .cvtF32E5m2, .cvtF32Bf16, .cvtF64E4m3, .cvtF64E5m2, .cvtF64Bf16,
   .cvtE4m3F32, .cvtE5m2F32, .cvtBf16F32, .cvtE4m3F64, .cvtE5m2F64, .cvtBf16F64] ++
  [.redadd, .redmul, .redmin, .redmax, .redand, .redor, .redpopc,
   .slice, .insert, .join, .split, .ilv, .dilv, .shuf1, .shuf2,
   .rotl, .rotr, .shll, .shrl, .rev]

/-- The opcode of an OPC value; none where R86 leaves it unassigned. -/
def Opcode.ofCode (c : BitVec 8) : Option Opcode := Opcode.all.find? fun op => op.code == c

/-- Which fields an opcode uses: a row of R77, with the IMM bits of R74 as a mask. -/
structure FieldUse where
  vd : Bool
  vs1 : Bool
  vs2 : Bool
  et : Bool
  logn : Bool
  imm : Word
  deriving DecidableEq, Repr

/-- The used fields of an opcode (R77; IMM sub-fields R74). -/
def Opcode.uses : Opcode → FieldUse
  | .nop => ⟨false, false, false, false, false, 0⟩
  | .signal => ⟨false, false, false, false, false, 0xFFFFFFFF⟩
  | .vzero => ⟨true, false, false, false, false, 0⟩
  | .vsplat => ⟨true, true, false, true, true, 0x0000FFFF⟩
  | .vld | .vldBe => ⟨true, false, false, true, true, 0xFFFFFFFF⟩
  | .vst | .vstBe => ⟨false, true, false, true, true, 0xFFFFFFFF⟩
  | .cvtF32E4m3 | .cvtF32E5m2 | .cvtF32Bf16 | .cvtF64E4m3 | .cvtF64E5m2 | .cvtF64Bf16
  | .cvtE4m3F32 | .cvtE5m2F32 | .cvtBf16F32 | .cvtE4m3F64 | .cvtE5m2F64 | .cvtBf16F64 =>
    ⟨true, true, false, true, true, 0⟩
  | .redadd | .redmul | .redmin | .redmax | .redand | .redor | .redpopc =>
    ⟨true, true, false, true, true, 0x0000000F⟩
  | .slice => ⟨true, true, false, true, true, 0x000FFFFF⟩
  | .insert => ⟨true, true, true, true, true, 0x000FFFFF⟩
  | .join | .ilv => ⟨true, true, true, true, true, 0⟩
  | .split | .dilv => ⟨true, true, false, true, true, 0x0000001F⟩
  | .shuf1 => ⟨true, true, true, true, true, 0x0000000F⟩
  | .shuf2 => ⟨true, true, true, true, true, 0x00001F0F⟩
  | .rotl | .rotr | .shll | .shrl => ⟨true, true, false, true, true, 0x0000FFFF⟩
  | .rev => ⟨true, true, false, true, true, 0⟩

/-- Whether some field the opcode does not use is nonzero (R76; check 2 of R216). -/
def Fields.unusedNonzero (f : Fields) (u : FieldUse) : Bool :=
  (!u.vd && f.vd != 0) || (!u.vs1 && f.vs1 != 0) || (!u.vs2 && f.vs2 != 0) ||
  (!u.et && f.et != 0) || (!u.logn && f.logn != 0) || (f.imm &&& ~~~u.imm) != 0

/-- The second destination of SPLIT and DILV: IMM[4:0] (R74). -/
def Fields.vd2 (f : Fields) : BitVec 5 := f.imm.extractLsb' 0 5

/-- SPLIT and DILV with VD = VD2 (R76; check 2 of R216). -/
def Fields.sameDest (f : Fields) : Opcode → Bool
  | .split | .dilv => f.vd == f.vd2
  | _ => false

/-- The element types R78 admits for an opcode. For NOP, SIGNAL and VZERO the ET field is unused. -/
def Opcode.admits : Opcode → EType → Bool
  | .redadd, t | .redmul, t | .redmin, t | .redmax, t => t.isInteger || t == .f32 || t == .f64
  | .redand, t | .redor, t | .redpopc, t => t.isInteger || t == .bool
  | .cvtF32E4m3, t | .cvtF64E4m3, t => t == .e4m3
  | .cvtF32E5m2, t | .cvtF64E5m2, t => t == .e5m2
  | .cvtF32Bf16, t | .cvtF64Bf16, t => t == .bf16
  | .cvtE4m3F32, t | .cvtE5m2F32, t | .cvtBf16F32, t => t == .f32
  | .cvtE4m3F64, t | .cvtE5m2F64, t | .cvtBf16F64, t => t == .f64
  | _, _ => true

/-- The element type of the command, if ET is a code the opcode admits (check 3 of R216). An unused ET field, which
check 2 has found to be 0, reads as code 0. -/
def Fields.admittedType (f : Fields) (op : Opcode) : Option EType :=
  match EType.ofCode f.et with
  | some t => if op.admits t then some t else none
  | none => none

/-- The command of an opcode, with its operands taken from the fields (R71, R74, R77). -/
def Opcode.build (op : Opcode) (f : Fields) (t : EType) : Instr :=
  let vd := VReg.ofField f.vd
  let vs1 := VReg.ofField f.vs1
  let vs2 := VReg.ofField f.vs2
  let n := LogCount.ofField f.logn
  let half := f.imm.extractLsb' 0 16
  let log0 := LogCount.ofField (f.imm.extractLsb' 0 4)
  let log16 := LogCount.ofField (f.imm.extractLsb' 16 4)
  let vd2 := VReg.ofField f.vd2
  let vs3 := VReg.ofField (f.imm.extractLsb' 8 5)
  match op with
  | .nop => .nop
  | .signal => .signal f.imm
  | .vzero => .vzero vd
  | .vsplat => .vsplat vd vs1 t n half
  | .vld => .vld vd t n f.imm
  | .vldBe => .vldBe vd t n f.imm
  | .vst => .vst vs1 t n f.imm
  | .vstBe => .vstBe vs1 t n f.imm
  | .cvtF32E4m3 => .cvtF32E4m3 vd vs1 n
  | .cvtF32E5m2 => .cvtF32E5m2 vd vs1 n
  | .cvtF32Bf16 => .cvtF32Bf16 vd vs1 n
  | .cvtF64E4m3 => .cvtF64E4m3 vd vs1 n
  | .cvtF64E5m2 => .cvtF64E5m2 vd vs1 n
  | .cvtF64Bf16 => .cvtF64Bf16 vd vs1 n
  | .cvtE4m3F32 => .cvtE4m3F32 vd vs1 n
  | .cvtE5m2F32 => .cvtE5m2F32 vd vs1 n
  | .cvtBf16F32 => .cvtBf16F32 vd vs1 n
  | .cvtE4m3F64 => .cvtE4m3F64 vd vs1 n
  | .cvtE5m2F64 => .cvtE5m2F64 vd vs1 n
  | .cvtBf16F64 => .cvtBf16F64 vd vs1 n
  | .redadd => .redadd vd vs1 t n log0
  | .redmul => .redmul vd vs1 t n log0
  | .redmin => .redmin vd vs1 t n log0
  | .redmax => .redmax vd vs1 t n log0
  | .redand => .redand vd vs1 t n log0
  | .redor => .redor vd vs1 t n log0
  | .redpopc => .redpopc vd vs1 t n log0
  | .slice => .slice vd vs1 t n half log16
  | .insert => .insert vd vs1 vs2 t n half log16
  | .join => .join vd vs1 vs2 t n
  | .split => .split vd vd2 vs1 t n
  | .ilv => .ilv vd vs1 vs2 t n
  | .dilv => .dilv vd vd2 vs1 t n
  | .shuf1 => .shuf1 vd vs1 vs2 t n log0
  | .shuf2 => .shuf2 vd vs1 vs2 vs3 t n log0
  | .rotl => .rotl vd vs1 t n half
  | .rotr => .rotr vd vs1 t n half
  | .shll => .shll vd vs1 t n half
  | .shrl => .shrl vd vs1 t n half
  | .rev => .rev vd vs1 t n

/-! ## The decoder: checks 1 to 3 of R216 -/

/-- Decode the fields of a word, or reject them by the first of the checks 1 to 3 of R216 that fails. -/
def decodeFields (f : Fields) : Except Cause Instr :=
  match Opcode.ofCode f.opc with
  | none => .error .illegalOpcode
  | some op =>
    if f.unusedNonzero op.uses || f.sameDest op then .error .illegalField
    else
      match f.admittedType op with
      | none => .error .illegalType
      | some t => .ok (op.build f t)

/-- Decode a command word (R70: every 64-bit word is a command or is rejected; there is no length to decode). -/
def decode (w : CmdWord) : Except Cause Instr := decodeFields (Fields.unpack w)

/-! ## The encoder (R88) -/

/-- The opcode of a command (R77). -/
def Instr.opcode : Instr → Opcode
  | .nop => .nop
  | .signal _ => .signal
  | .vzero _ => .vzero
  | .vsplat _ _ _ _ _ => .vsplat
  | .vld _ _ _ _ => .vld
  | .vldBe _ _ _ _ => .vldBe
  | .vst _ _ _ _ => .vst
  | .vstBe _ _ _ _ => .vstBe
  | .cvtF32E4m3 _ _ _ => .cvtF32E4m3
  | .cvtF32E5m2 _ _ _ => .cvtF32E5m2
  | .cvtF32Bf16 _ _ _ => .cvtF32Bf16
  | .cvtF64E4m3 _ _ _ => .cvtF64E4m3
  | .cvtF64E5m2 _ _ _ => .cvtF64E5m2
  | .cvtF64Bf16 _ _ _ => .cvtF64Bf16
  | .cvtE4m3F32 _ _ _ => .cvtE4m3F32
  | .cvtE5m2F32 _ _ _ => .cvtE5m2F32
  | .cvtBf16F32 _ _ _ => .cvtBf16F32
  | .cvtE4m3F64 _ _ _ => .cvtE4m3F64
  | .cvtE5m2F64 _ _ _ => .cvtE5m2F64
  | .cvtBf16F64 _ _ _ => .cvtBf16F64
  | .redadd _ _ _ _ _ => .redadd
  | .redmul _ _ _ _ _ => .redmul
  | .redmin _ _ _ _ _ => .redmin
  | .redmax _ _ _ _ _ => .redmax
  | .redand _ _ _ _ _ => .redand
  | .redor _ _ _ _ _ => .redor
  | .redpopc _ _ _ _ _ => .redpopc
  | .slice _ _ _ _ _ _ => .slice
  | .insert _ _ _ _ _ _ _ => .insert
  | .join _ _ _ _ _ => .join
  | .split _ _ _ _ _ => .split
  | .ilv _ _ _ _ _ => .ilv
  | .dilv _ _ _ _ _ => .dilv
  | .shuf1 _ _ _ _ _ _ => .shuf1
  | .shuf2 _ _ _ _ _ _ _ => .shuf2
  | .rotl _ _ _ _ _ => .rotl
  | .rotr _ _ _ _ _ => .rotr
  | .shll _ _ _ _ _ => .shll
  | .shrl _ _ _ _ _ => .shrl
  | .rev _ _ _ _ => .rev

/-- The fields of a command with one source register, the shape most rows of R77 have. -/
def Fields.unary (op : Opcode) (vd vs : VReg) (t : EType) (n : LogCount) (imm : Word) : Fields where
  opc := op.code
  vd := vd.toField
  vs1 := vs.toField
  vs2 := 0
  et := t.code
  logn := n.toField
  imm := imm

/-- The fields of a command with two source registers. -/
def Fields.binary (op : Opcode) (vd va vb : VReg) (t : EType) (n : LogCount) (imm : Word) : Fields :=
  { Fields.unary op vd va t n imm with vs2 := vb.toField }

/-- IMM with a 16-bit sub-field in bits 15:0 (LANE, SHAMT of R74). -/
def immHalf (h : BitVec 16) : Word := 0#16 ++ h

/-- IMM with a logarithm in bits 3:0 (LOGO, LOGM of R74). -/
def immLog (n : LogCount) : Word := 0#28 ++ n.toField

/-- IMM with OFF in bits 15:0 and LOGW in bits 19:16 (R74). -/
def immOffLog (off : BitVec 16) (w : LogCount) : Word := 0#12 ++ w.toField ++ off

/-- IMM with VD2 in bits 4:0 (R74). -/
def immReg (r : VReg) : Word := 0#27 ++ r.toField

/-- IMM with LOGM in bits 3:0 and VS3 in bits 12:8 (R74). -/
def immLogReg (m : LogCount) (r : VReg) : Word := 0#19 ++ r.toField ++ 0#4 ++ m.toField

/-- The fields of a command (R71, R74, R77). -/
def encodeFields (i : Instr) : Fields :=
  let op := i.opcode
  match i with
  | .nop => ⟨op.code, 0, 0, 0, 0, 0, 0⟩
  | .signal sig => ⟨op.code, 0, 0, 0, 0, 0, sig⟩
  | .vzero vd => ⟨op.code, vd.toField, 0, 0, 0, 0, 0⟩
  | .vsplat vd vs t n lane => .unary op vd vs t n (immHalf lane)
  | .vld vd t n a => ⟨op.code, vd.toField, 0, 0, t.code, n.toField, a⟩
  | .vldBe vd t n a => ⟨op.code, vd.toField, 0, 0, t.code, n.toField, a⟩
  | .vst vs t n a => ⟨op.code, 0, vs.toField, 0, t.code, n.toField, a⟩
  | .vstBe vs t n a => ⟨op.code, 0, vs.toField, 0, t.code, n.toField, a⟩
  | .cvtF32E4m3 vd vs n => .unary op vd vs .e4m3 n 0
  | .cvtF32E5m2 vd vs n => .unary op vd vs .e5m2 n 0
  | .cvtF32Bf16 vd vs n => .unary op vd vs .bf16 n 0
  | .cvtF64E4m3 vd vs n => .unary op vd vs .e4m3 n 0
  | .cvtF64E5m2 vd vs n => .unary op vd vs .e5m2 n 0
  | .cvtF64Bf16 vd vs n => .unary op vd vs .bf16 n 0
  | .cvtE4m3F32 vd vs n => .unary op vd vs .f32 n 0
  | .cvtE5m2F32 vd vs n => .unary op vd vs .f32 n 0
  | .cvtBf16F32 vd vs n => .unary op vd vs .f32 n 0
  | .cvtE4m3F64 vd vs n => .unary op vd vs .f64 n 0
  | .cvtE5m2F64 vd vs n => .unary op vd vs .f64 n 0
  | .cvtBf16F64 vd vs n => .unary op vd vs .f64 n 0
  | .redadd vd vs t n o => .unary op vd vs t n (immLog o)
  | .redmul vd vs t n o => .unary op vd vs t n (immLog o)
  | .redmin vd vs t n o => .unary op vd vs t n (immLog o)
  | .redmax vd vs t n o => .unary op vd vs t n (immLog o)
  | .redand vd vs t n o => .unary op vd vs t n (immLog o)
  | .redor vd vs t n o => .unary op vd vs t n (immLog o)
  | .redpopc vd vs t n o => .unary op vd vs t n (immLog o)
  | .slice vd vs t n off w => .unary op vd vs t n (immOffLog off w)
  | .insert vd vs vv t n off w => .binary op vd vs vv t n (immOffLog off w)
  | .join vd va vb t n => .binary op vd va vb t n 0
  | .split vd vd2 vs t n => .unary op vd vs t n (immReg vd2)
  | .ilv vd va vb t n => .binary op vd va vb t n 0
  | .dilv vd vd2 vs t n => .unary op vd vs t n (immReg vd2)
  | .shuf1 vd vs vm t n m => .binary op vd vs vm t n (immLog m)
  | .shuf2 vd vs vo vm t n m => .binary op vd vs vo t n (immLogReg m vm)
  | .rotl vd vs t n sh => .unary op vd vs t n (immHalf sh)
  | .rotr vd vs t n sh => .unary op vd vs t n (immHalf sh)
  | .shll vd vs t n sh => .unary op vd vs t n (immHalf sh)
  | .shrl vd vs t n sh => .unary op vd vs t n (immHalf sh)
  | .rev vd vs t n => .unary op vd vs t n 0

/-- The command word of a command (R88). -/
def encode (i : Instr) : CmdWord := (encodeFields i).pack

/-! ## The host's question about a row of the opcode table -/

/-- The command the decoder reads from a word whose bits 63:0 are the low `nbits` bits of `w` and zero above. A
command is pushed as one 64-bit word, so the table's numbering of its bits is the word's own (R70). -/
def decodeTableWord (nbits w : Nat) : Option Instr :=
  match decode (BitVec.ofNat 64 (w % 2 ^ nbits)) with
  | .ok i => some i
  | .error _ => none

end Sys2Proof
end

