-- ==== Sys2Proof/Machine/State.lean ====
section
/-!
DEFINITION. The state of the block: everything spec/10_state.md and spec/20_memory.md name, as plain data, with its
value after reset (R42), and the model's own fields for the outside world (log 1, 3, 5, 7).
-/
namespace Sys2Proof.Machine

/-- One byte of a vector register or of the scratchpad, as R42 gives it: unwritten since reset, or the value
written. `unwritten` is the spec's own state of a byte, not a missing reset value: R146 and R148 say that loading and
storing move it, and R42 that reading it gives some value that is never assumed (log 3). -/
inductive RegByte where
  /-- Nothing has written the byte since reset (R42). -/
  | unwritten
  /-- The byte holds a value. -/
  | written (b : Byte)
  deriving DecidableEq, Repr

/-- The scratchpad (R28, R50): the written bytes, by rising address. An address that is not listed is unwritten. -/
abbrev Memory := List Host.Cell

/-- One access of the host to its bus (R30, R59): its size in bytes, its bus address and, for a write, its data. -/
inductive HostAccess where
  | read (size addr : Nat)
  | write (size addr : Nat) (data : Word)
  deriving DecidableEq, Repr

/-- One event of the total order of R59, with the hardware reset of R240. -/
inductive Event where
  /-- The block's turn: one execution step if one is possible (R140, R246). -/
  | block
  /-- One access of the host (R59). -/
  | host (a : HostAccess)
  /-- The platform's hardware reset (R240). -/
  | hardReset
  deriving DecidableEq, Repr

/-- What the block handed back at the last host access (R30, R249). -/
inductive HostResponse where
  /-- No access has been made. -/
  | none
  /-- A write completed. -/
  | done
  /-- A read returned a word. -/
  | data (v : Word)
  /-- The access had a wrong size or alignment (R30). `readData` is the response's read data, which R30 makes 0. -/
  | busError (readData : Word)
  deriving DecidableEq, Repr

/-- Reasons for the MODEL to stop. There are none: every fault of the block is a state of the block (R213), and
spec/93_implementation_defined.md says that no behaviour of the block is undefined. Nothing raises one, which is safe. -/
inductive Fault where
  deriving DecidableEq, Repr

/-- Reasons for the model to refuse an instruction. -/
inductive Refusal where
  /-- Raised by an arm of exec whose instruction has no meaning yet; no arm does. Safe: the model stops. -/
  | notModelled (mnemonic : String)
  deriving DecidableEq, Repr

/-- The state of the block. -/
structure State where
  /-- The parameters of R6 (R43: parameters of a model, not architectural state). No step changes them (log 1). -/
  cfg : Config
  /-- V0 to V31, each a list of VLENB bytes, byte 0 first (R20, R21). -/
  regs : Vector (List RegByte) 32
  /-- The scratchpad (R28, R50). -/
  spm : Memory
  /-- The command queue, head first (R26). -/
  queue : List CmdWord
  /-- The push latch CMD_LO (R27). -/
  cmdLo : Word
  /-- CSEQ, the count of retired commands (R25). -/
  cseq : Word
  /-- CTRL.EN (R33). -/
  en : Bool
  /-- CTRL.IE_DONE (R33). -/
  ieDone : Bool
  /-- CTRL.IE_ERR (R33). -/
  ieErr : Bool
  /-- STATUS.DONE (R34). -/
  done : Bool
  /-- STATUS.ERR (R34). -/
  err : Bool
  /-- STATUS.DROPPED (R34). -/
  dropped : Bool
  /-- CAUSE (R35). -/
  cause : Cause
  /-- FAULTIDX (R36). -/
  faultIdx : Word
  /-- FAULTINFO (R37). -/
  faultInfo : Word
  /-- FAULTCMD_HI:FAULTCMD_LO (R38). -/
  faultCmd : CmdWord
  /-- SIGVAL (R39). -/
  sigVal : Word
  /-- The model's own: the events of the order of R59 still to come, the next one first (log 5). -/
  agenda : List Event
  /-- The model's own: what the last host access got (log 7). -/
  response : HostResponse
  /-- The model's own: how many free values have been drawn (log 3). -/
  draws : Nat
  deriving DecidableEq, Repr

/-- The state after reset of a block with parameters `cfg` (R42, R240). -/
def State.resetWith (cfg : Config) : State where
  cfg := cfg
  regs := Vector.replicate 32 (List.replicate cfg.vlenb .unwritten)
  spm := []
  queue := []
  cmdLo := 0
  cseq := 0
  en := false
  ieDone := false
  ieErr := false
  done := false
  err := false
  dropped := false
  cause := .none
  faultIdx := 0
  faultInfo := 0
  faultCmd := 0
  sigVal := 0
  agenda := []
  response := .none
  draws := 0

/-- The machine right after reset, in the reference configuration of R6 (log 1, log 2). -/
def State.reset : State := State.resetWith Config.reference

end Sys2Proof.Machine
end

