-- ==== Sys2Proof/Machine/Ops.lean ====
section
/-!
DEFINITION. The shared operations: bytes, the scratchpad, the register file, taking a fault (R213) and returning from
it (R222), retiring a command (R25, R140), the two resets (R240, R241), and running a command under its checks (R216).
-/
namespace Sys2Proof.Machine

/-! ## Bytes and lanes as bits (R22) -/

/-- The value of a byte read as draw `d`: what was written, or a free value where nothing was (R42, log 3). -/
def RegByte.value (c : RegByte) (d : Nat) : Byte :=
  match c with
  | .written b => b
  | .unwritten => Config.freeByte d

/-- The number whose byte k, least significant first, is `f k`, for k below `es` (R22). -/
def natOfBytes (f : Nat → Byte) : (es : Nat) → Nat
  | 0 => 0
  | k + 1 => natOfBytes f k + (f k).toNat * 256 ^ k

/-- The lane of `es` bytes whose byte k is `f k` (R22: the lowest-offset byte is the least significant). -/
def laneOfBytes (es : Nat) (f : Nat → Byte) : BitVec (8 * es) := BitVec.ofNat (8 * es) (natOfBytes f es)

/-- Byte k of a lane: its bits 8k+7 to 8k (R22, R53). -/
def byteOf {w : Nat} (x : BitVec w) (k : Nat) : Byte := x.extractLsb' (8 * k) 8

/-- Where byte j of a vector of big-endian lanes of `es` bytes stands when the lanes are read little-endian: the same
lane, its bytes reversed (R53, R147, R149). It is its own inverse. -/
def beIndex (es j : Nat) : Nat := j / es * es + (es - 1 - j % es)

/-! ## The scratchpad (R50 to R52) -/

/-- What an address that is not listed holds: a byte nothing has written (R42, log 3). -/
def Memory.unlisted : RegByte := .unwritten

/-- The byte at an address (R51). -/
def Memory.read : Memory → Nat → RegByte
  | [], _ => Memory.unlisted
  | (x, b) :: m, a => if x = a then .written b else Memory.read m a

/-- Put a byte at an address (R52), keeping the addresses rising. Storing an unwritten byte makes the address
unwritten (R148), so it is then not listed. -/
def Memory.write (m : Memory) (a : Nat) (v : RegByte) : Memory :=
  match m with
  | [] =>
    match v with
    | .unwritten => []
    | .written b => [(a, b)]
  | (x, c) :: rest =>
    if x < a then (x, c) :: Memory.write rest a v
    else
      let after := if x = a then rest else (x, c) :: rest
      match v with
      | .unwritten => after
      | .written b => (a, b) :: after

/-- `MemWrite(a, n, B)` of R52: byte k of `f` at address `a + k`, for k below `n`. -/
def Memory.writeBytes (m : Memory) (a : Nat) (f : Nat → RegByte) : (n : Nat) → Memory
  | 0 => m
  | n + 1 => Memory.write (Memory.writeBytes m a f n) (a + n) (f n)

/-- The canonical form: addresses strictly rising. No entry can equal what an unlisted address reads as, since a
listed byte is written. -/
abbrev Memory.wf (m : Memory) : Prop := m.Pairwise fun x y => x.1 < y.1

/-! ## The register file (R20 to R23) -/

/-- The bytes of V[r] (R9, R20). -/
def State.reg (s : State) (r : VReg) : List RegByte := s.regs.get r

/-- `V[r] <- bytes` (R9): replace register r, leaving every other register. -/
def State.setReg (s : State) (r : VReg) (bytes : List RegByte) : State :=
  { s with regs := s.regs.set r bytes }

/-- Byte j of V[r] (R21, R22). -/
def State.regByte (s : State) (r : VReg) (j : Nat) : RegByte := (s.reg r).getD j .unwritten

/-- VLENB bytes given by index, as the contents of a register. -/
def State.regOf (s : State) (f : Nat → RegByte) : List RegByte := (List.range s.cfg.vlenb).map f

/-- The free values drawn by reading `k` registers whole (log 3). -/
def State.drew (s : State) (k : Nat) : State := { s with draws := s.draws + k * s.cfg.vlenb }

/-! ## Retiring, faults and resets -/

/-- The command word at the head of the queue (R140). Where exec is asked about a command that is not in the queue
(no step does that) it is the word 0 (log 10). -/
def State.headWord (s : State) : CmdWord := s.queue.headD 0

/-- Retire the command at the head of the queue: it leaves the queue, and CSEQ counts it modulo 2^32 (R25, R140). -/
def retire (s : State) : State := { s with queue := s.queue.tail, cseq := s.cseq + 1 }

/-- Take the fault `c` with detail `info` on the word `w`: the report registers are written, the whole queue is
flushed and ERR is set; DONE, DROPPED, CTRL and CSEQ keep their values (R213, and R220 for a push). -/
def takeFault (c : Cause) (info : Word) (w : CmdWord) (s : State) : State :=
  { s with
    cause := c
    faultIdx := s.cseq
    faultInfo := info
    faultCmd := w
    queue := []
    err := true }

/-- `raise c(info)` by the command at the head of the queue (R9, R213). -/
def raise (c : Cause) (info : Word) (s : State) : State := takeFault c info s.headWord s

/-- Return from a fault: ERR and CAUSE are cleared in one step, and the other fault registers keep their values
(R222). Clearing ERR while it is 0 has no effect (R222; CAUSE is 0 then, R35). -/
def clearErr (s : State) : State := { s with err := false, cause := .none }

/-- The state of R42 with the parameters of `s`. What is not the block's (the events to come, what the host last got,
the free values drawn) stays: a byte read after the reset is a fresh draw (R240, R241, log 12). -/
def resetBlock (s : State) : State :=
  { State.resetWith s.cfg with agenda := s.agenda, response := s.response, draws := s.draws }

/-! ## A command under its checks (R140, R216) -/

/-- One check of R216: whether it fails, and the fault it then reports. -/
structure Check where
  fails : Bool
  cause : Cause
  info : Word
  deriving DecidableEq, Repr

/-- The first check that fails (R216: a command reports exactly one fault, the first). -/
def firstFault : List Check → Option (Cause × Word)
  | [] => none
  | c :: cs => if c.fails then some (c.cause, c.info) else firstFault cs

/-- Run a command: the first failing check is raised and nothing is written; otherwise the command's writes are made
and it retires, all in one step (R10, R140). -/
def command (checks : List Check) (perform : State → State) (s : State) : Host.Outcome State Fault Refusal :=
  .next (match firstFault checks with
    | some (c, info) => raise c info s
    | none => retire (perform s))

end Sys2Proof.Machine
end

