-- ==== Sys2Proof/Machine/Float.lean ====
section
/-!
DEFINITION. IEEE 754 arithmetic as the spec states it: the interchange formats (R11), rounding to nearest, ties to
even (R12), addition (R193), multiplication (R194), minimum and maximum (R195), and the conversions between f32 and
f64 (R123, R124). A finite value is kept exactly, as sign, natural mantissa and binary exponent, until it is rounded.
-/
namespace Sys2Proof.Machine

/-- A binary interchange format: E exponent bits and M mantissa bits (R11). -/
structure FloatFmt where
  E : Nat
  M : Nat
  deriving DecidableEq, Repr

/-- f32: E = 8, M = 23, bias 127 (R11). -/
def fmtF32 : FloatFmt := ⟨8, 23⟩

/-- f64: E = 11, M = 52, bias 1023 (R11). -/
def fmtF64 : FloatFmt := ⟨11, 52⟩

/-- The exponent bias, 2^(E-1) - 1: 127 for f32, 1023 for f64 (R11). -/
def FloatFmt.bias (f : FloatFmt) : Int := 2 ^ (f.E - 1) - 1

/-- The exponent of the lowest mantissa bit of the subnormals: 1 - bias - M (R11). -/
def FloatFmt.ulpMin (f : FloatFmt) : Int := 1 - f.bias - f.M

/-- What a pattern denotes (R11): a NaN, an infinity, or the exact value `(-1)^neg * mant * 2^exp`. A zero has mantissa
0 and keeps its sign. -/
inductive FloatVal where
  | nan
  | inf (neg : Bool)
  | finite (neg : Bool) (mant : Nat) (exp : Int)
  deriving DecidableEq, Repr

/-- The value of a pattern of format `f` (R11: classification and `value(x)`). -/
def FloatFmt.classify (f : FloatFmt) {w : Nat} (x : BitVec w) : FloatVal :=
  let neg := x.getLsbD (f.E + f.M)
  let e := x.toNat / 2 ^ f.M % 2 ^ f.E
  let m := x.toNat % 2 ^ f.M
  if e = 2 ^ f.E - 1 then (if m = 0 then .inf neg else .nan)
  else if e = 0 then .finite neg m f.ulpMin
  else .finite neg (2 ^ f.M + m) (f.ulpMin + (e - 1))

/-- The pattern with the given sign and magnitude field (exponent and mantissa together). -/
def FloatFmt.signed (f : FloatFmt) (w : Nat) (neg : Bool) (magnitude : Nat) : BitVec w :=
  BitVec.ofNat w ((if neg then 2 ^ (f.E + f.M) else 0) + magnitude)

/-- The magnitude field of an infinity: exponent all ones, mantissa 0 (R11). -/
def FloatFmt.infMagnitude (f : FloatFmt) : Nat := (2 ^ f.E - 1) * 2 ^ f.M

/-- `mant / 2^k` rounded to the nearest natural number, an exact tie to the even one (R12). -/
def roundShift (mant k : Nat) : Nat :=
  let q := mant / 2 ^ k
  let r := mant % 2 ^ k
  if 2 ^ k < 2 * r ∨ (2 ^ k = 2 * r ∧ q % 2 = 1) then q + 1 else q

/-- The magnitude field of `mant * 2^exp` rounded to nearest, ties to even (R12), as if the exponent field had no
largest value: the unit of the last place is that of the value's binade, or of the subnormals below the smallest
normal, and rounding up may carry into the exponent field. -/
def FloatFmt.roundUnbounded (f : FloatFmt) (mant : Nat) (exp : Int) : Nat :=
  let top : Int := exp + (Nat.log2 mant : Nat)
  let ulp : Int := max (top - f.M) f.ulpMin
  let q := if ulp ≤ exp then mant * 2 ^ (exp - ulp).toNat else roundShift mant (ulp - exp).toNat
  (ulp - f.ulpMin).toNat * 2 ^ f.M + q

/-- The magnitude field of `RNE_f(mant * 2^exp)` (R12): a value that rounds above the largest finite one, which is one
at or above the midpoint over it, becomes the infinity (log 8). -/
def FloatFmt.roundMagnitude (f : FloatFmt) (mant : Nat) (exp : Int) : Nat :=
  min (f.roundUnbounded mant exp) f.infMagnitude

/-- `RNE_f` of the exact value `(-1)^neg * mant * 2^exp`; a zero keeps the sign (R12). -/
def FloatFmt.round (f : FloatFmt) (w : Nat) (neg : Bool) (mant : Nat) (exp : Int) : BitVec w :=
  f.signed w neg (if mant = 0 then 0 else f.roundMagnitude mant exp)

/-- `F64toF32` (R123): NaN to NAN_F32, infinities and zeros kept, every other value rounded to f32. -/
def f64ToF32 (c : Config) (d : BitVec 64) : BitVec 32 :=
  match fmtF64.classify d with
  | .nan => c.nanF32
  | .inf neg => fmtF32.signed 32 neg fmtF32.infMagnitude
  | .finite neg m e => fmtF32.round 32 neg m e

/-- `F32toF64` (R124): NaN to NAN_F64, infinities kept, every other value exactly (it needs no rounding in f64). -/
def f32ToF64 (c : Config) (x : BitVec 32) : BitVec 64 :=
  match fmtF32.classify x with
  | .nan => c.nanF64
  | .inf neg => fmtF64.signed 64 neg fmtF64.infMagnitude
  | .finite neg m e => fmtF64.round 64 neg m e

/-- The signed mantissa of a finite value. -/
def signedMant (neg : Bool) (m : Nat) : Int := if neg then -(m : Int) else m

/-- IEEE addition with the canonical NaN `nan` (R193): a NaN operand or (+inf) + (-inf) gives it; an exact zero sum is
+0 but for (-0) + (-0); every other sum is exact, then rounded. -/
def FloatFmt.add (f : FloatFmt) {w : Nat} (nan a b : BitVec w) : BitVec w :=
  match f.classify a, f.classify b with
  | .nan, _ => nan
  | _, .nan => nan
  | .inf na, .inf nb => if na = nb then f.signed w na f.infMagnitude else nan
  | .inf na, .finite _ _ _ => f.signed w na f.infMagnitude
  | .finite _ _ _, .inf nb => f.signed w nb f.infMagnitude
  | .finite na ma ea, .finite nb mb eb =>
    let e := min ea eb
    let sum : Int := signedMant na ma * 2 ^ (ea - e).toNat + signedMant nb mb * 2 ^ (eb - e).toNat
    if sum = 0 then f.signed w (na && nb) 0 else f.round w (decide (sum < 0)) sum.natAbs e

/-- IEEE multiplication with the canonical NaN `nan` (R194): a NaN operand or inf * 0 gives it; the sign is the XOR of
the signs; every other product is exact, then rounded. -/
def FloatFmt.mul (f : FloatFmt) {w : Nat} (nan a b : BitVec w) : BitVec w :=
  match f.classify a, f.classify b with
  | .nan, _ => nan
  | _, .nan => nan
  | .inf na, .inf nb => f.signed w (na != nb) f.infMagnitude
  | .inf na, .finite nb mb _ => if mb = 0 then nan else f.signed w (na != nb) f.infMagnitude
  | .finite na ma _, .inf nb => if ma = 0 then nan else f.signed w (na != nb) f.infMagnitude
  | .finite na ma ea, .finite nb mb eb => f.round w (na != nb) (ma * mb) (ea + eb)

/-- Whether a pattern is a NaN (R11). -/
def FloatFmt.isNaN (f : FloatFmt) {w : Nat} (x : BitVec w) : Bool := f.classify x == .nan

/-- The place of a pattern that is no NaN in the order -inf < negative < -0 < +0 < positive < +inf (R195). -/
def FloatFmt.orderKey (f : FloatFmt) {w : Nat} (x : BitVec w) : Int :=
  let magnitude : Int := (x.toNat % 2 ^ (f.E + f.M) : Nat)
  if x.getLsbD (f.E + f.M) then -magnitude - 1 else magnitude

/-- IEEE 754-2019 minimum with the canonical NaN `nan` (R195). -/
def FloatFmt.minimum (f : FloatFmt) {w : Nat} (nan a b : BitVec w) : BitVec w :=
  if f.isNaN a || f.isNaN b then nan else if f.orderKey a ≤ f.orderKey b then a else b

/-- IEEE 754-2019 maximum with the canonical NaN `nan` (R195). -/
def FloatFmt.maximum (f : FloatFmt) {w : Nat} (nan a b : BitVec w) : BitVec w :=
  if f.isNaN a || f.isNaN b then nan else if f.orderKey b ≤ f.orderKey a then a else b

end Sys2Proof.Machine
end

