-- ==== Sys2Proof/Machine/Codec.lean ====
section
/-!
DEFINITION. The scalar format codec: the 8-bit decode (R110) and encode (R112) step for step, bf16 decode (R118) and
encode (R120), and the conversions against f64 through f32 (R125).
-/
namespace Sys2Proof.Machine

/-- The two 8-bit formats (R100, R102). -/
inductive Fmt8 where
  | e4m3
  | e5m2
  deriving DecidableEq, Repr

/-- MW, the mantissa width (R103). -/
def Fmt8.mw : Fmt8 → Nat
  | .e4m3 => 3
  | .e5m2 => 2

/-- BIAS (R103). -/
def Fmt8.bias : Fmt8 → Nat
  | .e4m3 => 7
  | .e5m2 => 15

/-- EMIN, the unbiased exponent of the smallest normal (R103). -/
def Fmt8.emin : Fmt8 → Int
  | .e4m3 => -6
  | .e5m2 => -14

/-- EMAX, the source's maximum normal exponent (R103). -/
def Fmt8.emax : Fmt8 → Int
  | .e4m3 => 7
  | .e5m2 => 15

/-- MAXFIN, the largest finite pattern (R103). -/
def Fmt8.maxFin : Fmt8 → Nat
  | .e4m3 => 0x7E
  | .e5m2 => 0x7B

/-- NAN8, the NaN pattern written: fixed for e4m3, NAN_E5M2, with its own sign bit, for e5m2 (R103, R107, log 13). -/
def Fmt8.nan8 (c : Config) : Fmt8 → BitVec 8
  | .e4m3 => 0x7F
  | .e5m2 => c.nanE5m2

/-- Case 4's loop (R110): shift the mantissa left until bit `mw` is 1, decrementing the exponent once per shift.
`fuel` bounds the shifts; `mw` of them are enough for any nonzero mantissa. -/
def normalize (mw : Nat) : (fuel m e : Nat) → Nat × Nat
  | 0, m, e => (m, e)
  | fuel + 1, m, e => if m.testBit mw then (m, e) else normalize mw fuel (m <<< 1) (e - 1)

/-- `Dec8(F, b)`: an 8-bit pattern to an f32 pattern, by the cases of R110 in their order. -/
def dec8 (c : Config) (F : Fmt8) (b : BitVec 8) : BitVec 32 :=
  let mw := F.mw
  let E := b.toNat / 2 ^ mw % 2 ^ (7 - mw)
  let m := b.toNat % 2 ^ mw
  let f := b.toNat / 128 * 2 ^ 31
  if F = .e4m3 ∧ E = 15 ∧ m = 7 then c.nanF32
  else if E ≠ 0 ∧ (F = .e4m3 ∨ E < 31) then
    BitVec.ofNat 32 (f ||| (E + 127 - F.bias) <<< 23 ||| m <<< (23 - mw))
  else if E = 0 ∧ m = 0 then BitVec.ofNat 32 f
  else if E = 0 then
    let p := normalize mw mw m (127 - F.bias + 1)
    BitVec.ofNat 32 (f ||| p.2 <<< 23 ||| (p.1 % 2 ^ mw) <<< (23 - mw))
  else if m = 0 then BitVec.ofNat 32 (f ||| 0x7F800000)
  else c.nanF32

/-- Steps 8 to 10 of R112: round the truncated pattern `u` by the bits of `mm` below it, saturate, add the sign. -/
def enc8Finish (F : Fmt8) (s8 u mm : Nat) (sticky : Bool) : BitVec 8 :=
  let k := 23 - (F.mw + 1)
  let roundBit := mm.testBit k
  let sticky := sticky || mm % 2 ^ k != 0
  let u := if roundBit && (sticky || u % 2 == 1) then u + 1 else u
  if u > F.maxFin then BitVec.ofNat 8 (s8 ||| F.maxFin) else BitVec.ofNat 8 (u ||| s8)

/-- `Enc8(F, x)`: an f32 pattern to an 8-bit pattern, rounding to nearest even with saturation, by the steps of R112
(the numbers in the comments are the source's). -/
def enc8 (c : Config) (F : Fmt8) (x : BitVec 32) : BitVec 8 :=
  let mw := F.mw
  let s8 := x.toNat / 2 ^ 31 * 128
  let Eb : Nat := x.toNat / 2 ^ 23 % 256
  let m : Nat := x.toNat % 2 ^ 23
  let saturated := BitVec.ofNat 8 (s8 ||| F.maxFin)
  if Eb = 255 ∧ m ≠ 0 then F.nan8 c                                           -- 1
  else if Eb = 255 then saturated                                             -- 2
  else
    let e : Int := (Eb : Int) - 127                                           -- 3
    if F.emin ≤ e ∧ e ≤ F.emax then                                           -- 6
      enc8Finish F s8 ((e + F.bias).toNat <<< mw ||| m >>> (23 - mw)) m false
    else if e < F.emin then                                                   -- 5
      let r := (F.emin - e).toNat
      if r < 32 then
        let full := m ||| 1 <<< 23
        let mm := full >>> r
        enc8Finish F s8 (mm >>> (23 - mw) % 2 ^ mw) mm (full % 2 ^ r != 0)
      else enc8Finish F s8 0 0 false                                          -- 4
    else if F = .e4m3 ∧ e = F.emax + 1 then                                   -- 7
      let mt := m >>> (23 - mw)
      if mt < 7 then enc8Finish F s8 ((e + F.bias).toNat <<< mw ||| mt) m false
      else saturated
    else saturated

/-- `DecBF16(h)`: a bf16 pattern to f32 (R118). -/
def decBf16 (c : Config) (h : BitVec 16) : BitVec 32 :=
  if h.extractLsb' 7 8 = 0xFF ∧ h.extractLsb' 0 7 ≠ 0 then c.nanF32 else h ++ 0#16

/-- `EncBF16(x)`: an f32 pattern to bf16, bias and truncate (R120). -/
def encBf16 (c : Config) (x : BitVec 32) : BitVec 16 :=
  if x.extractLsb' 23 8 = 0xFF ∧ x.extractLsb' 0 23 ≠ 0 then c.nanBf16
  else
    let lsb : BitVec 32 := (x >>> 16) &&& 1
    (x + 0x7FFF + lsb).extractLsb' 16 16

end Sys2Proof.Machine
end

