-- ==== Sys2Proof/Machine/Operands.lean ====
section
/-!
DEFINITION. The operand forms: lane counts (R73), lanes read from and written to registers (R9, R22, R23), the
immediate amounts (R74), and the checks of R216 that several commands share (R54, R218, R219).
-/
namespace Sys2Proof.Machine

/-- The lane count of a logarithm: N = 2^LOGN, and W, M likewise (R73, R74). -/
def count (n : LogCount) : Nat := 2 ^ n.val

/-- `Lane(r, t, i)` (R9, R22) with `es = esize(t)`. The register is read as operand number `k` of the command, which
fixes the draws its unwritten bytes take: byte j of operand k takes draw `draws + k * VLENB + j`, so that two reads of
a byte by two operands are two draws (R42, log 3). -/
def State.lane (s : State) (k : Nat) (r : VReg) (es i : Nat) : BitVec (8 * es) :=
  laneOfBytes es fun b => (s.regByte r (i * es + b)).value (s.draws + k * s.cfg.vlenb + (i * es + b))

/-- `LanesRd(r, t, n)` (R9): lanes 0 to n-1 of register r, read as operand number `k`. -/
def State.lanesRd (s : State) (k : Nat) (r : VReg) (es n : Nat) : List (BitVec (8 * es)) :=
  (List.range n).map (s.lane k r es)

/-- `LanesWr(r, t, L)` (R9, R23): lane i at bytes i*es to i*es+es-1, zero in every byte after the last lane. -/
def State.lanesWr {es : Nat} (s : State) (r : VReg) (L : List (BitVec (8 * es))) : State :=
  s.setReg r (s.regOf fun j =>
    .written (if j < L.length * es then byteOf (L.getD (j / es) 0) (j % es) else 0))

/-- A signed amount: `s = sint(IMM[15:0])` (R74, ROTL and ROTR). -/
def signedAmount (sh : BitVec 16) : Int := sh.toInt

/-- An unsigned amount: `s = uint(IMM[15:0])` (R74, SHLL and SHRL; also LANE and OFF). -/
def unsignedAmount (sh : BitVec 16) : Nat := sh.toNat

/-! ## Checks (R216, R218, R219) -/

/-- WIDTH(0) when `bad` (check 4 of R216). -/
def widthCheck (bad : Bool) : Check := ⟨bad, .width, 0⟩

/-- RANGE(0) for an immediate when `bad` (check 5 of R216; R211: FAULTINFO is 0). -/
def rangeCheck (bad : Bool) : Check := ⟨bad, .range, 0⟩

/-- ILLEGAL_TYPE(0) when the type is not admitted (check 3 of R216, R78). The decoder makes this check; a command
whose type it has admitted passes it here. -/
def typeCheck (admitted : Bool) : Check := ⟨!admitted, .illegalType, 0⟩

/-- ILLEGAL_FIELD(0) for SPLIT and DILV with VD = VD2 (check 2 of R216, R163, R165). The decoder makes this check. -/
def sameDestCheck (vd vd2 : VReg) : Check := ⟨vd == vd2, .illegalField, 0⟩

/-- `bytes > VLENB`: the vector does not fit a register (R7, R218). -/
def State.tooWide (s : State) (bytes : Nat) : Bool := decide (s.cfg.vlenb < bytes)

/-- The checks of VLD, VLD.BE, VST and VST.BE: WIDTH, then MISALIGN(a), then ADDR(a), the sum without wrap-around
(R54, R146, checks 4, 6 and 7 of R216). -/
def State.accessChecks (s : State) (t : EType) (n : LogCount) (a : Word) : List Check :=
  [widthCheck (s.tooWide (count n * t.esize)),
   ⟨decide (a.toNat % t.esize ≠ 0), .misalign, a⟩,
   ⟨decide (s.cfg.spmBytes < a.toNat + count n * t.esize), .addr, a⟩]

end Sys2Proof.Machine
end

