-- ==== Sys2Proof/Machine/Convert.lean ====
section
/-!
DEFINITION. The CVT family (spec/40_convert.md, R122 and R126 to R137): a scalar conversion applied lane by lane.
-/
namespace Sys2Proof.Machine

/-- The template of R122: every lane of V[VS1], read with lanes of `esS` bytes, is converted by `f` into a lane of
`esD` bytes (R104). WIDTH if `N * max(es_S, es_D) > VLENB`. -/
def convert (esS esD : Nat) (f : BitVec (8 * esS) → BitVec (8 * esD)) (vd vs : VReg) (n : LogCount) (s : State) :
    Host.Outcome State Fault Refusal :=
  command [widthCheck (s.tooWide (count n * max esS esD))]
    (fun s => (s.lanesWr vd ((s.lanesRd 0 vs esS (count n)).map f)).drew 1) s

/-- CVT.F32.E4M3 (R126). -/
def execCvtF32E4m3 (vd vs : VReg) (n : LogCount) (s : State) : Host.Outcome State Fault Refusal :=
  convert 1 4 (dec8 s.cfg .e4m3) vd vs n s

/-- CVT.F32.E5M2 (R127). -/
def execCvtF32E5m2 (vd vs : VReg) (n : LogCount) (s : State) : Host.Outcome State Fault Refusal :=
  convert 1 4 (dec8 s.cfg .e5m2) vd vs n s

/-- CVT.F32.BF16 (R128). -/
def execCvtF32Bf16 (vd vs : VReg) (n : LogCount) (s : State) : Host.Outcome State Fault Refusal :=
  convert 2 4 (decBf16 s.cfg) vd vs n s

/-- CVT.F64.E4M3 (R129): through f32 (R125). -/
def execCvtF64E4m3 (vd vs : VReg) (n : LogCount) (s : State) : Host.Outcome State Fault Refusal :=
  convert 1 8 (fun b => f32ToF64 s.cfg (dec8 s.cfg .e4m3 b)) vd vs n s

/-- CVT.F64.E5M2 (R130): through f32 (R125). -/
def execCvtF64E5m2 (vd vs : VReg) (n : LogCount) (s : State) : Host.Outcome State Fault Refusal :=
  convert 1 8 (fun b => f32ToF64 s.cfg (dec8 s.cfg .e5m2 b)) vd vs n s

/-- CVT.F64.BF16 (R131): through f32 (R125). -/
def execCvtF64Bf16 (vd vs : VReg) (n : LogCount) (s : State) : Host.Outcome State Fault Refusal :=
  convert 2 8 (fun h => f32ToF64 s.cfg (decBf16 s.cfg h)) vd vs n s

/-- CVT.E4M3.F32 (R132). -/
def execCvtE4m3F32 (vd vs : VReg) (n : LogCount) (s : State) : Host.Outcome State Fault Refusal :=
  convert 4 1 (enc8 s.cfg .e4m3) vd vs n s

/-- CVT.E5M2.F32 (R133). -/
def execCvtE5m2F32 (vd vs : VReg) (n : LogCount) (s : State) : Host.Outcome State Fault Refusal :=
  convert 4 1 (enc8 s.cfg .e5m2) vd vs n s

/-- CVT.BF16.F32 (R134). -/
def execCvtBf16F32 (vd vs : VReg) (n : LogCount) (s : State) : Host.Outcome State Fault Refusal :=
  convert 4 2 (encBf16 s.cfg) vd vs n s

/-- CVT.E4M3.F64 (R135): rounded to f32, then encoded (R125). -/
def execCvtE4m3F64 (vd vs : VReg) (n : LogCount) (s : State) : Host.Outcome State Fault Refusal :=
  convert 8 1 (fun d => enc8 s.cfg .e4m3 (f64ToF32 s.cfg d)) vd vs n s

/-- CVT.E5M2.F64 (R136): rounded to f32, then encoded (R125). -/
def execCvtE5m2F64 (vd vs : VReg) (n : LogCount) (s : State) : Host.Outcome State Fault Refusal :=
  convert 8 1 (fun d => enc8 s.cfg .e5m2 (f64ToF32 s.cfg d)) vd vs n s

/-- CVT.BF16.F64 (R137): rounded to f32, then encoded (R125). -/
def execCvtBf16F64 (vd vs : VReg) (n : LogCount) (s : State) : Host.Outcome State Fault Refusal :=
  convert 8 2 (fun d => encBf16 s.cfg (f64ToF32 s.cfg d)) vd vs n s

end Sys2Proof.Machine
end

