-- ==== Sys2Proof/Machine/CoreCommands.lean ====
section
/-!
DEFINITION. The CORE family: NOP, SIGNAL, VZERO, VSPLAT, VLD, VLD.BE, VST, VST.BE (spec/41_core.md, R141 to R149).
-/
namespace Sys2Proof.Machine

/-- NOP (R141): nothing but the retirement. -/
def execNop (s : State) : Host.Outcome State Fault Refusal := command [] (fun s => s) s

/-- SIGNAL (R142): SIGVAL takes IMM and DONE is set. -/
def execSignal (sig : Word) (s : State) : Host.Outcome State Fault Refusal :=
  command [] (fun s => { s with sigVal := sig, done := true }) s

/-- VZERO (R143): every byte of V[VD] is 0. -/
def execVzero (vd : VReg) (s : State) : Host.Outcome State Fault Refusal :=
  command [] (fun s => s.setReg vd (s.regOf fun _ => .written 0)) s

/-- VSPLAT (R144): N copies of lane L of V[VS1]. The lane is read once, so its copies agree (R42). -/
def execVsplat (vd vs : VReg) (t : EType) (n : LogCount) (lane : BitVec 16) (s : State) :
    Host.Outcome State Fault Refusal :=
  command
    [widthCheck (s.tooWide (count n * t.esize)),
     rangeCheck (decide (count n ≤ unsignedAmount lane))]
    (fun s => (s.lanesWr vd (List.replicate (count n) (s.lane 0 vs t.esize (unsignedAmount lane)))).drew 1) s

/-- A load (R146, R147): byte j of the register is the scratchpad byte at `a + index j`, for j below `nb`, and 0
after. An unwritten scratchpad byte gives an unwritten register byte (R146, log 4). -/
def loadBytes (vd : VReg) (a nb : Nat) (index : Nat → Nat) (s : State) : State :=
  s.setReg vd (s.regOf fun j => if j < nb then Memory.read s.spm (a + index j) else .written 0)

/-- A store (R148, R149): the scratchpad byte at `a + j` is the register byte `index j`, for j below `nb`. An
unwritten register byte makes the scratchpad byte unwritten (R148). -/
def storeBytes (vs : VReg) (a nb : Nat) (index : Nat → Nat) (s : State) : State :=
  { s with spm := Memory.writeBytes s.spm a (fun j => s.regByte vs (index j)) nb }

/-- VLD (R146): little-endian lanes, so byte j of the vector is byte j of the memory (R53). -/
def execVld (vd : VReg) (t : EType) (n : LogCount) (a : Word) (s : State) : Host.Outcome State Fault Refusal :=
  command (s.accessChecks t n a) (loadBytes vd a.toNat (count n * t.esize) fun j => j) s

/-- VLD.BE (R147): big-endian lanes, in the same lane order. -/
def execVldBe (vd : VReg) (t : EType) (n : LogCount) (a : Word) (s : State) : Host.Outcome State Fault Refusal :=
  command (s.accessChecks t n a) (loadBytes vd a.toNat (count n * t.esize) (beIndex t.esize)) s

/-- VST (R148): little-endian lanes (R53). -/
def execVst (vs : VReg) (t : EType) (n : LogCount) (a : Word) (s : State) : Host.Outcome State Fault Refusal :=
  command (s.accessChecks t n a) (storeBytes vs a.toNat (count n * t.esize) fun j => j) s

/-- VST.BE (R149): big-endian lanes, in the same lane order. -/
def execVstBe (vs : VReg) (t : EType) (n : LogCount) (a : Word) (s : State) : Host.Outcome State Fault Refusal :=
  command (s.accessChecks t n a) (storeBytes vs a.toNat (count n * t.esize) (beIndex t.esize)) s

end Sys2Proof.Machine
end

