-- ==== Sys2Proof/Machine/Reduce.lean ====
section
/-!
DEFINITION. The RED family (spec/43_reduce.md, R190 to R206): the balanced tree, the combiners, the seven commands.
-/
namespace Sys2Proof.Machine

/-! ## The tree (R191) -/

/-- One halving of R191: lane i of the lower half with lane i of the upper half. -/
def halve {α : Type} (op : α → α → α) (v : List α) : List α :=
  List.zipWith op (v.take (v.length / 2)) (v.drop (v.length / 2))

/-- `Reduce(op, t, v, W)` of R191 as its number of halvings: a list of 2^LOGN lanes is halved LOGN - LOGO times to
reach W = 2^LOGO lanes. -/
def reduceTree {α : Type} (op : α → α → α) : (halvings : Nat) → List α → List α
  | 0, v => v
  | k + 1, v => reduceTree op k (halve op v)

/-! ## The combiners (R192 to R196) -/

/-- A combiner of lanes of a type: f32 and f64 by the given float operations (R193 to R195), every other type by the
given operation on its bits (R192). -/
def combiner (t : EType) (f32Op : BitVec 32 → BitVec 32 → BitVec 32) (f64Op : BitVec 64 → BitVec 64 → BitVec 64)
    (intOp : BitVec (8 * t.esize) → BitVec (8 * t.esize) → BitVec (8 * t.esize)) :
    BitVec (8 * t.esize) → BitVec (8 * t.esize) → BitVec (8 * t.esize) :=
  match t, intOp with
  | .f32, _ => f32Op
  | .f64, _ => f64Op
  | .u8, op | .u16, op | .u32, op | .u64, op | .u128, op | .u256, op => op
  | .i8, op | .i16, op | .i32, op | .i64, op | .i128, op | .i256, op => op
  | .bool, op | .e4m3, op | .e5m2, op | .bf16, op | .f16, op => op

/-- The signed integer types (R5), whose lanes R192 compares as two's complement. -/
def isSigned : EType → Bool
  | .i8 | .i16 | .i32 | .i64 | .i128 | .i256 => true
  | .u8 | .u16 | .u32 | .u64 | .u128 | .u256 => false
  | .bool | .e4m3 | .e5m2 | .bf16 | .f16 | .f32 | .f64 => false

/-- `a <= b` between integer lanes of type `t` (R192). -/
def intLe (t : EType) {w : Nat} (a b : BitVec w) : Bool := if isSigned t then a.sle b else a.ule b

/-- add (R192, R193). -/
def addLane (c : Config) (t : EType) : BitVec (8 * t.esize) → BitVec (8 * t.esize) → BitVec (8 * t.esize) :=
  combiner t (fmtF32.add c.nanF32) (fmtF64.add c.nanF64) fun a b => a + b

/-- mul (R192, R194). -/
def mulLane (c : Config) (t : EType) : BitVec (8 * t.esize) → BitVec (8 * t.esize) → BitVec (8 * t.esize) :=
  combiner t (fmtF32.mul c.nanF32) (fmtF64.mul c.nanF64) fun a b => a * b

/-- min (R192, R195). -/
def minLane (c : Config) (t : EType) : BitVec (8 * t.esize) → BitVec (8 * t.esize) → BitVec (8 * t.esize) :=
  combiner t (fmtF32.minimum c.nanF32) (fmtF64.minimum c.nanF64) fun a b => if intLe t a b then a else b

/-- max (R192, R195). -/
def maxLane (c : Config) (t : EType) : BitVec (8 * t.esize) → BitVec (8 * t.esize) → BitVec (8 * t.esize) :=
  combiner t (fmtF32.maximum c.nanF32) (fmtF64.maximum c.nanF64) fun a b => if intLe t b a then a else b

/-- `popcount(x)`: the number of 1 bits, as a lane of the same type (R196). -/
def popcount {w : Nat} (x : BitVec w) : BitVec w := BitVec.ofNat w ((List.range w).countP fun i => x.getLsbD i)

/-! ## The commands (R190, R200 to R206) -/

/-- A reduction: ILLEGAL_TYPE if the type is not admitted, WIDTH if `N * es > VLENB` or LOGO > LOGN (R190); then each
lane is prepared by `pre` and the lanes are reduced by `op` (R191). -/
def reduction (admitted : Bool) (t : EType) (pre : BitVec (8 * t.esize) → BitVec (8 * t.esize))
    (op : BitVec (8 * t.esize) → BitVec (8 * t.esize) → BitVec (8 * t.esize))
    (vd vs : VReg) (n o : LogCount) (s : State) : Host.Outcome State Fault Refusal :=
  command
    [typeCheck admitted, widthCheck (s.tooWide (count n * t.esize) || decide (n.val < o.val))]
    (fun s =>
      (s.lanesWr vd (reduceTree op (n.val - o.val) ((s.lanesRd 0 vs t.esize (count n)).map pre))).drew 1) s

/-- REDADD (R200). -/
def execRedadd (vd vs : VReg) (t : EType) (n o : LogCount) (s : State) : Host.Outcome State Fault Refusal :=
  reduction (Opcode.admits .redadd t) t (fun x => x) (addLane s.cfg t) vd vs n o s

/-- REDMUL (R201). -/
def execRedmul (vd vs : VReg) (t : EType) (n o : LogCount) (s : State) : Host.Outcome State Fault Refusal :=
  reduction (Opcode.admits .redmul t) t (fun x => x) (mulLane s.cfg t) vd vs n o s

/-- REDMIN (R202). -/
def execRedmin (vd vs : VReg) (t : EType) (n o : LogCount) (s : State) : Host.Outcome State Fault Refusal :=
  reduction (Opcode.admits .redmin t) t (fun x => x) (minLane s.cfg t) vd vs n o s

/-- REDMAX (R203). -/
def execRedmax (vd vs : VReg) (t : EType) (n o : LogCount) (s : State) : Host.Outcome State Fault Refusal :=
  reduction (Opcode.admits .redmax t) t (fun x => x) (maxLane s.cfg t) vd vs n o s

/-- REDAND (R204): bitwise on every type it admits, bool on its whole byte (R192, D56). -/
def execRedand (vd vs : VReg) (t : EType) (n o : LogCount) (s : State) : Host.Outcome State Fault Refusal :=
  reduction (Opcode.admits .redand t) t (fun x => x) (fun a b => a &&& b) vd vs n o s

/-- REDOR (R205). -/
def execRedor (vd vs : VReg) (t : EType) (n o : LogCount) (s : State) : Host.Outcome State Fault Refusal :=
  reduction (Opcode.admits .redor t) t (fun x => x) (fun a b => a ||| b) vd vs n o s

/-- REDPOPC (R206): the lanes' bit counts, added modulo 2^w in the lane's own type (R196). -/
def execRedpopc (vd vs : VReg) (t : EType) (n o : LogCount) (s : State) : Host.Outcome State Fault Refusal :=
  reduction (Opcode.admits .redpopc t) t popcount (fun a b => a + b) vd vs n o s

end Sys2Proof.Machine
end

