-- ==== Sys2Proof/Machine/Structural.lean ====
section
/-!
DEFINITION. The PERM family (spec/42_structural.md, R159 to R173): lanes moved without looking at their values.
-/
namespace Sys2Proof.Machine

/-! ## Lane lists -/

/-- Lanes K to K+W-1 (R160). -/
def sliceLanes {α : Type} (v : List α) (k w : Nat) : List α := (v.drop k).take w

/-- `v` with lanes K to K+W-1 replaced by those of `x` (R161). -/
def insertLanes {α : Type} (v x : List α) (k : Nat) : List α := v.take k ++ x ++ v.drop (k + x.length)

/-- a[0], b[0], a[1], b[1], ... (R164). -/
def interleave {α : Type} : List α → List α → List α
  | a :: as, b :: bs => a :: b :: interleave as bs
  | _, _ => []

/-- The lanes of even index (R165). -/
def evens {α : Type} : List α → List α
  | [] => []
  | [a] => [a]
  | a :: _ :: rest => a :: evens rest

/-- The lanes of odd index (R165). -/
def odds {α : Type} (v : List α) : List α := evens v.tail

/-- Lane i of the result is lane (i + s) mod N (R168). -/
def rotate {es : Nat} (v : List (BitVec (8 * es))) (s : Int) : List (BitVec (8 * es)) :=
  (List.range v.length).map fun (i : Nat) => v.getD (((i : Int) + s) % (v.length : Int)).toNat 0

/-- Lane i of the result is lane i + s, or the zero lane past the end (R170). -/
def shiftDown {es : Nat} (v : List (BitVec (8 * es))) (s : Nat) : List (BitVec (8 * es)) :=
  (List.range v.length).map fun i => if i + s < v.length then v.getD (i + s) 0 else 0

/-- Lane i of the result is lane i - s, or the zero lane below s (R171). -/
def shiftUp {es : Nat} (v : List (BitVec (8 * es))) (s : Nat) : List (BitVec (8 * es)) :=
  (List.range v.length).map fun i => if s ≤ i then v.getD (i - s) 0 else 0

/-- The lowest mask lane whose entry is at least 2N (R166, R211). -/
def badEntry (n : Nat) (mask : List (BitVec (8 * 2))) : Option Nat :=
  mask.findIdx? fun e => decide (2 * n ≤ e.toNat)

/-- Output lane i is lane mask[i] of the concatenation `c` (R166, R167). -/
def shuffle {es : Nat} (c : List (BitVec (8 * es))) (mask : List (BitVec (8 * 2))) : List (BitVec (8 * es)) :=
  mask.map fun e => c.getD e.toNat 0

/-! ## Slice and insert -/

/-- The checks of SLICE and INSERT (R160, R161, R219). -/
def sliceChecks (s : State) (t : EType) (n : LogCount) (off : BitVec 16) (w : LogCount) : List Check :=
  [widthCheck (s.tooWide (count n * t.esize)),
   rangeCheck (decide (count n < unsignedAmount off + count w))]

/-- SLICE (R160). -/
def execSlice (vd vs : VReg) (t : EType) (n : LogCount) (off : BitVec 16) (w : LogCount) (s : State) :
    Host.Outcome State Fault Refusal :=
  command (sliceChecks s t n off w)
    (fun s =>
      (s.lanesWr vd (sliceLanes (s.lanesRd 0 vs t.esize (count n)) (unsignedAmount off) (count w))).drew 1) s

/-- INSERT (R161). -/
def execInsert (vd vs vv : VReg) (t : EType) (n : LogCount) (off : BitVec 16) (w : LogCount) (s : State) :
    Host.Outcome State Fault Refusal :=
  command (sliceChecks s t n off w)
    (fun s =>
      (s.lanesWr vd (insertLanes (s.lanesRd 0 vs t.esize (count n)) (s.lanesRd 1 vv t.esize (count w))
        (unsignedAmount off))).drew 2) s

/-! ## Join, split, interleave, deinterleave -/

/-- The check of JOIN and ILV: the 2N lanes are a legal width and fit a register (R162, R218). -/
def joinCheck (s : State) (t : EType) (n : LogCount) : Check :=
  widthCheck (decide (14 < n.val) || s.tooWide (2 * count n * t.esize))

/-- The checks of SPLIT and DILV (R163, R218). -/
def splitChecks (s : State) (vd vd2 : VReg) (t : EType) (n : LogCount) : List Check :=
  [sameDestCheck vd vd2, widthCheck (s.tooWide (count n * t.esize) || decide (count n < 2))]

/-- JOIN (R162): a's lanes, then b's. -/
def execJoin (vd va vb : VReg) (t : EType) (n : LogCount) (s : State) : Host.Outcome State Fault Refusal :=
  command [joinCheck s t n]
    (fun s =>
      (s.lanesWr vd (s.lanesRd 0 va t.esize (count n) ++ s.lanesRd 1 vb t.esize (count n))).drew 2) s

/-- SPLIT (R163): the low half to VD, the high half to VD2, both read before either is written (R10). -/
def execSplit (vd vd2 vs : VReg) (t : EType) (n : LogCount) (s : State) : Host.Outcome State Fault Refusal :=
  command (splitChecks s vd vd2 t n)
    (fun s =>
      let v := s.lanesRd 0 vs t.esize (count n)
      let h := count n / 2
      ((s.lanesWr vd (v.take h)).lanesWr vd2 (v.drop h)).drew 1) s

/-- ILV (R164): out[2i] = a[i], out[2i+1] = b[i]. -/
def execIlv (vd va vb : VReg) (t : EType) (n : LogCount) (s : State) : Host.Outcome State Fault Refusal :=
  command [joinCheck s t n]
    (fun s =>
      (s.lanesWr vd (interleave (s.lanesRd 0 va t.esize (count n)) (s.lanesRd 1 vb t.esize (count n)))).drew 2) s

/-- DILV (R165): the even lanes to VD, the odd lanes to VD2. -/
def execDilv (vd vd2 vs : VReg) (t : EType) (n : LogCount) (s : State) : Host.Outcome State Fault Refusal :=
  command (splitChecks s vd vd2 t n)
    (fun s =>
      let v := s.lanesRd 0 vs t.esize (count n)
      ((s.lanesWr vd (evens v)).lanesWr vd2 (odds v)).drew 1) s

/-! ## Shuffle -/

/-- The width check of SHUF1 and SHUF2 (R166, R167, R218). -/
def shuffleCheck (s : State) (t : EType) (n m : LogCount) : Check :=
  widthCheck (s.tooWide (count n * t.esize) || s.tooWide (count m * t.esize) || s.tooWide (2 * count m))

/-- FAULTINFO of a bad mask entry at lane i: `0x80000000 | i` (R211). -/
def maskInfo (i : Nat) : Word := 0x80000000 ||| BitVec.ofNat 32 i

/-- The end of a shuffle whose operands have been read, `k` registers of them: RANGE for the lowest mask entry that is
at least 2N (check 8 of R216), else the shuffled lanes are written and the command retires. -/
def shuffleFrom {es : Nat} (vd : VReg) (n k : Nat) (c : List (BitVec (8 * es))) (mask : List (BitVec (8 * 2)))
    (s : State) : State :=
  match badEntry n mask with
  | some i => raise .range (maskInfo i) (s.drew k)
  | none => retire ((s.lanesWr vd (shuffle c mask)).drew k)

/-- SHUF1 (R166): `other = v`, so an entry in [N, 2N) selects v[entry - N]. The mask is read as M lanes of u16
(R172). -/
def execShuf1 (vd vs vm : VReg) (t : EType) (n m : LogCount) (s : State) : Host.Outcome State Fault Refusal :=
  .next (match firstFault [shuffleCheck s t n m] with
    | some (c, info) => raise c info s
    | none =>
      let v := s.lanesRd 0 vs t.esize (count n)
      shuffleFrom vd (count n) 2 (v ++ v) (s.lanesRd 1 vm 2 (count m)) s)

/-- SHUF2 (R167): the concatenation of V[VS1] and V[VS2], by the mask of V[VS3]. -/
def execShuf2 (vd vs vo vm : VReg) (t : EType) (n m : LogCount) (s : State) : Host.Outcome State Fault Refusal :=
  .next (match firstFault [shuffleCheck s t n m] with
    | some (c, info) => raise c info s
    | none =>
      shuffleFrom vd (count n) 3
        (s.lanesRd 0 vs t.esize (count n) ++ s.lanesRd 1 vo t.esize (count n))
        (s.lanesRd 2 vm 2 (count m)) s)

/-! ## Rotate, shift, reverse -/

/-- A command of one source register that writes N lanes made from its N lanes, with one range check (R159). -/
def lanewise (t : EType) (n : LogCount) (outOfRange : Bool)
    (f : List (BitVec (8 * t.esize)) → List (BitVec (8 * t.esize))) (vd vs : VReg) (s : State) :
    Host.Outcome State Fault Refusal :=
  command [widthCheck (s.tooWide (count n * t.esize)), rangeCheck outOfRange]
    (fun s => (s.lanesWr vd (f (s.lanesRd 0 vs t.esize (count n)))).drew 1) s

/-- ROTL (R168): RANGE unless -N <= s < N, and s = 0 where N = 1. -/
def execRotl (vd vs : VReg) (t : EType) (n : LogCount) (sh : BitVec 16) (s : State) :
    Host.Outcome State Fault Refusal :=
  let a := signedAmount sh
  lanewise t n (decide (¬(-(count n : Int) ≤ a ∧ a < count n) ∨ (count n = 1 ∧ a ≠ 0))) (fun v => rotate v a) vd vs s

/-- ROTR (R169): RANGE unless -N < s <= N, and s = 0 where N = 1; lane i is lane (i - s) mod N. -/
def execRotr (vd vs : VReg) (t : EType) (n : LogCount) (sh : BitVec 16) (s : State) :
    Host.Outcome State Fault Refusal :=
  let a := signedAmount sh
  lanewise t n (decide (¬(-(count n : Int) < a ∧ a ≤ count n) ∨ (count n = 1 ∧ a ≠ 0))) (fun v => rotate v (-a))
    vd vs s

/-- SHLL (R170): lanes move toward lane 0, zero lanes come in; RANGE if s > N. -/
def execShll (vd vs : VReg) (t : EType) (n : LogCount) (sh : BitVec 16) (s : State) :
    Host.Outcome State Fault Refusal :=
  lanewise t n (decide (count n < unsignedAmount sh)) (fun v => shiftDown v (unsignedAmount sh)) vd vs s

/-- SHRL (R171): lanes move away from lane 0, zero lanes come in; RANGE if s > N. -/
def execShrl (vd vs : VReg) (t : EType) (n : LogCount) (sh : BitVec 16) (s : State) :
    Host.Outcome State Fault Refusal :=
  lanewise t n (decide (count n < unsignedAmount sh)) (fun v => shiftUp v (unsignedAmount sh)) vd vs s

/-- REV (R173): lane i is lane N - 1 - i. -/
def execRev (vd vs : VReg) (t : EType) (n : LogCount) (s : State) : Host.Outcome State Fault Refusal :=
  lanewise t n false List.reverse vd vs s

end Sys2Proof.Machine
end

