-- ==== Sys2Proof/Machine/Dispatch.lean ====
section
/-!
DEFINITION. exec: one arm per command, each one call of its meaning. exec is the effect of the command at the head of
the queue (R140), with the checks 4 to 8 of R216; the decoder has made checks 1 to 3.
-/
namespace Sys2Proof.Machine

def exec (i : Instr) (s : State) : Host.Outcome State Fault Refusal :=
  match i with
  -- CORE
  | .nop => Sys2Proof.Machine.execNop s
  | .signal sig => Sys2Proof.Machine.execSignal sig s
  | .vzero vd => Sys2Proof.Machine.execVzero vd s
  | .vsplat vd vs t n lane => Sys2Proof.Machine.execVsplat vd vs t n lane s
  | .vld vd t n a => Sys2Proof.Machine.execVld vd t n a s
  | .vldBe vd t n a => Sys2Proof.Machine.execVldBe vd t n a s
  | .vst vs t n a => Sys2Proof.Machine.execVst vs t n a s
  | .vstBe vs t n a => Sys2Proof.Machine.execVstBe vs t n a s
  -- CVT
  | .cvtF32E4m3 vd vs n => Sys2Proof.Machine.execCvtF32E4m3 vd vs n s
  | .cvtF32E5m2 vd vs n => Sys2Proof.Machine.execCvtF32E5m2 vd vs n s
  | .cvtF32Bf16 vd vs n => Sys2Proof.Machine.execCvtF32Bf16 vd vs n s
  | .cvtF64E4m3 vd vs n => Sys2Proof.Machine.execCvtF64E4m3 vd vs n s
  | .cvtF64E5m2 vd vs n => Sys2Proof.Machine.execCvtF64E5m2 vd vs n s
  | .cvtF64Bf16 vd vs n => Sys2Proof.Machine.execCvtF64Bf16 vd vs n s
  | .cvtE4m3F32 vd vs n => Sys2Proof.Machine.execCvtE4m3F32 vd vs n s
  | .cvtE5m2F32 vd vs n => Sys2Proof.Machine.execCvtE5m2F32 vd vs n s
  | .cvtBf16F32 vd vs n => Sys2Proof.Machine.execCvtBf16F32 vd vs n s
  | .cvtE4m3F64 vd vs n => Sys2Proof.Machine.execCvtE4m3F64 vd vs n s
  | .cvtE5m2F64 vd vs n => Sys2Proof.Machine.execCvtE5m2F64 vd vs n s
  | .cvtBf16F64 vd vs n => Sys2Proof.Machine.execCvtBf16F64 vd vs n s
  -- RED
  | .redadd vd vs t n o => Sys2Proof.Machine.execRedadd vd vs t n o s
  | .redmul vd vs t n o => Sys2Proof.Machine.execRedmul vd vs t n o s
  | .redmin vd vs t n o => Sys2Proof.Machine.execRedmin vd vs t n o s
  | .redmax vd vs t n o => Sys2Proof.Machine.execRedmax vd vs t n o s
  | .redand vd vs t n o => Sys2Proof.Machine.execRedand vd vs t n o s
  | .redor vd vs t n o => Sys2Proof.Machine.execRedor vd vs t n o s
  | .redpopc vd vs t n o => Sys2Proof.Machine.execRedpopc vd vs t n o s
  -- PERM
  | .slice vd vs t n off w => Sys2Proof.Machine.execSlice vd vs t n off w s
  | .insert vd vs vv t n off w => Sys2Proof.Machine.execInsert vd vs vv t n off w s
  | .join vd va vb t n => Sys2Proof.Machine.execJoin vd va vb t n s
  | .split vd vd2 vs t n => Sys2Proof.Machine.execSplit vd vd2 vs t n s
  | .ilv vd va vb t n => Sys2Proof.Machine.execIlv vd va vb t n s
  | .dilv vd vd2 vs t n => Sys2Proof.Machine.execDilv vd vd2 vs t n s
  | .shuf1 vd vs vm t n m => Sys2Proof.Machine.execShuf1 vd vs vm t n m s
  | .shuf2 vd vs vo vm t n m => Sys2Proof.Machine.execShuf2 vd vs vo vm t n m s
  | .rotl vd vs t n sh => Sys2Proof.Machine.execRotl vd vs t n sh s
  | .rotr vd vs t n sh => Sys2Proof.Machine.execRotr vd vs t n sh s
  | .shll vd vs t n sh => Sys2Proof.Machine.execShll vd vs t n sh s
  | .shrl vd vs t n sh => Sys2Proof.Machine.execShrl vd vs t n sh s
  | .rev vd vs t n => Sys2Proof.Machine.execRev vd vs t n s

end Sys2Proof.Machine
end

