-- ==== Sys2Proof/Machine/Flags.lean ====
section
/-!
DEFINITION. The bits the host sees. The block has no condition codes and no floating-point flags (R24); its flags are
those of CTRL and STATUS (R33, R34) and the interrupt line (R225). Here they are put together from State, with the
constants ID and CAP (R31, R32) and the cause codes (R210).
-/
namespace Sys2Proof.Machine

/-- The code CAUSE holds (R210). -/
def causeCode : Cause → BitVec 8
  | .none => 0
  | .illegalOpcode => 1
  | .illegalField => 2
  | .illegalType => 3
  | .width => 4
  | .range => 5
  | .misalign => 6
  | .addr => 7
  | .cmdqOverflow => 8

/-- QCOUNT: words in the command queue (R26). -/
def State.qcount (s : State) : Nat := s.queue.length

/-- STATUS.BUSY: 1 iff QCOUNT is not 0 (R34). -/
def State.busy (s : State) : Bool := s.qcount != 0

/-- STATUS.QFULL: 1 iff QCOUNT = CMDQ_DEPTH (R34). -/
def State.qfull (s : State) : Bool := s.qcount == s.cfg.cmdqDepth

/-- IRQ = (DONE AND IE_DONE) OR (ERR AND IE_ERR) (R225). -/
def State.irq (s : State) : Bool := (s.done && s.ieDone) || (s.err && s.ieErr)

/-- What a read of CTRL returns: EN, IE_DONE, IE_ERR in bits 0 to 2; reserved bits and SRST read 0 (R33). -/
def State.ctrlWord (s : State) : Word :=
  0#29 ++ BitVec.ofBool s.ieErr ++ BitVec.ofBool s.ieDone ++ BitVec.ofBool s.en

/-- What a read of STATUS returns: QCOUNT in bits 15:8, then bits 4 to 0 QFULL, DROPPED, ERR, DONE, BUSY (R34). -/
def State.statusWord (s : State) : Word :=
  0#16 ++ BitVec.ofNat 8 s.qcount ++ 0#3 ++ BitVec.ofBool s.qfull ++ BitVec.ofBool s.dropped ++
    BitVec.ofBool s.err ++ BitVec.ofBool s.done ++ BitVec.ofBool s.busy

/-- What a read of CAUSE returns: the code in bits 7:0 (R35). -/
def State.causeWord (s : State) : Word := 0#24 ++ causeCode s.cause

/-- ID: the identifier 0x4D56, major version 1, minor version 0 (R31). -/
def idWord : Word := 0x4D56#16 ++ 0x01#8 ++ 0x00#8

/-- CAP: the geometry in bits 17:0 and the six presence bits 23:18, all 1 in version 1.0 (R2, R32). -/
def capWord (c : Config) : Word :=
  0#8 ++ 0x3F#6 ++ BitVec.ofNat 8 c.cmdqDepth ++ BitVec.ofNat 5 (12 + c.spmExp.val) ++
    BitVec.ofNat 5 (5 + c.vlenbExp.val)

end Sys2Proof.Machine
end

