-- ==== Sys2Proof/Machine/HostPort.lean ====
section
/-!
DEFINITION. The host's accesses to the register window (R29, R30): where an offset leads, what a read returns, what a
write does: CTRL with the soft reset (R33, R241), STATUS (R34, R222), the push (R27, R40, R220, R221), the
scratchpad window (R53, R55).
-/
namespace Sys2Proof.Machine

/-- What stands at an offset of the window (R29). -/
inductive Port where
  | id | cap | ctrl | status | cause | faultIdx | faultInfo | faultCmdLo | faultCmdHi | cseq | sigVal | cmdLo | cmdHi
  /-- The scratchpad word at byte address `a` (R55). -/
  | spm (a : Nat)
  /-- A reserved offset (R30). -/
  | reserved
  deriving DecidableEq, Repr

/-- The registers of the window and their offsets (R29). -/
def registerMap : List (Nat × Port) :=
  [(0x000, .id), (0x004, .cap), (0x008, .ctrl), (0x00C, .status), (0x010, .cause), (0x014, .faultIdx),
   (0x018, .faultInfo), (0x01C, .faultCmdLo), (0x020, .faultCmdHi), (0x024, .cseq), (0x028, .sigVal),
   (0x030, .cmdLo), (0x034, .cmdHi)]

/-- What stands at a 4-byte aligned offset (R29, R55). -/
def portAt (c : Config) (off : Nat) : Port :=
  if 0x10000 ≤ off ∧ off - 0x10000 + 4 ≤ c.spmBytes then .spm (off - 0x10000)
  else
    match registerMap.find? fun e => e.1 == off with
    | some e => e.2
    | none => .reserved

/-- The offset of a host bus address in the window; none outside it (R29). -/
def windowOffset (c : Config) (addr : Nat) : Option Nat :=
  if c.mmioBase ≤ addr ∧ addr < c.mmioBase + 0x20000 then some (addr - c.mmioBase) else none

/-! ## Reads -/

/-- The scratchpad word at `a`, little-endian: byte `a + k` in bits 8k+7 to 8k (R53, R55). An unwritten byte reads as a
free value (R42, log 3). -/
def State.spmWord (s : State) (a : Nat) : Word :=
  laneOfBytes 4 fun k => (Memory.read s.spm (a + k)).value (s.draws + k)

/-- What a read of a port returns (R30 to R39). A write-only register and a reserved offset read 0 (R30). -/
def State.readPort (s : State) : Port → Word
  | .id => idWord
  | .cap => capWord s.cfg
  | .ctrl => s.ctrlWord
  | .status => s.statusWord
  | .cause => s.causeWord
  | .faultIdx => s.faultIdx
  | .faultInfo => s.faultInfo
  | .faultCmdLo => s.faultCmd.extractLsb' 0 32
  | .faultCmdHi => s.faultCmd.extractLsb' 32 32
  | .cseq => s.cseq
  | .sigVal => s.sigVal
  | .cmdLo => 0
  | .cmdHi => 0
  | .spm a => s.spmWord a
  | .reserved => 0

/-- The free values a read of a port draws: those of the four bytes of a scratchpad word (log 3). -/
def portDraws : Port → Nat
  | .spm _ => 4
  | .id | .cap | .ctrl | .status | .cause | .faultIdx | .faultInfo | .faultCmdLo | .faultCmdHi | .cseq | .sigVal => 0
  | .cmdLo | .cmdHi | .reserved => 0

/-! ## Writes -/

/-- A write to CTRL (R33): SRST = 1 resets the block and the other bits are ignored (R241); else EN, IE_DONE and IE_ERR
take bits 0, 1 and 2, and the reserved bits are ignored. -/
def writeCtrl (v : Word) (s : State) : State :=
  if v.getLsbD 31 then resetBlock s
  else { s with en := v.getLsbD 0, ieDone := v.getLsbD 1, ieErr := v.getLsbD 2 }

/-- A write to STATUS (R34, R222): a 1 clears DONE (bit 1), ERR with CAUSE (bit 2), DROPPED (bit 3). -/
def writeStatus (v : Word) (s : State) : State :=
  let s := if v.getLsbD 2 then clearErr s else s
  { s with done := s.done && !v.getLsbD 1, dropped := s.dropped && !v.getLsbD 3 }

/-- A write of `h` to CMD_HI: the push of the word `{h, CMD_LO}` (R40): dropped while ERR = 1 (R221), a CMDQ_OVERFLOW
fault on a full queue (R220), else enqueued at the tail. CMD_LO keeps its value (R27). -/
def push (h : Word) (s : State) : State :=
  let w : CmdWord := h ++ s.cmdLo
  if s.err then { s with dropped := true }
  else if s.qfull then takeFault .cmdqOverflow 0 w s
  else { s with queue := s.queue ++ [w] }

/-- A write of a scratchpad word at `a`, little-endian (R53, R55). -/
def writeSpmWord (a : Nat) (v : Word) (s : State) : State :=
  { s with spm := Memory.writeBytes s.spm a (fun k => .written (byteOf v k)) 4 }

/-- What a write to a port does. A write to a read-only register or to a reserved offset is ignored (R30). -/
def writePort (v : Word) (s : State) : Port → State
  | .ctrl => writeCtrl v s
  | .status => writeStatus v s
  | .cmdLo => { s with cmdLo := v }
  | .cmdHi => push v s
  | .spm a => writeSpmWord a v s
  | .id | .cap | .cause | .faultIdx | .faultInfo | .faultCmdLo | .faultCmdHi | .cseq | .sigVal => s
  | .reserved => s

/-! ## One access (R30) -/

/-- Whether an access is a 32-bit one at a multiple of 4 (R30). -/
def wellSized (size off : Nat) : Bool := size == 4 && off % 4 == 0

/-- The response to an access of another size or alignment: a bus error with read data 0 (R30). -/
def busErrorResponse : HostResponse := .busError 0

/-- One host access. Outside the window it does not reach the block (R29, log 11). In the window, an access of another
size or alignment has no effect and gets a bus error with read data 0 (R30). -/
def hostAccess (a : HostAccess) (s : State) : State :=
  match a with
  | .read size addr =>
    match windowOffset s.cfg addr with
    | none => s
    | some off =>
      if wellSized size off then
        let p := portAt s.cfg off
        { s with response := .data (s.readPort p), draws := s.draws + portDraws p }
      else { s with response := busErrorResponse }
  | .write size addr v =>
    match windowOffset s.cfg addr with
    | none => s
    | some off =>
      if wellSized size off then { writePort v s (portAt s.cfg off) with response := .done }
      else { s with response := busErrorResponse }

end Sys2Proof.Machine
end

