-- ==== Sys2Proof/Machine/Agents.lean ====
section
/-!
DEFINITION. The agents' steps: the block's execution step (R140), and the next event of the total order of R59.
-/
namespace Sys2Proof.Machine

/-- An execution step is possible exactly when EN = 1, ERR = 0 and QCOUNT > 0 (R140). -/
def State.canExecute (s : State) : Bool := s.en && !s.err && s.busy

/-- Execute the word `w` at the head of the queue (R140): the decoder's checks (1 to 3 of R216) first, each with
FAULTINFO 0 (R211), then the command. -/
def execWord (w : CmdWord) (s : State) : Host.Outcome State Fault Refusal :=
  match decode w with
  | .ok i => exec i s
  | .error c => .next (raise c 0 s)

/-- The block's turn: one execution step if one is possible; otherwise the block is idle and does nothing (R140). -/
def blockStep (s : State) : Host.Outcome State Fault Refusal :=
  if s.canExecute then
    match s.queue with
    | w :: _ => execWord w s
    | [] => .next s
  else .next s

/-- The next event of the total order (R59). When no event is left to come, every further turn is the block's, so a
step that stays possible is taken (R246, log 5). -/
def nextEvent (s : State) : Host.Outcome State Fault Refusal :=
  match s.agenda with
  | [] => blockStep s
  | .block :: rest => blockStep { s with agenda := rest }
  | .host a :: rest => .next (hostAccess a { s with agenda := rest })
  | .hardReset :: rest => .next (resetBlock { s with agenda := rest })

/-- `s` with the word `w` alone in the queue of an enabled block with no fault pending, and the block's turn next: the
next step executes `w` (R140, log 6). -/
def State.withHeadWord (s : State) (w : CmdWord) : State :=
  { clearErr s with queue := [w], en := true, agenda := .block :: s.agenda }

end Sys2Proof.Machine
end

