-- ==== Sys2Proof/Machine/Step.lean ====
section
/-!
DEFINITION. One step of the machine: one event of the total order of R59.
-/
namespace Sys2Proof.Machine

/-- One step: the next event (R59, R246). -/
def step (s : State) : Host.Outcome State Fault Refusal := nextEvent s

/-- The block fetches no instruction from an address (R63): it takes the word at the head of its queue. The word whose
bits 63:0 are the low `nbits` bits of `w` is put there, and the block is made ready to execute it next (log 6). -/
def State.withFetchWord (s : State) (nbits w : Nat) : State := s.withHeadWord (BitVec.ofNat 64 (w % 2 ^ nbits))

end Sys2Proof.Machine
end

