-- ==== Sys2Proof/Safety.lean ====
section
/-!
DEFINITION. The terms claims are stated in, written from the spec and not from the meanings: the invariant of the
state, the end of a run (R248), what a command that retires or faults leaves, the tables of R78, R217, R218 and R219,
and the real value of a floating-point pattern (R11).
-/
namespace Sys2Proof.Machine

/-- Every register holds VLENB bytes (R20). -/
def State.regsSized (s : State) : Prop := ∀ r : VReg, (s.reg r).length = s.cfg.vlenb

/-- The scratchpad is in canonical form and lists no address at or beyond SPM_BYTES (R28, R50). -/
def State.spmSound (s : State) : Prop := Memory.wf s.spm ∧ ∀ c ∈ s.spm, c.1 < s.cfg.spmBytes

/-- The queue holds at most CMDQ_DEPTH words (R26). -/
def State.queueBounded (s : State) : Prop := s.queue.length ≤ s.cfg.cmdqDepth

/-- CAUSE is NONE exactly while ERR = 0 (R35), and while ERR = 1 the queue is empty (R213, R220, R221). -/
def State.faultSound (s : State) : Prop :=
  (s.err = false → s.cause = .none) ∧ (s.err = true → s.cause ≠ .none ∧ s.queue = [])

/-- The invariant of the block's state. -/
structure State.Inv (s : State) : Prop where
  regsSized : s.regsSized
  spmSound : s.spmSound
  queueBounded : s.queueBounded
  faultSound : s.faultSound

/-- Quiescent: QCOUNT = 0, or ERR = 1, or EN = 0 (R248). -/
def State.quiescent (s : State) : Bool := s.qcount == 0 || s.err || !s.en

/-- The end of a successful run of `k` pushed words since a reset (R248): quiescent with the queue empty, no fault
pending, nothing dropped, and CSEQ = k modulo 2^32. -/
def State.endsSuccessfully (s : State) (k : Nat) : Prop :=
  s.quiescent = true ∧ s.qcount = 0 ∧ s.err = false ∧ s.dropped = false ∧ s.cseq = BitVec.ofNat 32 k

/-- The first `nb` bytes of V[r] have been written (R42, R242). -/
def State.defined (s : State) (r : VReg) (nb : Nat) : Prop := ∀ j < nb, s.regByte r j ≠ .unwritten

/-! ## What a command leaves -/

/-- `u` is `s` after the retirement of the command at the head of its queue, as far as everything but the registers'
bytes, the scratchpad, SIGVAL and DONE goes: the word left the queue, CSEQ counted it, and nothing else changed (R25,
R140). -/
structure State.RetiredFrom (s u : State) : Prop where
  cfg : u.cfg = s.cfg
  queue : u.queue = s.queue.tail
  cseq : u.cseq = s.cseq + 1
  cmdLo : u.cmdLo = s.cmdLo
  en : u.en = s.en
  ieDone : u.ieDone = s.ieDone
  ieErr : u.ieErr = s.ieErr
  err : u.err = s.err
  dropped : u.dropped = s.dropped
  cause : u.cause = s.cause
  faultIdx : u.faultIdx = s.faultIdx
  faultInfo : u.faultInfo = s.faultInfo
  faultCmd : u.faultCmd = s.faultCmd
  agenda : u.agenda = s.agenda
  response : u.response = s.response

/-- Register `r` of `u` holds `n` lanes of `es` bytes, lane i being `f i` whichever operand reads it, and zeros after
them; every byte of it is written (R22, R23). -/
structure State.HoldsLanes (u : State) (r : VReg) {es : Nat} (n : Nat) (f : Nat → BitVec (8 * es)) : Prop where
  lanes : ∀ i < n, ∀ k, u.lane k r es i = f i
  tail : ∀ j, n * es ≤ j → j < u.cfg.vlenb → u.regByte r j = .written 0
  defined : u.defined r u.cfg.vlenb

/-- The scratchpad, SIGVAL, DONE and every register outside `dest` are as they were: the frame of a command that
writes only the registers `dest`. -/
structure State.WritesOnly (s u : State) (dest : List VReg) : Prop where
  retired : s.RetiredFrom u
  regs : ∀ r, r ∉ dest → u.reg r = s.reg r
  spm : ∀ a, Memory.read u.spm a = Memory.read s.spm a
  sigVal : u.sigVal = s.sigVal
  done : u.done = s.done

/-- `u` is what a command leaves that wrote `n` lanes to `vd`, lane i being `f i`, and nothing else. -/
structure State.WroteLanes (s u : State) (vd : VReg) {es : Nat} (n : Nat) (f : Nat → BitVec (8 * es)) : Prop where
  only : s.WritesOnly u [vd]
  holds : u.HoldsLanes vd n f

/-- The state after a fault on the word `w` (R213): the report registers, the flushed queue and ERR; everything else
is `s`. -/
def State.afterFault (s : State) (c : Cause) (info : Word) (w : CmdWord) : State :=
  { s with cause := c, faultIdx := s.cseq, faultInfo := info, faultCmd := w, queue := [], err := true }

/-- `s` with the event `e` next in the total order (R59). -/
def State.awaiting (s : State) (e : Event) : State := { s with agenda := e :: s.agenda }

/-- A 32-bit host write of `v` at offset `off` of the window of `s` (R29, R30). -/
def State.hostWrite (s : State) (off : Nat) (v : Word) : Event := .host (.write 4 (s.cfg.mmioBase + off) v)

/-- A 32-bit host read at offset `off` of the window of `s` (R29, R30). -/
def State.hostRead (s : State) (off : Nat) : Event := .host (.read 4 (s.cfg.mmioBase + off))

end Sys2Proof.Machine

namespace Sys2Proof

/-! ## Tables of the spec -/

/-- A row of spec/opcode_table.json: `mask` has a 1 at exactly the opcode bits and the bits that must be as in `value`
(R217). -/
structure OpcodeRow where
  op : Opcode
  mask : CmdWord
  value : CmdWord
  deriving DecidableEq, Repr

/-- The rows of spec/opcode_table.json, as the file has them. -/
def opcodeRows : List OpcodeRow :=
  [
   ⟨.nop, 0xFFFFFFFFFFFFFFFF, 0x0000000000000000⟩,
   ⟨.signal, 0x00000000FFFFFFFF, 0x0000000000000001⟩,
   ⟨.vzero, 0xFFFFFFFFFFFFE0FF, 0x0000000000000002⟩,
   ⟨.vsplat, 0xFFFF0000007C00FF, 0x0000000000000003⟩,
   ⟨.vld, 0x00000000007FE0FF, 0x0000000000000004⟩,
   ⟨.vldBe, 0x00000000007FE0FF, 0x0000000000000005⟩,
   ⟨.vst, 0x00000000007C1FFF, 0x0000000000000006⟩,
   ⟨.vstBe, 0x00000000007C1FFF, 0x0000000000000007⟩,
   ⟨.cvtF32E4m3, 0xFFFFFFFF0FFC00FF, 0x000000000A000010⟩,
   ⟨.cvtF32E5m2, 0xFFFFFFFF0FFC00FF, 0x000000000A800011⟩] ++
  [
   ⟨.cvtF32Bf16, 0xFFFFFFFF0FFC00FF, 0x000000000B000012⟩,
   ⟨.cvtF64E4m3, 0xFFFFFFFF0FFC00FF, 0x000000000A000014⟩,
   ⟨.cvtF64E5m2, 0xFFFFFFFF0FFC00FF, 0x000000000A800015⟩,
   ⟨.cvtF64Bf16, 0xFFFFFFFF0FFC00FF, 0x000000000B000016⟩,
   ⟨.cvtE4m3F32, 0xFFFFFFFF0FFC00FF, 0x000000000C000018⟩,
   ⟨.cvtE5m2F32, 0xFFFFFFFF0FFC00FF, 0x000000000C000019⟩,
   ⟨.cvtBf16F32, 0xFFFFFFFF0FFC00FF, 0x000000000C00001A⟩,
   ⟨.cvtE4m3F64, 0xFFFFFFFF0FFC00FF, 0x000000000C80001C⟩,
   ⟨.cvtE5m2F64, 0xFFFFFFFF0FFC00FF, 0x000000000C80001D⟩,
   ⟨.cvtBf16F64, 0xFFFFFFFF0FFC00FF, 0x000000000C80001E⟩] ++
  [
   ⟨.redadd, 0xFFFFFFF0007C00FF, 0x0000000000000020⟩,
   ⟨.redmul, 0xFFFFFFF0007C00FF, 0x0000000000000021⟩,
   ⟨.redmin, 0xFFFFFFF0007C00FF, 0x0000000000000022⟩,
   ⟨.redmax, 0xFFFFFFF0007C00FF, 0x0000000000000023⟩,
   ⟨.redand, 0xFFFFFFF0007C00FF, 0x0000000000000024⟩,
   ⟨.redor, 0xFFFFFFF0007C00FF, 0x0000000000000025⟩,
   ⟨.redpopc, 0xFFFFFFF0007C00FF, 0x0000000000000026⟩,
   ⟨.slice, 0xFFF00000007C00FF, 0x0000000000000030⟩,
   ⟨.insert, 0xFFF00000000000FF, 0x0000000000000031⟩,
   ⟨.join, 0xFFFFFFFF000000FF, 0x0000000000000032⟩] ++
  [
   ⟨.split, 0xFFFFFFE0007C00FF, 0x0000000000000033⟩,
   ⟨.ilv, 0xFFFFFFFF000000FF, 0x0000000000000034⟩,
   ⟨.dilv, 0xFFFFFFE0007C00FF, 0x0000000000000035⟩,
   ⟨.shuf1, 0xFFFFFFF0000000FF, 0x0000000000000036⟩,
   ⟨.shuf2, 0xFFFFE0F0000000FF, 0x0000000000000037⟩,
   ⟨.rotl, 0xFFFF0000007C00FF, 0x0000000000000038⟩,
   ⟨.rotr, 0xFFFF0000007C00FF, 0x0000000000000039⟩,
   ⟨.shll, 0xFFFF0000007C00FF, 0x000000000000003A⟩,
   ⟨.shrl, 0xFFFF0000007C00FF, 0x000000000000003B⟩,
   ⟨.rev, 0xFFFFFFFF007C00FF, 0x000000000000003C⟩]

/-- The ET field of a command word, bits 27:23 (R71). -/
def etBits : CmdWord := 0x000000000F800000

/-- The CVT rows, whose ET bits are part of the match (R217). -/
def Opcode.isCvt (op : Opcode) : Bool := 0x10 ≤ op.code.toNat && op.code.toNat < 0x20

/-- SPLIT and DILV, which name two destinations (R76). -/
def Opcode.isPair (op : Opcode) : Bool := op == .split || op == .dilv

/-- NOP, SIGNAL and VZERO, whose ET field is unused (R77, R78). -/
def Opcode.untyped (op : Opcode) : Bool := op == .nop || op == .signal || op == .vzero

/-- The ET codes R78 admits, as its table and that of R77 list them, for an opcode that uses ET. -/
def Opcode.admittedCodes : Opcode → List Nat
  | .redadd | .redmul | .redmin | .redmax => [0, 1, 2, 3, 4, 5, 8, 9, 10, 11, 12, 13, 24, 25]
  | .redand | .redor | .redpopc => [0, 1, 2, 3, 4, 5, 8, 9, 10, 11, 12, 13, 16]
  | .cvtF32E4m3 | .cvtF64E4m3 => [20]
  | .cvtF32E5m2 | .cvtF64E5m2 => [21]
  | .cvtF32Bf16 | .cvtF64Bf16 => [22]
  | .cvtE4m3F32 | .cvtE5m2F32 | .cvtBf16F32 => [24]
  | .cvtE4m3F64 | .cvtE5m2F64 | .cvtBf16F64 => [25]
  | .nop | .signal | .vzero => [0]
  | .vsplat | .vld | .vldBe | .vst | .vstBe | .slice | .insert | .join | .split | .ilv | .dilv | .shuf1 | .shuf2
  | .rotl | .rotr | .shll | .shrl | .rev =>
    [0, 1, 2, 3, 4, 5, 8, 9, 10, 11, 12, 13, 16, 20, 21, 22, 23, 24, 25]

/-- The OPC values R86 lists as unassigned. -/
def unassignedOpc (n : Nat) : Prop :=
  (0x08 ≤ n ∧ n ≤ 0x0F) ∨ n = 0x13 ∨ n = 0x17 ∨ n = 0x1B ∨ n = 0x1F ∨ (0x27 ≤ n ∧ n ≤ 0x2F) ∨ (0x3D ≤ n ∧ n ≤ 0xFF)

end Sys2Proof

namespace Sys2Proof.Machine

/-- WIDTH, by the table of R218. -/
def widthFaults (c : Config) : Instr → Prop
  | .nop | .signal _ | .vzero _ => False
  | .vsplat _ _ t n _ | .vld _ t n _ | .vldBe _ t n _ | .vst _ t n _ | .vstBe _ t n _ => c.vlenb < count n * t.esize
  | .slice _ _ t n _ _ | .insert _ _ _ t n _ _ => c.vlenb < count n * t.esize
  | .rotl _ _ t n _ | .rotr _ _ t n _ | .shll _ _ t n _ | .shrl _ _ t n _ => c.vlenb < count n * t.esize
  | .rev _ _ t n => c.vlenb < count n * t.esize
  | .cvtF32E4m3 _ _ n | .cvtF32E5m2 _ _ n | .cvtF32Bf16 _ _ n => c.vlenb < count n * 4
  | .cvtE4m3F32 _ _ n | .cvtE5m2F32 _ _ n | .cvtBf16F32 _ _ n => c.vlenb < count n * 4
  | .cvtF64E4m3 _ _ n | .cvtF64E5m2 _ _ n | .cvtF64Bf16 _ _ n => c.vlenb < count n * 8
  | .cvtE4m3F64 _ _ n | .cvtE5m2F64 _ _ n | .cvtBf16F64 _ _ n => c.vlenb < count n * 8
  | .redadd _ _ t n o | .redmul _ _ t n o | .redmin _ _ t n o | .redmax _ _ t n o =>
    c.vlenb < count n * t.esize ∨ n.val < o.val
  | .redand _ _ t n o | .redor _ _ t n o | .redpopc _ _ t n o => c.vlenb < count n * t.esize ∨ n.val < o.val
  | .join _ _ _ t n | .ilv _ _ _ t n => 14 < n.val ∨ c.vlenb < 2 * count n * t.esize
  | .split _ _ _ t n | .dilv _ _ _ t n => c.vlenb < count n * t.esize ∨ count n < 2
  | .shuf1 _ _ _ t n m | .shuf2 _ _ _ _ t n m =>
    c.vlenb < count n * t.esize ∨ c.vlenb < count m * t.esize ∨ c.vlenb < 2 * count m

/-- RANGE for an immediate, by the table of R219. -/
def rangeFaults : Instr → Prop
  | .vsplat _ _ _ n lane => count n ≤ lane.toNat
  | .slice _ _ _ n off w | .insert _ _ _ _ n off w => count n < off.toNat + count w
  | .rotl _ _ _ n sh => ¬(-(count n : Int) ≤ sh.toInt ∧ sh.toInt < count n) ∨ (count n = 1 ∧ sh.toInt ≠ 0)
  | .rotr _ _ _ n sh => ¬(-(count n : Int) < sh.toInt ∧ sh.toInt ≤ count n) ∨ (count n = 1 ∧ sh.toInt ≠ 0)
  | .shll _ _ _ n sh | .shrl _ _ _ n sh => count n < sh.toNat
  | .nop | .signal _ | .vzero _ | .vld _ _ _ _ | .vldBe _ _ _ _ | .vst _ _ _ _ | .vstBe _ _ _ _ => False
  | .cvtF32E4m3 _ _ _ | .cvtF32E5m2 _ _ _ | .cvtF32Bf16 _ _ _ => False
  | .cvtE4m3F32 _ _ _ | .cvtE5m2F32 _ _ _ | .cvtBf16F32 _ _ _ => False
  | .cvtF64E4m3 _ _ _ | .cvtF64E5m2 _ _ _ | .cvtF64Bf16 _ _ _ => False
  | .cvtE4m3F64 _ _ _ | .cvtE5m2F64 _ _ _ | .cvtBf16F64 _ _ _ => False
  | .redadd _ _ _ _ _ | .redmul _ _ _ _ _ | .redmin _ _ _ _ _ | .redmax _ _ _ _ _ => False
  | .redand _ _ _ _ _ | .redor _ _ _ _ _ | .redpopc _ _ _ _ _ => False
  | .join _ _ _ _ _ | .ilv _ _ _ _ _ | .split _ _ _ _ _ | .dilv _ _ _ _ _ => False
  | .shuf1 _ _ _ _ _ _ | .shuf2 _ _ _ _ _ _ _ | .rev _ _ _ _ => False

/-- The element type, lane count and address of a scratchpad access (R146 to R149). -/
def scratchpadAccess : Instr → Option (EType × LogCount × Word)
  | .vld _ t n a | .vldBe _ t n a | .vst _ t n a | .vstBe _ t n a => some (t, n, a)
  | _ => none

/-- The mask of a shuffle: the lane counts N and M, the mask register and which operand of the command it is, for SHUF1
its second and for SHUF2 its third (R166, R167). -/
def shuffleMask : Instr → Option (LogCount × LogCount × VReg × Nat)
  | .shuf1 _ _ vm _ n m => some (n, m, vm, 1)
  | .shuf2 _ _ _ vm _ n m => some (n, m, vm, 2)
  | _ => none

/-- The outcome is the fault `c` with detail `info` on the word at the head of the queue (R213), whatever free values
the command drew before it faulted. -/
def State.Faults (s : State) (o : Host.Outcome State Fault Refusal) (c : Cause) (info : Word) (w : CmdWord) : Prop :=
  ∃ d, o = .next { s.afterFault c info w with draws := d }

/-! ## The real value of a pattern (R11) -/

/-- e4m3 as a format of R11: E = 4, M = 3, bias 7 (R100). Its patterns with all ones in the exponent are no infinities. -/
def fmtE4m3 : FloatFmt := ⟨4, 3⟩

/-- e5m2 as a format of R11: E = 5, M = 2, bias 15 (R102). -/
def fmtE5m2 : FloatFmt := ⟨5, 2⟩

/-- bf16 as a format of R11: E = 8, M = 7, bias 127 (R101). -/
def fmtBf16 : FloatFmt := ⟨8, 7⟩

/-- The format of an 8-bit encoding (R100, R102). -/
def Fmt8.fmt : Fmt8 → FloatFmt
  | .e4m3 => fmtE4m3
  | .e5m2 => fmtE5m2

/-- `value(x)` of R11 for a pattern that is not read as a NaN or an infinity: `(-1)^s * 2^(e - bias) * (1 + m/2^M)`,
and `(-1)^s * 2^(1 - bias) * (m/2^M)` when the exponent field is 0. -/
def FloatFmt.realValue (f : FloatFmt) {w : Nat} (x : BitVec w) : ℚ :=
  let e : Nat := x.toNat / 2 ^ f.M % 2 ^ f.E
  let m : Nat := x.toNat % 2 ^ f.M
  let sign : ℚ := if x.getLsbD (f.E + f.M) then -1 else 1
  if e = 0 then sign * (2 : ℚ) ^ (1 - f.bias) * ((m : ℚ) / 2 ^ f.M)
  else sign * (2 : ℚ) ^ ((e : Int) - f.bias) * (1 + (m : ℚ) / 2 ^ f.M)

/-- A pattern of a format of R11 with infinities that is neither a NaN nor an infinity: its exponent field is not all
ones. -/
def FloatFmt.isFinite (f : FloatFmt) {w : Nat} (x : BitVec w) : Bool :=
  x.toNat / 2 ^ f.M % 2 ^ f.E != 2 ^ f.E - 1

/-- A NaN pattern of a format of R11: the exponent all ones and the mantissa not zero. -/
def FloatFmt.isNaNPattern (f : FloatFmt) {w : Nat} (x : BitVec w) : Bool :=
  !f.isFinite x && x.toNat % 2 ^ f.M != 0

/-- The sign bit of a pattern (R11). -/
def FloatFmt.sign (f : FloatFmt) {w : Nat} (x : BitVec w) : Bool := x.getLsbD (f.E + f.M)

/-- The infinity of a sign: the exponent all ones, the mantissa zero (R11). -/
def FloatFmt.infinity (f : FloatFmt) (w : Nat) (neg : Bool) : BitVec w :=
  BitVec.ofNat w ((if neg then 2 ^ (f.E + f.M) else 0) + (2 ^ f.E - 1) * 2 ^ f.M)

/-- The zero of a sign (R11). -/
def FloatFmt.zero (f : FloatFmt) (w : Nat) (neg : Bool) : BitVec w :=
  BitVec.ofNat w (if neg then 2 ^ (f.E + f.M) else 0)

/-- The midpoint above the largest finite value, from which R12 rounds to an infinity (log 8): `2^emax * (2 - 2^-(M+1))`
with emax = bias, which for f32 is the 2^127 * (2 - 2^-24) of R123. -/
def FloatFmt.overflowBound (f : FloatFmt) : ℚ := (2 : ℚ) ^ f.bias * (2 - (2 : ℚ) ^ (-(f.M + 1 : ℕ) : ℤ))

/-- `x` is `RNE_f(v)` (R12), `neg` being the sign a zero result keeps: the sign is `neg`; at or above the midpoint over
the largest finite value the result is the infinity; otherwise it is finite, no finite pattern is nearer to `v`, and if
one of another value is as near then the low bit of `x` is 0. -/
def FloatFmt.RoundsTo (f : FloatFmt) {w : Nat} (x : BitVec w) (neg : Bool) (v : ℚ) : Prop :=
  f.sign x = neg ∧
  if f.overflowBound ≤ |v| then x = f.infinity w neg
  else f.isFinite x = true ∧ ∀ z : BitVec w, f.isFinite z = true →
    |v - f.realValue x| ≤ |v - f.realValue z| ∧
    (|v - f.realValue x| = |v - f.realValue z| → f.realValue z ≠ f.realValue x → x.getLsbD 0 = false)

/-- R193 of an addition `op` whose canonical NaN is `nan`. -/
structure FloatFmt.AddRules (f : FloatFmt) {w : Nat} (nan : BitVec w) (op : BitVec w → BitVec w → BitVec w) : Prop where
  ofNaN : ∀ a b, f.isNaNPattern a = true ∨ f.isNaNPattern b = true → op a b = nan
  oppositeInfinities : ∀ n, op (f.infinity w n) (f.infinity w !n) = nan
  sameInfinities : ∀ n, op (f.infinity w n) (f.infinity w n) = f.infinity w n
  infinity : ∀ n a, f.isFinite a = true →
    op (f.infinity w n) a = f.infinity w n ∧ op a (f.infinity w n) = f.infinity w n
  zeroSum : ∀ a b, f.isFinite a = true → f.isFinite b = true → f.realValue a + f.realValue b = 0 →
    op a b = f.zero w (decide (a = f.zero w true ∧ b = f.zero w true))
  sum : ∀ a b, f.isFinite a = true → f.isFinite b = true → f.realValue a + f.realValue b ≠ 0 →
    f.RoundsTo (op a b) (decide (f.realValue a + f.realValue b < 0)) (f.realValue a + f.realValue b)

/-- R194 of a multiplication `op` whose canonical NaN is `nan`. -/
structure FloatFmt.MulRules (f : FloatFmt) {w : Nat} (nan : BitVec w) (op : BitVec w → BitVec w → BitVec w) : Prop where
  ofNaN : ∀ a b, f.isNaNPattern a = true ∨ f.isNaNPattern b = true → op a b = nan
  infinityZero : ∀ n m, op (f.infinity w n) (f.zero w m) = nan ∧ op (f.zero w m) (f.infinity w n) = nan
  infinities : ∀ n m, op (f.infinity w n) (f.infinity w m) = f.infinity w (n != m)
  infinity : ∀ n a, f.isFinite a = true → f.realValue a ≠ 0 →
    op (f.infinity w n) a = f.infinity w (n != f.sign a) ∧ op a (f.infinity w n) = f.infinity w (n != f.sign a)
  product : ∀ a b, f.isFinite a = true → f.isFinite b = true →
    f.RoundsTo (op a b) (f.sign a != f.sign b) (f.realValue a * f.realValue b)

/-- The order of R195 on patterns that are no NaNs: -inf < negative values < -0 < +0 < positive values < +inf. -/
def FloatFmt.AtMost (f : FloatFmt) {w : Nat} (a b : BitVec w) : Prop :=
  a = b ∨ a = f.infinity w true ∨ b = f.infinity w false ∨
  (f.isFinite a = true ∧ f.isFinite b = true ∧
    (f.realValue a < f.realValue b ∨ (f.realValue a = f.realValue b ∧ f.sign a = true ∧ f.sign b = false)))

/-- R195 of a minimum `lo` and a maximum `hi` whose canonical NaN is `nan`. -/
structure FloatFmt.MinMaxRules (f : FloatFmt) {w : Nat} (nan : BitVec w) (lo hi : BitVec w → BitVec w → BitVec w) :
    Prop where
  ofNaN : ∀ a b, f.isNaNPattern a = true ∨ f.isNaNPattern b = true → lo a b = nan ∧ hi a b = nan
  least : ∀ a b, f.isNaNPattern a = false → f.isNaNPattern b = false →
    (lo a b = a ∧ f.AtMost a b) ∨ (lo a b = b ∧ f.AtMost b a)
  greatest : ∀ a b, f.isNaNPattern a = false → f.isNaNPattern b = false →
    (hi a b = a ∧ f.AtMost b a) ∨ (hi a b = b ∧ f.AtMost a b)

/-- The finite patterns of the 8-bit formats: all but the NaNs of e4m3 (R100), all but NaNs and infinities of e5m2
(R102). -/
def Fmt8.isFinite : Fmt8 → BitVec 8 → Bool
  | .e4m3, b => b.toNat % 128 != 127
  | .e5m2, b => b.toNat / 4 % 32 != 31

end Sys2Proof.Machine
end

