-- ==== Sys2Proof/Certificates/Slice0/Obligations.lean ====
section
/-!
DEFINITION. The statements for the provers. Each docstring names the rules of spec/ it rests on. `s.awaiting e` is `s`
with the event `e` next in the total order of R59, so a statement about `step (s.awaiting e)` for all `s` is one about
every state whose next event is `e`. The fields `agenda`, `response` and `draws` are the model's own (log 5, 7, 3).
-/
open Sys2Proof Sys2Proof.Machine

/-! ## Encoding -/

/-- R88, R87: the formula of the encoding, its worked examples read by the decoder and written by the encoder, and the
all-zero word. -/
def Obligations.EncodingFormulaAndSpecWords : Prop :=
  (∀ f : Fields, f.pack =
    f.opc.setWidth 64 ||| (f.vd.setWidth 64 <<< 8) ||| (f.vs1.setWidth 64 <<< 13) ||| (f.vs2.setWidth 64 <<< 18) |||
      (f.et.setWidth 64 <<< 23) ||| (f.logn.setWidth 64 <<< 28) ||| (f.imm.setWidth 64 <<< 32)) ∧
  (∀ p ∈ ([(Instr.cvtE4m3F32 2 1 3, 0x000000003C002218), (.vld 1 .f32 3 0x100, 0x000001003C000104),
      (.shuf2 5 1 2 3 .u16 2 2, 0x0000030220882537), (.rotl 4 3 .i32 2 0xFFFF, 0x0000FFFF25006438),
      (.nop, 0x0000000000000000)] : List (Instr × CmdWord)),
    encode p.1 = p.2 ∧ decode p.2 = .ok p.1)

/-- Every well-formed command is read back from its word, with every operand at every value. -/
def Obligations.DecodeEncodeRoundTrip : Prop := ∀ i : Instr, i.wf = true → decode (encode i) = .ok i

/-- Every word the decoder reads is well formed and is the one word of its command: no bit of it is dropped. -/
def Obligations.EncodeDecodeRoundTrip : Prop :=
  ∀ (w : CmdWord) (i : Instr), decode w = .ok i → i.wf = true ∧ encode i = w

/-- R217: the mask and match of every row of the opcode table. Off the ET bits of a CVT row, a differing bit is
ILLEGAL_FIELD; a differing ET field alone, in a CVT row, is ILLEGAL_TYPE; the mask does not hold the VD = VD2 test; a
word that matches is otherwise a command or has a type that is not admitted. -/
def Obligations.OpcodeTableMasks : Prop :=
  opcodeRows.map (·.op) = Opcode.all ∧
  ∀ r ∈ opcodeRows, ∀ w : CmdWord, (Fields.unpack w).opc = r.op.code →
    let typeBits : CmdWord := if r.op.isCvt then etBits else 0
    let differing := (w ^^^ r.value) &&& r.mask
    (differing &&& ~~~typeBits ≠ 0 → decode w = .error .illegalField) ∧
    (differing &&& ~~~typeBits = 0 → differing ≠ 0 → decode w = .error .illegalType) ∧
    (differing = 0 → r.op.isPair = true → (Fields.unpack w).vd = (Fields.unpack w).vd2 →
      decode w = .error .illegalField) ∧
    (differing = 0 → (r.op.isPair = true → (Fields.unpack w).vd ≠ (Fields.unpack w).vd2) →
      (∃ i, decode w = .ok i) ∨ (r.op.isCvt = false ∧ r.op.untyped = false ∧ decode w = .error .illegalType))

/-- R78: for a word whose unused fields are zero, the element types each opcode admits, any other code being an
ILLEGAL_TYPE fault of the turn that executes the word; NOP, SIGNAL and VZERO have none and take ET = 0 only. -/
def Obligations.AdmittedElementTypes : Prop :=
  ∀ (w : CmdWord) (op : Opcode), (Fields.unpack w).opc = op.code →
    let et := (Fields.unpack w).et
    (op.untyped = true → et ≠ 0 → decode w = .error .illegalField) ∧
    (op.untyped = false → decode w ≠ .error .illegalField →
      (decode w = .error .illegalType ↔ et.toNat ∉ op.admittedCodes) ∧
      (et.toNat ∉ op.admittedCodes → ∀ (s : State) (q : List CmdWord), s.en = true → s.err = false →
        s.queue = w :: q → step (s.awaiting .block) = .next (s.afterFault .illegalType 0 w)))

/-- R86: the unassigned OPC values; a reserved ET code in a used and in an unused ET field; no word but NOP's own is
NOP; and a word the decoder rejects faults with that cause when its turn comes. -/
def Obligations.IllegalEncodings : Prop :=
  ∀ w : CmdWord,
    let f := Fields.unpack w
    let reserved := f.et.toNat ∈ [6, 7, 14, 15, 17, 18, 19, 26, 27, 28, 29, 30, 31]
    (unassignedOpc f.opc.toNat ↔ decode w = .error .illegalOpcode) ∧
    (∀ op : Opcode, f.opc = op.code → reserved →
      (op.untyped = true → decode w = .error .illegalField) ∧
      (op.untyped = false → decode w ≠ .error .illegalField → decode w = .error .illegalType)) ∧
    (decode w = .ok .nop ↔ w = 0) ∧
    (f.opc = 0 → w ≠ 0 → decode w = .error .illegalField) ∧
    ∀ (c : Cause) (s : State) (q : List CmdWord), decode w = .error c → s.en = true → s.err = false →
      s.queue = w :: q → step (s.awaiting .block) = .next (s.afterFault c 0 w)

/-! ## The machine -/

/-- A step runs the decoded command: when the block may execute (R140) and the word at the head of its queue decodes to
`i`, a step at the block's turn is exec of `i` (R140). The last clause is the model's choice (log 5, DESIGN CHOICE): with
no event left in `agenda` the next step is the block's turn. -/
def Obligations.StepRunsDecodedCommand : Prop :=
  ∀ (s : State) (w : CmdWord) (q : List CmdWord) (i : Instr),
    s.en = true → s.err = false → s.queue = w :: q → decode w = .ok i →
    step (s.awaiting .block) = exec i s ∧ (s.agenda = [] → step s = exec i s)

/-- R140: no execution step is possible while EN = 0, ERR = 1 or the queue is empty, and then the block's turn changes
nothing; otherwise the turn either retires the command at the head or takes a fault on it, and it retires only a word
that decodes. -/
def Obligations.BlockTurnRetiresOrFaults : Prop :=
  ∀ s : State,
    (s.en = false ∨ s.err = true ∨ s.queue = [] → step (s.awaiting .block) = .next s) ∧
    ∀ (w : CmdWord) (q : List CmdWord), s.en = true → s.err = false → s.queue = w :: q →
      (∃ u i, step (s.awaiting .block) = .next u ∧ decode w = .ok i ∧ exec i s = .next u ∧ s.RetiredFrom u) ∨
      ∃ c info, c ≠ .none ∧ s.Faults (step (s.awaiting .block)) c info w

/-- R213: a turn of the block that sets ERR leaves the report registers, the empty queue and ERR = 1, and everything
else as it was; and while ERR = 1 no command executes and every push is dropped. -/
def Obligations.FaultEntry : Prop :=
  (∀ (s u : State) (w : CmdWord) (q : List CmdWord), s.en = true → s.err = false → s.queue = w :: q →
    step (s.awaiting .block) = .next u → u.err = true →
    ∃ c info, c ≠ .none ∧ u = { s.afterFault c info w with draws := u.draws }) ∧
  ∀ s : State, s.err = true →
    step (s.awaiting .block) = .next s ∧
    ∀ h : Word, step (s.awaiting (s.hostWrite 0x034 h)) = .next { s with dropped := true, response := .done }

/-- R216: the eight checks of an execution step, in their order, each with the fault it reports; a command that passes
them retires. -/
def Obligations.ChecksInOrder : Prop :=
  ∀ (s : State) (w : CmdWord) (q : List CmdWord), s.en = true → s.err = false → s.queue = w :: q →
    let turn := step (s.awaiting .block)
    let f := Fields.unpack w
    ((∀ op : Opcode, f.opc ≠ op.code) → s.Faults turn .illegalOpcode 0 w) ∧
    ∀ op : Opcode, f.opc = op.code →
      (f.unusedNonzero op.uses = true ∨ (op.isPair = true ∧ f.vd = f.vd2) → s.Faults turn .illegalField 0 w) ∧
      (f.unusedNonzero op.uses = false → (op.isPair = true → f.vd ≠ f.vd2) →
        (op.untyped = false → f.et.toNat ∉ op.admittedCodes → s.Faults turn .illegalType 0 w) ∧
        (f.et.toNat ∈ op.admittedCodes → ∃ i, decode w = .ok i ∧
          (widthFaults s.cfg i → s.Faults turn .width 0 w) ∧
          (¬widthFaults s.cfg i → rangeFaults i → s.Faults turn .range 0 w) ∧
          (¬widthFaults s.cfg i → ¬rangeFaults i →
            match scratchpadAccess i, shuffleMask i with
            | some (t, n, a), _ =>
              (a.toNat % t.esize ≠ 0 → s.Faults turn .misalign a w) ∧
              (a.toNat % t.esize = 0 → s.cfg.spmBytes < a.toNat + count n * t.esize → s.Faults turn .addr a w) ∧
              (a.toNat % t.esize = 0 → a.toNat + count n * t.esize ≤ s.cfg.spmBytes →
                ∃ u, turn = .next u ∧ s.RetiredFrom u)
            | none, some (n, m, vm, k) =>
              (∀ j < count m, 2 * count n ≤ (s.lane k vm 2 j).toNat →
                (∀ j' < j, (s.lane k vm 2 j').toNat < 2 * count n) →
                s.Faults turn .range (0x80000000 ||| BitVec.ofNat 32 j) w) ∧
              ((∀ j < count m, (s.lane k vm 2 j).toNat < 2 * count n) → ∃ u, turn = .next u ∧ s.RetiredFrom u)
            | none, none => ∃ u, turn = .next u ∧ s.RetiredFrom u)))

/-- R218: the width table, exactly: a well-formed command faults with WIDTH(0) when and only when its row says so. -/
def Obligations.WidthChecks : Prop :=
  ∀ (i : Instr) (s : State), i.wf = true →
    (widthFaults s.cfg i ↔ exec i s = .next (s.afterFault .width 0 s.headWord))

/-- R219: the immediate ranges, exactly: a well-formed command that passes the width checks faults with RANGE(0) when
and only when its row says so. -/
def Obligations.ImmediateRangeChecks : Prop :=
  ∀ (i : Instr) (s : State), i.wf = true → ¬widthFaults s.cfg i →
    (rangeFaults i ↔ exec i s = .next (s.afterFault .range 0 s.headWord))

/-- Faults do not nest (R223): while ERR = 1, no event but the host's clearing of ERR or a reset changes ERR or the
report. -/
def Obligations.FaultsDoNotNest : Prop :=
  ∀ (s u : State) (e : Event), s.err = true → e ≠ .hardReset →
    (∀ v : Word, e = s.hostWrite 0x00C v → v.getLsbD 2 = false) →
    (∀ v : Word, e = s.hostWrite 0x008 v → v.getLsbD 31 = false) →
    step (s.awaiting e) = .next u →
    u.err = true ∧ u.cause = s.cause ∧ u.faultIdx = s.faultIdx ∧ u.faultInfo = s.faultInfo ∧ u.faultCmd = s.faultCmd

/-- Every step answers a next state, and the parameters of the block never change. That it does is the model's choice
(DESIGN CHOICE): log 3, an unwritten byte is read as a free value, where R42 and U2 also let a model stop; log 9, an idle
turn is a next state and the model has no stops; log 1, the parameters are a field of State. What the spec says is that
every state has a defined next state or one of the treatments of spec/93_implementation_defined.md. -/
def Obligations.EveryStepAnswers : Prop := ∀ s : State, ∃ u, step s = .next u ∧ u.cfg = s.cfg

/-- The invariant holds after reset, for every legal configuration of R6. -/
def Obligations.ResetHoldsInvariant : Prop :=
  (∀ c : Config, (State.resetWith c).Inv) ∧ State.reset = State.resetWith .reference

/-- Every step keeps the invariant: registers of VLENB bytes (R20), the scratchpad in canonical form below SPM_BYTES
(R50), a queue of at most CMDQ_DEPTH words (R26), CAUSE zero exactly while ERR = 0 (R35), an empty queue while ERR = 1
(R213). -/
def Obligations.StepKeepsInvariant : Prop := ∀ s u : State, s.Inv → step s = .next u → u.Inv

/-- R241, with the values of R42 that R240 gives: the hardware reset and a write to CTRL with SRST = 1, whatever the
write's other bits and the state before, leave every register and scratchpad byte unwritten, the queue empty, every
register of R42 zero, the interrupt line deasserted and the block idle; ID and CAP keep their constants. The model's
own fields stay, which is the model's choice (log 12, DESIGN CHOICE). -/
def Obligations.ResetsLeaveResetValues : Prop :=
  ∀ s : State, ∃ u, step (s.awaiting .hardReset) = .next u ∧
    (∀ r : VReg, u.reg r = List.replicate s.cfg.vlenb .unwritten) ∧ (∀ a, Memory.read u.spm a = .unwritten) ∧
    u.queue = [] ∧ u.cmdLo = 0 ∧ u.cseq = 0 ∧ u.ctrlWord = 0 ∧ u.statusWord = 0 ∧ u.causeWord = 0 ∧
    u.faultIdx = 0 ∧ u.faultInfo = 0 ∧ u.faultCmd = 0 ∧ u.sigVal = 0 ∧ u.irq = false ∧
    step (u.awaiting .block) = .next u ∧ u.readPort .id = s.readPort .id ∧ u.readPort .cap = s.readPort .cap ∧
    u.cfg = s.cfg ∧ u.agenda = s.agenda ∧ u.response = s.response ∧ u.draws = s.draws ∧
    ∀ v : Word, v.getLsbD 31 = true →
      step (s.awaiting (s.hostWrite 0x008 v)) = .next { u with response := .done }

/-- CSEQ counts the retired commands modulo 2^32 (R25): a turn of the block adds 1 when it retires a command and nothing
when it faults or is idle; a reset sets 0; no other event changes it, and the host reads it at 0x024. -/
def Obligations.CseqCountsRetirements : Prop :=
  ∀ (s u : State) (e : Event), step (s.awaiting e) = .next u →
    (e = .block → s.canExecute = true → u.err = false → u.cseq.toNat = (s.cseq.toNat + 1) % 2 ^ 32) ∧
    (e = .block → s.canExecute = true → u.err = true → u.cseq = s.cseq) ∧
    (e = .block → s.canExecute = false → u.cseq = s.cseq) ∧
    (e = .hardReset → u.cseq = 0) ∧
    (∀ v : Word, e = s.hostWrite 0x008 v → v.getLsbD 31 = true → u.cseq = 0) ∧
    (∀ a : HostAccess, e = .host a → (∀ v : Word, e = s.hostWrite 0x008 v → v.getLsbD 31 = false) → u.cseq = s.cseq) ∧
    (e = s.hostRead 0x024 → u.response = .data s.cseq)

/-- What no command touches, and what only SIGNAL, only the stores and only the queue's own bookkeeping touch: over all
commands that do not fault, CTRL, CMD_LO, DROPPED, ERR and the fault report keep their values, SIGVAL and DONE change by
SIGNAL alone (R142), the scratchpad by VST and VST.BE alone (R148, R149); and no command changes CTRL, CMD_LO, DROPPED,
DONE or the scratchpad when it faults (R213). -/
def Obligations.CommandsTouchOnly : Prop :=
  ∀ (i : Instr) (s u : State), exec i s = .next u →
    (u.cfg = s.cfg ∧ u.en = s.en ∧ u.ieDone = s.ieDone ∧ u.ieErr = s.ieErr ∧ u.cmdLo = s.cmdLo ∧
      u.dropped = s.dropped ∧ u.agenda = s.agenda ∧ u.response = s.response) ∧
    (s.err = false → u.err = false →
      u.cause = s.cause ∧ u.faultIdx = s.faultIdx ∧ u.faultInfo = s.faultInfo ∧ u.faultCmd = s.faultCmd) ∧
    (s.err = false → u.err = true → u.regs = s.regs) ∧
    ((∀ sig, i ≠ .signal sig) → u.done = s.done ∧ u.sigVal = s.sigVal) ∧
    ((∀ vs t n a, i ≠ .vst vs t n a ∧ i ≠ .vstBe vs t n a) → u.spm = s.spm)

/-- The host reaches no register of the register file (R20): an access that is no soft reset leaves every register as it
was, and the scratchpad too unless it is a write in the scratchpad window. -/
def Obligations.HostAccessesKeepRegisters : Prop :=
  ∀ (s u : State) (a : HostAccess),
    (∀ v : Word, Event.host a = s.hostWrite 0x008 v → v.getLsbD 31 = false) →
    step (s.awaiting (.host a)) = .next u →
    u.regs = s.regs ∧
    ((∀ (off : Nat) (v : Word), 0x10000 ≤ off → Event.host a ≠ s.hostWrite off v) → u.spm = s.spm)

/-- R159: the result of a PERM command is the same for every element type of the same lane size. -/
def Obligations.PermutationsIgnoreLaneType : Prop :=
  ∀ (s : State) (t t' : EType), t.esize = t'.esize → ∀ (vd vd2 vs vs2 vs3 : VReg) (n m : LogCount) (h : BitVec 16),
    exec (.slice vd vs t n h m) s = exec (.slice vd vs t' n h m) s ∧
    exec (.insert vd vs vs2 t n h m) s = exec (.insert vd vs vs2 t' n h m) s ∧
    exec (.join vd vs vs2 t n) s = exec (.join vd vs vs2 t' n) s ∧
    exec (.split vd vd2 vs t n) s = exec (.split vd vd2 vs t' n) s ∧
    exec (.ilv vd vs vs2 t n) s = exec (.ilv vd vs vs2 t' n) s ∧
    exec (.dilv vd vd2 vs t n) s = exec (.dilv vd vd2 vs t' n) s ∧
    exec (.shuf1 vd vs vs2 t n m) s = exec (.shuf1 vd vs vs2 t' n m) s ∧
    exec (.shuf2 vd vs vs2 vs3 t n m) s = exec (.shuf2 vd vs vs2 vs3 t' n m) s ∧
    exec (.rotl vd vs t n h) s = exec (.rotl vd vs t' n h) s ∧
    exec (.rotr vd vs t n h) s = exec (.rotr vd vs t' n h) s ∧
    exec (.shll vd vs t n h) s = exec (.shll vd vs t' n h) s ∧
    exec (.shrl vd vs t n h) s = exec (.shrl vd vs t' n h) s ∧
    exec (.rev vd vs t n) s = exec (.rev vd vs t' n) s

/-! ## CORE -/

/-- R141: NOP is the all-zero word and no other; it changes nothing but the queue and CSEQ. -/
def Obligations.NopOnlyCounts : Prop :=
  (∀ w : CmdWord, (Fields.unpack w).opc = 0x00 →
    decode w = if w.extractLsb' 8 56 = 0 then .ok .nop else .error .illegalField) ∧
  ∀ s : State, exec .nop s = .next { s with queue := s.queue.tail, cseq := s.cseq + 1 }

/-- SIGNAL (R142) and VZERO (R143): SIGVAL and DONE; a register of VLENB zero bytes. -/
def Obligations.SignalAndVzeroComplete : Prop :=
  ∀ s : State,
    (∀ sig : Word, exec (.signal sig) s =
      .next { s with sigVal := sig, done := true, queue := s.queue.tail, cseq := s.cseq + 1 }) ∧
    ∀ vd : VReg, ∃ u, exec (.vzero vd) s = .next u ∧ s.WritesOnly u [vd] ∧
      u.reg vd = List.replicate s.cfg.vlenb (.written 0)

/-- VSPLAT (R144): N copies of lane L and a zero tail. -/
def Obligations.VsplatCompletes : Prop :=
  ∀ (s : State) (vd vs : VReg) (t : EType) (n : LogCount) (lane : BitVec 16),
    count n * t.esize ≤ s.cfg.vlenb → lane.toNat < count n →
    ∃ u, exec (.vsplat vd vs t n lane) s = .next u ∧
      s.WroteLanes u vd (count n) fun _ => s.lane 0 vs t.esize lane.toNat

/-- VLD and VLD.BE (R146, R147, R53): byte k of lane i is the scratchpad byte at a + i*es + k, or for VLD.BE at
a + i*es + (es-1-k), an unwritten byte staying unwritten; the tail is zero; nothing else changes. -/
def Obligations.LoadsComplete : Prop :=
  ∀ (s : State) (vd : VReg) (t : EType) (n : LogCount) (a : Word),
    count n * t.esize ≤ s.cfg.vlenb → a.toNat % t.esize = 0 → a.toNat + count n * t.esize ≤ s.cfg.spmBytes →
    (∃ u, exec (.vld vd t n a) s = .next u ∧ s.WritesOnly u [vd] ∧
      (∀ i < count n, ∀ k < t.esize,
        u.regByte vd (i * t.esize + k) = Memory.read s.spm (a.toNat + i * t.esize + k)) ∧
      ∀ j, count n * t.esize ≤ j → j < s.cfg.vlenb → u.regByte vd j = .written 0) ∧
    (∃ u, exec (.vldBe vd t n a) s = .next u ∧ s.WritesOnly u [vd] ∧
      (∀ i < count n, ∀ k < t.esize,
        u.regByte vd (i * t.esize + k) = Memory.read s.spm (a.toNat + i * t.esize + (t.esize - 1 - k))) ∧
      ∀ j, count n * t.esize ≤ j → j < s.cfg.vlenb → u.regByte vd j = .written 0)

/-- VST and VST.BE (R148, R149, R53): the scratchpad byte at a + i*es + k is byte k of lane i, or for VST.BE byte
es-1-k, an unwritten byte making it unwritten; every other scratchpad byte, every register, SIGVAL and DONE are
unchanged. The premise is the scratchpad's part of the invariant, which every step keeps. -/
def Obligations.StoresComplete : Prop :=
  ∀ (s : State) (vs : VReg) (t : EType) (n : LogCount) (a : Word), s.spmSound →
    count n * t.esize ≤ s.cfg.vlenb → a.toNat % t.esize = 0 → a.toNat + count n * t.esize ≤ s.cfg.spmBytes →
    (∃ u, exec (.vst vs t n a) s = .next u ∧ s.RetiredFrom u ∧ u.regs = s.regs ∧ u.sigVal = s.sigVal ∧
      u.done = s.done ∧
      (∀ i < count n, ∀ k < t.esize,
        Memory.read u.spm (a.toNat + i * t.esize + k) = s.regByte vs (i * t.esize + k)) ∧
      ∀ x, x < a.toNat ∨ a.toNat + count n * t.esize ≤ x → Memory.read u.spm x = Memory.read s.spm x) ∧
    (∃ u, exec (.vstBe vs t n a) s = .next u ∧ s.RetiredFrom u ∧ u.regs = s.regs ∧ u.sigVal = s.sigVal ∧
      u.done = s.done ∧
      (∀ i < count n, ∀ k < t.esize,
        Memory.read u.spm (a.toNat + i * t.esize + k) = s.regByte vs (i * t.esize + (t.esize - 1 - k))) ∧
      ∀ x, x < a.toNat ∨ a.toNat + count n * t.esize ≤ x → Memory.read u.spm x = Memory.read s.spm x)

/-- A vector that is stored and loaded again in the same byte order is the vector, byte for byte; stored in one order
and loaded in the other it has the bytes of every lane reversed (R53, R146 to R149). -/
def Obligations.LoadAfterStore : Prop :=
  ∀ (s : State) (vd vs : VReg) (t : EType) (n : LogCount) (a : Word), s.spmSound →
    count n * t.esize ≤ s.cfg.vlenb → a.toNat % t.esize = 0 → a.toNat + count n * t.esize ≤ s.cfg.spmBytes →
    ∃ s1 s2 u1 u2 u3 u4,
      exec (.vst vs t n a) s = .next s1 ∧ exec (.vstBe vs t n a) s = .next s2 ∧
      exec (.vld vd t n a) s1 = .next u1 ∧ exec (.vldBe vd t n a) s2 = .next u2 ∧
      exec (.vldBe vd t n a) s1 = .next u3 ∧ exec (.vld vd t n a) s2 = .next u4 ∧
      ∀ i < count n, ∀ k < t.esize,
        u1.regByte vd (i * t.esize + k) = s.regByte vs (i * t.esize + k) ∧
        u2.regByte vd (i * t.esize + k) = s.regByte vs (i * t.esize + k) ∧
        u3.regByte vd (i * t.esize + k) = s.regByte vs (i * t.esize + (t.esize - 1 - k)) ∧
        u4.regByte vd (i * t.esize + k) = s.regByte vs (i * t.esize + (t.esize - 1 - k))

/-- R54: for a vector that fits, the alignment check and then the bounds check of the four memory commands, the sum
without wrap-around; a command that fails one has no effect but its fault. -/
def Obligations.AccessChecks : Prop :=
  ∀ (s : State) (r : VReg) (t : EType) (n : LogCount) (a : Word), count n * t.esize ≤ s.cfg.vlenb →
    ∀ i ∈ ([.vld r t n a, .vldBe r t n a, .vst r t n a, .vstBe r t n a] : List Instr),
      (a.toNat % t.esize ≠ 0 → exec i s = .next (s.afterFault .misalign a s.headWord)) ∧
      (a.toNat % t.esize = 0 → s.cfg.spmBytes < a.toNat + count n * t.esize →
        exec i s = .next (s.afterFault .addr a s.headWord)) ∧
      (a.toNat % t.esize = 0 → a.toNat + count n * t.esize ≤ s.cfg.spmBytes →
        ∃ u, exec i s = .next u ∧ s.RetiredFrom u)

/-! ## CVT -/

/-- The six conversions from a narrow format (R126 to R131, template R122): lane by lane, through f32 for an f64
result (R125). -/
def Obligations.NarrowDecodesComplete : Prop :=
  ∀ (s : State) (vd vs : VReg) (n : LogCount),
    (count n * 4 ≤ s.cfg.vlenb →
      (∃ u, exec (.cvtF32E4m3 vd vs n) s = .next u ∧
        s.WroteLanes (es := 4) u vd (count n) fun i => dec8 s.cfg .e4m3 (s.lane 0 vs 1 i)) ∧
      (∃ u, exec (.cvtF32E5m2 vd vs n) s = .next u ∧
        s.WroteLanes (es := 4) u vd (count n) fun i => dec8 s.cfg .e5m2 (s.lane 0 vs 1 i)) ∧
      (∃ u, exec (.cvtF32Bf16 vd vs n) s = .next u ∧
        s.WroteLanes (es := 4) u vd (count n) fun i => decBf16 s.cfg (s.lane 0 vs 2 i))) ∧
    (count n * 8 ≤ s.cfg.vlenb →
      (∃ u, exec (.cvtF64E4m3 vd vs n) s = .next u ∧
        s.WroteLanes (es := 8) u vd (count n) fun i => f32ToF64 s.cfg (dec8 s.cfg .e4m3 (s.lane 0 vs 1 i))) ∧
      (∃ u, exec (.cvtF64E5m2 vd vs n) s = .next u ∧
        s.WroteLanes (es := 8) u vd (count n) fun i => f32ToF64 s.cfg (dec8 s.cfg .e5m2 (s.lane 0 vs 1 i))) ∧
      (∃ u, exec (.cvtF64Bf16 vd vs n) s = .next u ∧
        s.WroteLanes (es := 8) u vd (count n) fun i => f32ToF64 s.cfg (decBf16 s.cfg (s.lane 0 vs 2 i))))

/-- The six conversions to a narrow format (R132 to R137, template R122): lane by lane, an f64 source being rounded to
f32 first (R125). -/
def Obligations.NarrowEncodesComplete : Prop :=
  ∀ (s : State) (vd vs : VReg) (n : LogCount),
    (count n * 4 ≤ s.cfg.vlenb →
      (∃ u, exec (.cvtE4m3F32 vd vs n) s = .next u ∧
        s.WroteLanes (es := 1) u vd (count n) fun i => enc8 s.cfg .e4m3 (s.lane 0 vs 4 i)) ∧
      (∃ u, exec (.cvtE5m2F32 vd vs n) s = .next u ∧
        s.WroteLanes (es := 1) u vd (count n) fun i => enc8 s.cfg .e5m2 (s.lane 0 vs 4 i)) ∧
      (∃ u, exec (.cvtBf16F32 vd vs n) s = .next u ∧
        s.WroteLanes (es := 2) u vd (count n) fun i => encBf16 s.cfg (s.lane 0 vs 4 i))) ∧
    (count n * 8 ≤ s.cfg.vlenb →
      (∃ u, exec (.cvtE4m3F64 vd vs n) s = .next u ∧
        s.WroteLanes (es := 1) u vd (count n) fun i => enc8 s.cfg .e4m3 (f64ToF32 s.cfg (s.lane 0 vs 8 i))) ∧
      (∃ u, exec (.cvtE5m2F64 vd vs n) s = .next u ∧
        s.WroteLanes (es := 1) u vd (count n) fun i => enc8 s.cfg .e5m2 (f64ToF32 s.cfg (s.lane 0 vs 8 i))) ∧
      (∃ u, exec (.cvtBf16F64 vd vs n) s = .next u ∧
        s.WroteLanes (es := 2) u vd (count n) fun i => encBf16 s.cfg (f64ToF32 s.cfg (s.lane 0 vs 8 i))))

/-- R111: the 8-bit decode is exact on every finite pattern and never gives an f32 subnormal; its NaNs, infinities and
negative zero. -/
def Obligations.NarrowDecodeIsExact : Prop :=
  ∀ (c : Config) (F : Fmt8) (b : BitVec 8),
    (F.isFinite b = true →
      fmtF32.isFinite (dec8 c F b) = true ∧ fmtF32.realValue (dec8 c F b) = F.fmt.realValue b ∧
      fmtF32.sign (dec8 c F b) = F.fmt.sign b) ∧
    ((dec8 c F b).toNat / 2 ^ 23 % 2 ^ 8 = 0 → (dec8 c F b).toNat % 2 ^ 23 = 0) ∧
    fmtF32.realValue (dec8 c .e4m3 0x01) = 1 / 2 ^ 9 ∧ fmtF32.realValue (dec8 c .e5m2 0x01) = 1 / 2 ^ 16 ∧
    (F.isFinite b = false → ¬(F = .e5m2 ∧ b.toNat % 4 = 0) → dec8 c F b = c.nanF32) ∧
    dec8 c .e5m2 0x7C = 0x7F800000 ∧ dec8 c .e5m2 0xFC = 0xFF800000 ∧ dec8 c F 0x80 = 0x80000000

/-- R114: on every f32 input that is no NaN, the 8-bit encode gives a finite pattern with the input's sign, none nearer
to its value, ties to the even mantissa, and the largest finite pattern for an infinity and for every magnitude from it
on; and every finite pattern decoded and encoded again is itself. -/
def Obligations.NarrowEncodeIsNearestEven : Prop :=
  ∀ (c : Config) (F : Fmt8),
    (∀ x : BitVec 32, fmtF32.isNaNPattern x = false →
      let y := enc8 c F x
      let largest := BitVec.ofNat 8 ((if fmtF32.sign x then 0x80 else 0) + F.maxFin)
      F.isFinite y = true ∧ F.fmt.sign y = fmtF32.sign x ∧
      (fmtF32.isFinite x = false → y = largest) ∧
      (fmtF32.isFinite x = true →
        (F.fmt.realValue (BitVec.ofNat 8 F.maxFin) ≤ |fmtF32.realValue x| → y = largest) ∧
        ∀ z : BitVec 8, F.isFinite z = true →
          |fmtF32.realValue x - F.fmt.realValue y| ≤ |fmtF32.realValue x - F.fmt.realValue z| ∧
          (|fmtF32.realValue x - F.fmt.realValue y| = |fmtF32.realValue x - F.fmt.realValue z| →
            F.fmt.realValue z ≠ F.fmt.realValue y → y.getLsbD 0 = false))) ∧
    ∀ b : BitVec 8, F.isFinite b = true → enc8 c F (dec8 c F b) = b

/-- The corner cases of the 8-bit encode on patterns (R115, R112): NaN, infinities, zeros, magnitudes up to half the
smallest subnormal (2^-10, 2^-17), from there to the smallest subnormal, and what e5m2 never writes. That the NaN of e5m2
is NAN_E5M2 with its own sign bit is the model's reading (log 13, DEDUCED): R115 says "with sign 0", R6 leaves it open. -/
def Obligations.NarrowEncodeCorners : Prop :=
  ∀ (c : Config) (F : Fmt8) (x : BitVec 32),
    let mag := x.toNat % 2 ^ 31
    let s8 := x.toNat / 2 ^ 31 * 128
    let half := match F with | .e4m3 => 0x3A800000 | .e5m2 => 0x37000000
    let least := match F with | .e4m3 => 0x3B000000 | .e5m2 => 0x37800000
    (0x7F800000 < mag → enc8 c F x = F.nan8 c) ∧
    (mag = 0x7F800000 → enc8 c F x = BitVec.ofNat 8 (s8 + F.maxFin)) ∧
    (mag ≤ half → enc8 c F x = BitVec.ofNat 8 s8) ∧
    (half < mag → mag ≤ least → enc8 c F x = BitVec.ofNat 8 (s8 + 1)) ∧
    (F = .e5m2 → mag ≤ 0x7F800000 → (enc8 c F x).toNat % 128 < 0x7C)

/-- R119: the bf16 decode is exact on every input that is no NaN: finite values, subnormals (to f32 subnormals),
infinities and zeros with their sign; a NaN of either sign gives NAN_F32. -/
def Obligations.Bf16DecodeIsExact : Prop :=
  ∀ (c : Config) (h : BitVec 16),
    (fmtBf16.isFinite h = true →
      fmtF32.isFinite (decBf16 c h) = true ∧ fmtF32.realValue (decBf16 c h) = fmtBf16.realValue h ∧
      fmtF32.sign (decBf16 c h) = fmtBf16.sign h) ∧
    (h.toNat / 2 ^ 7 % 2 ^ 8 = 0 → (decBf16 c h).toNat / 2 ^ 23 % 2 ^ 8 = 0) ∧ decBf16 c 0x0001 = 0x00010000 ∧
    (∀ neg, decBf16 c (fmtBf16.infinity 16 neg) = fmtF32.infinity 32 neg) ∧
    (∀ neg, decBf16 c (fmtBf16.zero 16 neg) = fmtF32.zero 32 neg) ∧
    (fmtBf16.isNaNPattern h = true → decBf16 c h = c.nanF32)

/-- R121: the bf16 encode is IEEE rounding to nearest, ties to even, for every input that is no NaN, overflow to the
infinity included; infinities and zeros keep their sign; the 32-bit addition never wraps. -/
def Obligations.Bf16EncodeIsNearestEven : Prop :=
  ∀ (c : Config) (x : BitVec 32),
    (fmtF32.isFinite x = true → fmtBf16.RoundsTo (encBf16 c x) (fmtF32.sign x) (fmtF32.realValue x)) ∧
    (∀ neg, encBf16 c (fmtF32.infinity 32 neg) = fmtBf16.infinity 16 neg) ∧
    (∀ neg, encBf16 c (fmtF32.zero 32 neg) = fmtBf16.zero 16 neg) ∧
    (fmtF32.isNaNPattern x = false → x.toNat + 0x7FFF + x.toNat / 2 ^ 16 % 2 < 2 ^ 32) ∧
    (fmtF32.isNaNPattern x = true → encBf16 c x = c.nanBf16)

/-- R124: f32 to f64 is exact: NaN to NAN_F64, infinities kept, every other value the same value with the same sign. -/
def Obligations.F32ToF64IsExact : Prop :=
  ∀ (c : Config) (x : BitVec 32),
    (fmtF32.isNaNPattern x = true → f32ToF64 c x = c.nanF64) ∧
    f32ToF64 c 0x7F800000 = 0x7FF0000000000000 ∧ f32ToF64 c 0xFF800000 = 0xFFF0000000000000 ∧
    (fmtF32.isFinite x = true →
      fmtF64.isFinite (f32ToF64 c x) = true ∧ fmtF64.realValue (f32ToF64 c x) = fmtF32.realValue x ∧
      fmtF64.sign (f32ToF64 c x) = fmtF32.sign x)

/-- R123: f64 to f32 rounds to nearest, ties to even: NaN to NAN_F32, infinities and zeros kept, magnitudes from the
midpoint over the largest f32 to an infinity, tiny ones to subnormals or a signed zero. -/
def Obligations.F64ToF32IsNearestEven : Prop :=
  ∀ (c : Config) (d : BitVec 64),
    (fmtF64.isNaNPattern d = true → f64ToF32 c d = c.nanF32) ∧
    (∀ neg, f64ToF32 c (fmtF64.infinity 64 neg) = fmtF32.infinity 32 neg) ∧
    (∀ neg, f64ToF32 c (fmtF64.zero 64 neg) = fmtF32.zero 32 neg) ∧
    (fmtF64.isFinite d = true → fmtF32.RoundsTo (f64ToF32 c d) (fmtF64.sign d) (fmtF64.realValue d)) ∧
    fmtF32.overflowBound = 2 ^ 127 * (2 - 1 / 2 ^ 24)

/-- The rounding the model uses is RNE_F (R12) for f32, f64 and bf16, of every exact value mant * 2^exp; the overflow
threshold is the midpoint, as R12's words and R123 say (log 8). -/
def Obligations.RoundingIsNearestEven : Prop :=
  ∀ (neg : Bool) (mant : Nat) (exp : Int),
    let v : ℚ := (if neg then -1 else 1) * mant * (2 : ℚ) ^ exp
    fmtF32.RoundsTo (fmtF32.round 32 neg mant exp) neg v ∧
    fmtF64.RoundsTo (fmtF64.round 64 neg mant exp) neg v ∧
    fmtBf16.RoundsTo (fmtBf16.round 16 neg mant exp) neg v

/-! ## RED -/

/-- The seven reductions (R190, R200 to R206): for an admitted type, N lanes that fit and LOGO at most LOGN, the W lanes
of the tree of R191 over the source lanes, with the combiner of each command; REDPOPC counts each lane's bits first. -/
def Obligations.ReductionsComplete : Prop :=
  ∀ (s : State) (vd vs : VReg) (t : EType) (n o : LogCount), o.val ≤ n.val → count n * t.esize ≤ s.cfg.vlenb →
    let v := s.lanesRd 0 vs t.esize (count n)
    let k := n.val - o.val
    (t.isNumeric = true →
      (∃ u, exec (.redadd vd vs t n o) s = .next u ∧
        s.WroteLanes u vd (count o) fun j => (reduceTree (addLane s.cfg t) k v).getD j 0) ∧
      (∃ u, exec (.redmul vd vs t n o) s = .next u ∧
        s.WroteLanes u vd (count o) fun j => (reduceTree (mulLane s.cfg t) k v).getD j 0) ∧
      (∃ u, exec (.redmin vd vs t n o) s = .next u ∧
        s.WroteLanes u vd (count o) fun j => (reduceTree (minLane s.cfg t) k v).getD j 0) ∧
      (∃ u, exec (.redmax vd vs t n o) s = .next u ∧
        s.WroteLanes u vd (count o) fun j => (reduceTree (maxLane s.cfg t) k v).getD j 0)) ∧
    (t.isBitwise = true →
      (∃ u, exec (.redand vd vs t n o) s = .next u ∧
        s.WroteLanes u vd (count o) fun j => (reduceTree (fun a b => a &&& b) k v).getD j 0) ∧
      (∃ u, exec (.redor vd vs t n o) s = .next u ∧
        s.WroteLanes u vd (count o) fun j => (reduceTree (fun a b => a ||| b) k v).getD j 0) ∧
      (∃ u, exec (.redpopc vd vs t n o) s = .next u ∧
        s.WroteLanes u vd (count o) fun j => (reduceTree (fun a b => a + b) k (v.map popcount)).getD j 0))

/-- R191: no halving returns the lanes unchanged; a halving combines lane i with lane i + h, the lower half's lane first;
2^k times W lanes reduce to W; and output lane j depends on the source lanes congruent to j modulo W alone. -/
def Obligations.ReductionTreePairsHalves : Prop :=
  ∀ (α : Type) (op : α → α → α) (d : α),
    (∀ v : List α, reduceTree op 0 v = v) ∧
    (∀ (k : Nat) (v : List α), reduceTree op (k + 1) v =
      reduceTree op k ((List.range (v.length / 2)).map fun i => op (v.getD i d) (v.getD (i + v.length / 2) d))) ∧
    ∀ (k o : Nat) (v v' : List α), v.length = 2 ^ (k + o) → v'.length = 2 ^ (k + o) →
      (reduceTree op k v).length = 2 ^ o ∧
      ∀ j < 2 ^ o, (∀ i < 2 ^ k, v.getD (j + i * 2 ^ o) d = v'.getD (j + i * 2 ^ o) d) →
        (reduceTree op k v).getD j d = (reduceTree op k v').getD j d

/-- What an integer reduction computes in lane j, over the 2^k source lanes congruent to j modulo W: the sum and the
product modulo 2^w, the least and the greatest lane, the AND and the OR of each bit, the number of 1 bits modulo 2^w
(R191, R192, R196). -/
def Obligations.IntegerReductionTotals : Prop :=
  ∀ (c : Config) (t : EType) (k o j : Nat) (v : List (BitVec (8 * t.esize))),
    v.length = 2 ^ (k + o) → j < 2 ^ o →
    let w := 8 * t.esize
    let lane := fun i => v.getD (j + i * 2 ^ o) 0
    let out := fun op => (reduceTree op k v).getD j 0
    (t.isInteger = true →
      (out (addLane c t)).toNat = (∑ i ∈ Finset.range (2 ^ k), (lane i).toNat) % 2 ^ w ∧
      (out (mulLane c t)).toNat = (∏ i ∈ Finset.range (2 ^ k), (lane i).toNat) % 2 ^ w ∧
      (∃ i < 2 ^ k, out (minLane c t) = lane i) ∧ (∀ i < 2 ^ k, intLe t (out (minLane c t)) (lane i) = true) ∧
      (∃ i < 2 ^ k, out (maxLane c t) = lane i) ∧ (∀ i < 2 ^ k, intLe t (lane i) (out (maxLane c t)) = true)) ∧
    (∀ b < w,
      ((out fun x y => x &&& y).getLsbD b = true ↔ ∀ i < 2 ^ k, (lane i).getLsbD b = true) ∧
      ((out fun x y => x ||| y).getLsbD b = true ↔ ∃ i < 2 ^ k, (lane i).getLsbD b = true)) ∧
    ((reduceTree (fun x y => x + y) k (v.map popcount)).getD j 0).toNat =
      (∑ i ∈ Finset.range (2 ^ k), ((Finset.range w).filter fun b => (lane i).getLsbD b = true).card) % 2 ^ w

/-- The integer combiners of R192: add and mul modulo 2^w, min and max by the unsigned or the two's-complement order of
the type. -/
def Obligations.IntegerCombiners : Prop :=
  ∀ (c : Config) (t : EType) (a b : BitVec (8 * t.esize)), t.isInteger = true →
    (addLane c t a b).toNat = (a.toNat + b.toNat) % 2 ^ (8 * t.esize) ∧
    (mulLane c t a b).toNat = a.toNat * b.toNat % 2 ^ (8 * t.esize) ∧
    (t ∈ [EType.u8, .u16, .u32, .u64, .u128, .u256] →
      minLane c t a b = (if a.toNat ≤ b.toNat then a else b) ∧
      maxLane c t a b = (if b.toNat ≤ a.toNat then a else b)) ∧
    (t ∈ [EType.i8, .i16, .i32, .i64, .i128, .i256] →
      minLane c t a b = (if a.toInt ≤ b.toInt then a else b) ∧
      maxLane c t a b = (if b.toInt ≤ a.toInt then a else b))

/-- R197: every combiner gives bit-identical results for op(a, b) and op(b, a). -/
def Obligations.CombinersCommute : Prop :=
  ∀ (c : Config) (t : EType) (a b : BitVec (8 * t.esize)),
    (t.isNumeric = true →
      addLane c t a b = addLane c t b a ∧ mulLane c t a b = mulLane c t b a ∧
      minLane c t a b = minLane c t b a ∧ maxLane c t a b = maxLane c t b a) ∧
    a &&& b = b &&& a ∧ a ||| b = b ||| a

/-- Float addition of f32 and f64 lanes (R193). The sum's overflow threshold, in RoundsTo, is the model's reading of R12
(log 8, DEDUCED). -/
def Obligations.FloatAddition : Prop :=
  ∀ c : Config, fmtF32.AddRules c.nanF32 (addLane c .f32) ∧ fmtF64.AddRules c.nanF64 (addLane c .f64)

/-- Float multiplication of f32 and f64 lanes (R194). The product's overflow threshold, in RoundsTo, is the model's reading
of R12 (log 8, DEDUCED). -/
def Obligations.FloatMultiplication : Prop :=
  ∀ c : Config, fmtF32.MulRules c.nanF32 (mulLane c .f32) ∧ fmtF64.MulRules c.nanF64 (mulLane c .f64)

/-- R195: float minimum and maximum of f32 and f64 lanes. -/
def Obligations.FloatMinimumMaximum : Prop :=
  ∀ c : Config, fmtF32.MinMaxRules c.nanF32 (minLane c .f32) (maxLane c .f32) ∧
    fmtF64.MinMaxRules c.nanF64 (minLane c .f64) (maxLane c .f64)

/-! ## PERM -/

/-- SLICE and INSERT (R160, R161). -/
def Obligations.SliceAndInsertComplete : Prop :=
  ∀ (s : State) (vd vs vv : VReg) (t : EType) (n : LogCount) (off : BitVec 16) (w : LogCount),
    count n * t.esize ≤ s.cfg.vlenb → off.toNat + count w ≤ count n →
    (∃ u, exec (.slice vd vs t n off w) s = .next u ∧
      s.WroteLanes u vd (count w) fun j => s.lane 0 vs t.esize (off.toNat + j)) ∧
    (∃ u, exec (.insert vd vs vv t n off w) s = .next u ∧
      s.WroteLanes u vd (count n) fun i =>
        if off.toNat ≤ i ∧ i < off.toNat + count w then s.lane 1 vv t.esize (i - off.toNat)
        else s.lane 0 vs t.esize i)

/-- JOIN and ILV (R162, R164), SPLIT and DILV (R163, R165). -/
def Obligations.JoinAndSplitComplete : Prop :=
  ∀ (s : State) (vd vd2 va vb : VReg) (t : EType) (n : LogCount),
    (n.val ≤ 14 → 2 * count n * t.esize ≤ s.cfg.vlenb →
      (∃ u, exec (.join vd va vb t n) s = .next u ∧
        s.WroteLanes u vd (2 * count n) fun i =>
          if i < count n then s.lane 0 va t.esize i else s.lane 1 vb t.esize (i - count n)) ∧
      (∃ u, exec (.ilv vd va vb t n) s = .next u ∧
        s.WroteLanes u vd (2 * count n) fun i =>
          if i % 2 = 0 then s.lane 0 va t.esize (i / 2) else s.lane 1 vb t.esize (i / 2))) ∧
    (vd ≠ vd2 → count n * t.esize ≤ s.cfg.vlenb → 2 ≤ count n →
      (∃ u, exec (.split vd vd2 va t n) s = .next u ∧ s.WritesOnly u [vd, vd2] ∧
        (u.HoldsLanes vd (count n / 2) fun i => s.lane 0 va t.esize i) ∧
        u.HoldsLanes vd2 (count n / 2) fun i => s.lane 0 va t.esize (count n / 2 + i)) ∧
      (∃ u, exec (.dilv vd vd2 va t n) s = .next u ∧ s.WritesOnly u [vd, vd2] ∧
        (u.HoldsLanes vd (count n / 2) fun i => s.lane 0 va t.esize (2 * i)) ∧
        u.HoldsLanes vd2 (count n / 2) fun i => s.lane 0 va t.esize (2 * i + 1)))

/-- SHUF1 and SHUF2 (R166, R167, R172): with every mask entry below 2N, output lane i is the lane the entry selects from
the two vectors; with a bad entry, RANGE with the lowest bad lane in FAULTINFO and nothing written (R211). -/
def Obligations.ShufflesCompleteOrFault : Prop :=
  ∀ (s : State) (vd vs vo vm : VReg) (t : EType) (n m : LogCount),
    count n * t.esize ≤ s.cfg.vlenb → count m * t.esize ≤ s.cfg.vlenb → 2 * count m ≤ s.cfg.vlenb →
    let entry1 := fun i => (s.lane 1 vm 2 i).toNat
    let entry2 := fun i => (s.lane 2 vm 2 i).toNat
    ((∀ i < count m, entry1 i < 2 * count n) →
      ∃ u, exec (.shuf1 vd vs vm t n m) s = .next u ∧ s.WroteLanes u vd (count m) fun i =>
        if entry1 i < count n then s.lane 0 vs t.esize (entry1 i) else s.lane 0 vs t.esize (entry1 i - count n)) ∧
    ((∀ i < count m, entry2 i < 2 * count n) →
      ∃ u, exec (.shuf2 vd vs vo vm t n m) s = .next u ∧ s.WroteLanes u vd (count m) fun i =>
        if entry2 i < count n then s.lane 0 vs t.esize (entry2 i) else s.lane 1 vo t.esize (entry2 i - count n)) ∧
    ∀ j < count m,
      (2 * count n ≤ entry1 j → (∀ i < j, entry1 i < 2 * count n) →
        s.Faults (exec (.shuf1 vd vs vm t n m) s) .range (0x80000000 ||| BitVec.ofNat 32 j) s.headWord) ∧
      (2 * count n ≤ entry2 j → (∀ i < j, entry2 i < 2 * count n) →
        s.Faults (exec (.shuf2 vd vs vo vm t n m) s) .range (0x80000000 ||| BitVec.ofNat 32 j) s.headWord)

/-- ROTL, ROTR, SHLL, SHRL and REV (R168 to R171, R173), each within the range R219 gives its amount. -/
def Obligations.RotatesShiftsReverseComplete : Prop :=
  ∀ (s : State) (vd vs : VReg) (t : EType) (n : LogCount) (sh : BitVec 16), count n * t.esize ≤ s.cfg.vlenb →
    let N := count n
    let lane := fun i => s.lane 0 vs t.esize i
    (-(N : Int) ≤ sh.toInt → sh.toInt < N → (N = 1 → sh.toInt = 0) →
      ∃ u, exec (.rotl vd vs t n sh) s = .next u ∧
        s.WroteLanes u vd N fun i => lane (((i : Int) + sh.toInt) % (N : Int)).toNat) ∧
    (-(N : Int) < sh.toInt → sh.toInt ≤ N → (N = 1 → sh.toInt = 0) →
      ∃ u, exec (.rotr vd vs t n sh) s = .next u ∧
        s.WroteLanes u vd N fun i => lane (((i : Int) - sh.toInt) % (N : Int)).toNat) ∧
    (sh.toNat ≤ N →
      (∃ u, exec (.shll vd vs t n sh) s = .next u ∧
        s.WroteLanes u vd N fun i => if i + sh.toNat < N then lane (i + sh.toNat) else 0) ∧
      (∃ u, exec (.shrl vd vs t n sh) s = .next u ∧
        s.WroteLanes u vd N fun i => if sh.toNat ≤ i then lane (i - sh.toNat) else 0)) ∧
    ∃ u, exec (.rev vd vs t n) s = .next u ∧ s.WroteLanes u vd N fun i => lane (N - 1 - i)

/-- R174: the six identities of the family, each as two commands run one after the other, or two results compared. -/
def Obligations.StructuralIdentities : Prop :=
  ∀ (s : State) (r vd vd2 va vb vm : VReg) (t : EType) (n n' : LogCount) (sh : BitVec 16),
    let N := count n
    let a := fun i => s.lane 0 va t.esize i
    let b := fun i => s.lane 1 vb t.esize i
    (n'.val = n.val + 1 → 2 * N * t.esize ≤ s.cfg.vlenb → vd ≠ vd2 →
      (∃ s1 s2, exec (.join r va vb t n) s = .next s1 ∧ exec (.split vd vd2 r t n') s1 = .next s2 ∧
        s2.HoldsLanes vd N a ∧ s2.HoldsLanes vd2 N b) ∧
      (∃ s1 s2, exec (.ilv r va vb t n) s = .next s1 ∧ exec (.dilv vd vd2 r t n') s1 = .next s2 ∧
        s2.HoldsLanes vd N a ∧ s2.HoldsLanes vd2 N b)) ∧
    (N * t.esize ≤ s.cfg.vlenb → -(N : Int) < sh.toInt → sh.toInt < N → (N = 1 → sh.toInt = 0) →
      ∃ s1 s2, exec (.rotl r va t n sh) s = .next s1 ∧ exec (.rotr vd r t n sh) s1 = .next s2 ∧
        s2.HoldsLanes vd N a) ∧
    (N * t.esize ≤ s.cfg.vlenb → 2 * N ≤ s.cfg.vlenb → (∀ i < N, (s.lane 1 vm 2 i).toNat = N - 1 - i) →
      ∃ u u', exec (.rev vd va t n) s = .next u ∧ exec (.shuf1 vd va vm t n n) s = .next u' ∧ u.reg vd = u'.reg vd) ∧
    (n'.val = n.val + 1 → 2 * N * t.esize ≤ s.cfg.vlenb → sh.toNat = N →
      ∃ s1 s2, exec (.join r va vb t n) s = .next s1 ∧ exec (.slice vd r t n' sh n) s1 = .next s2 ∧
        s2.HoldsLanes vd N b) ∧
    (N * t.esize ≤ s.cfg.vlenb → ∃ u, exec (.insert vd va vb t n 0 n) s = .next u ∧ u.HoldsLanes vd N b) ∧
    (N * t.esize ≤ s.cfg.vlenb → sh.toNat ≤ N →
      ∃ s1 s2, exec (.shll r va t n sh) s = .next s1 ∧ exec (.shrl vd r t n sh) s1 = .next s2 ∧
        s2.HoldsLanes vd N fun i => if i < sh.toNat then 0 else a i)

/-! ## The host -/

/-- R40, R220, R221: a push is dropped while ERR = 1, faults CMDQ_OVERFLOW on a full queue, and else enters the queue at
the tail; CMD_LO keeps its value (R27). -/
def Obligations.PushEnqueuesFaultsOrDrops : Prop :=
  ∀ (s : State) (h : Word),
    let w : CmdWord := h ++ s.cmdLo
    (s.err = true →
      step (s.awaiting (s.hostWrite 0x034 h)) = .next { s with dropped := true, response := .done }) ∧
    (s.err = false → s.queue.length = s.cfg.cmdqDepth →
      step (s.awaiting (s.hostWrite 0x034 h)) = .next { s.afterFault .cmdqOverflow 0 w with response := .done }) ∧
    (s.err = false → s.queue.length ≠ s.cfg.cmdqDepth →
      step (s.awaiting (s.hostWrite 0x034 h)) = .next { s with queue := s.queue ++ [w], response := .done })

/-- R31, R32: the constants ID and CAP, and CAP of the default configuration. -/
def Obligations.IdAndCapConstants : Prop :=
  (∀ s : State, step (s.awaiting (s.hostRead 0x000)) = .next { s with response := .data 0x4D560100 }) ∧
  (∀ s : State, ∃ v : Word, step (s.awaiting (s.hostRead 0x004)) = .next { s with response := .data v } ∧
    2 ^ (v.extractLsb' 0 5).toNat = s.cfg.vlenb ∧ 2 ^ (v.extractLsb' 5 5).toNat = s.cfg.spmBytes ∧
    (v.extractLsb' 10 8).toNat = s.cfg.cmdqDepth ∧ v.extractLsb' 18 6 = 0x3F ∧ v.extractLsb' 24 8 = 0 ∧
    (s.cfg = .reference → v = 0x00FC4206))

/-- R33: what a read of CTRL returns and what a write to it does; with SRST = 1 the other bits of the write are
ignored. -/
def Obligations.CtrlRegister : Prop :=
  ∀ s : State,
    (∃ r : Word, step (s.awaiting (s.hostRead 0x008)) = .next { s with response := .data r } ∧
      r.getLsbD 0 = s.en ∧ r.getLsbD 1 = s.ieDone ∧ r.getLsbD 2 = s.ieErr ∧ ∀ i, 3 ≤ i → r.getLsbD i = false) ∧
    ∀ v : Word,
      (v.getLsbD 31 = false → step (s.awaiting (s.hostWrite 0x008 v)) =
        .next { s with en := v.getLsbD 0, ieDone := v.getLsbD 1, ieErr := v.getLsbD 2, response := .done }) ∧
      (v.getLsbD 31 = true →
        step (s.awaiting (s.hostWrite 0x008 v)) = step (s.awaiting (s.hostWrite 0x008 0x80000000)))

/-- R34: what a read of STATUS returns, for a queue within its bound (R26), and its write-1-to-clear bits, ERR taking
CAUSE with it. -/
def Obligations.StatusRegister : Prop :=
  ∀ s : State,
    (s.queueBounded →
      ∃ r : Word, step (s.awaiting (s.hostRead 0x00C)) = .next { s with response := .data r } ∧
        (r.getLsbD 0 = true ↔ s.queue ≠ []) ∧ r.getLsbD 1 = s.done ∧ r.getLsbD 2 = s.err ∧ r.getLsbD 3 = s.dropped ∧
        (r.getLsbD 4 = true ↔ s.queue.length = s.cfg.cmdqDepth) ∧ r.extractLsb' 5 3 = 0 ∧
        (r.extractLsb' 8 8).toNat = s.queue.length ∧ r.extractLsb' 16 16 = 0) ∧
    ∀ v : Word, step (s.awaiting (s.hostWrite 0x00C v)) =
      .next { s with
        done := s.done && !v.getLsbD 1
        err := s.err && !v.getLsbD 2
        cause := if v.getLsbD 2 then .none else s.cause
        dropped := s.dropped && !v.getLsbD 3
        response := .done }

/-- Return from a fault (R222), from a state of the invariant: clearing ERR clears CAUSE, keeps the rest of the report
and CSEQ, and leaves an empty queue; the next push is the only word in it and executes next, with the index FAULTIDX if
that is still CSEQ. Clearing ERR while it is 0 changes nothing. -/
def Obligations.FaultReturn : Prop :=
  ∀ (s : State) (v h : Word), s.Inv → v.getLsbD 1 = false → v.getLsbD 2 = true → v.getLsbD 3 = false →
    ∃ u, step (s.awaiting (s.hostWrite 0x00C v)) = .next u ∧
      u = { s with err := false, cause := .none, response := .done } ∧
      (s.err = false → u = { s with response := .done }) ∧
      (s.err = true → u.queue = [] ∧
        ∃ p, step (u.awaiting (u.hostWrite 0x034 h)) = .next p ∧ p.queue = [h ++ s.cmdLo] ∧ p.cseq = s.cseq ∧
          p.canExecute = s.en)

/-- R30: an access of another size or alignment has no effect and gets a bus error with read data 0; reserved offsets read 0 and ignore
writes; read-only registers ignore writes; write-only registers read 0; the reserved bits of CTRL, STATUS, CAUSE and CAP
read 0, and those of CTRL and STATUS ignore writes. -/
def Obligations.BusErrorsAndReservedOffsets : Prop :=
  ∀ s : State,
    (∀ size off : Nat, ∀ v : Word, off < 0x20000 → size ≠ 4 ∨ off % 4 ≠ 0 →
      step (s.awaiting (.host (.read size (s.cfg.mmioBase + off)))) = .next { s with response := .busError 0 } ∧
      step (s.awaiting (.host (.write size (s.cfg.mmioBase + off) v))) = .next { s with response := .busError 0 }) ∧
    (∀ off : Nat, ∀ v : Word, off % 4 = 0 →
      off = 0x02C ∨ (0x038 ≤ off ∧ off < 0x10000) ∨ (0x10000 + s.cfg.spmBytes ≤ off ∧ off < 0x20000) →
      step (s.awaiting (s.hostRead off)) = .next { s with response := .data 0 } ∧
      step (s.awaiting (s.hostWrite off v)) = .next { s with response := .done }) ∧
    (∀ off ∈ [0x000, 0x004, 0x010, 0x014, 0x018, 0x01C, 0x020, 0x024, 0x028], ∀ v : Word,
      step (s.awaiting (s.hostWrite off v)) = .next { s with response := .done }) ∧
    (∀ off ∈ [0x030, 0x034], step (s.awaiting (s.hostRead off)) = .next { s with response := .data 0 }) ∧
    s.ctrlWord &&& ~~~0x7 = 0 ∧ s.statusWord &&& ~~~0xFF1F = 0 ∧ s.causeWord &&& ~~~0xFF = 0 ∧
    capWord s.cfg &&& ~~~0xFFFFFF = 0 ∧
    ∀ v v' : Word,
      (v &&& 0x80000007 = v' &&& 0x80000007 →
        step (s.awaiting (s.hostWrite 0x008 v)) = step (s.awaiting (s.hostWrite 0x008 v'))) ∧
      (v &&& 0xE = v' &&& 0xE →
        step (s.awaiting (s.hostWrite 0x00C v)) = step (s.awaiting (s.hostWrite 0x00C v')))

/-- What the other registers return to the host (R25, R35 to R39, with the codes of R210), and that CMD_LO is set by its
own write alone (R27). -/
def Obligations.HostReadsReportRegisters : Prop :=
  ∀ s : State,
    (∃ v : Word, step (s.awaiting (s.hostRead 0x010)) = .next { s with response := .data v } ∧
      [(Cause.none, 0), (.illegalOpcode, 1), (.illegalField, 2), (.illegalType, 3), (.width, 4), (.range, 5),
        (.misalign, 6), (.addr, 7), (.cmdqOverflow, 8)].lookup s.cause = some v.toNat) ∧
    step (s.awaiting (s.hostRead 0x014)) = .next { s with response := .data s.faultIdx } ∧
    step (s.awaiting (s.hostRead 0x018)) = .next { s with response := .data s.faultInfo } ∧
    (∃ lo hi : Word, step (s.awaiting (s.hostRead 0x01C)) = .next { s with response := .data lo } ∧
      step (s.awaiting (s.hostRead 0x020)) = .next { s with response := .data hi } ∧ hi ++ lo = s.faultCmd) ∧
    step (s.awaiting (s.hostRead 0x024)) = .next { s with response := .data s.cseq } ∧
    step (s.awaiting (s.hostRead 0x028)) = .next { s with response := .data s.sigVal } ∧
    ∀ v : Word, step (s.awaiting (s.hostWrite 0x030 v)) = .next { s with cmdLo := v, response := .done }

/-- R55: a word of the scratchpad window: a write puts its bytes at a to a+3, least significant first (R53), and changes
nothing else; a read returns the bytes written there; another size or alignment is a bus error; offsets from SPM_BYTES on
are reserved. -/
def Obligations.ScratchpadWindow : Prop :=
  ∀ (s : State) (a : Nat) (v : Word), s.spmSound → a % 4 = 0 →
    (a + 4 ≤ s.cfg.spmBytes →
      (∃ u, step (s.awaiting (s.hostWrite (0x10000 + a) v)) = .next u ∧
        u = { s with spm := u.spm, response := .done } ∧
        ∀ x, Memory.read u.spm x =
          if a ≤ x ∧ x < a + 4 then .written (v.extractLsb' (8 * (x - a)) 8) else Memory.read s.spm x) ∧
      (∃ u, step (s.awaiting (s.hostRead (0x10000 + a))) = .next u ∧
        (∃ d, u = { s with response := .data d, draws := u.draws } ∧
          ∀ k < 4, ∀ b, Memory.read s.spm (a + k) = .written b → d.extractLsb' (8 * k) 8 = b)) ∧
      (∀ size k : Nat, k < 4 → size ≠ 4 ∨ k ≠ 0 →
        step (s.awaiting (.host (.read size (s.cfg.mmioBase + (0x10000 + a + k))))) =
          .next { s with response := .busError 0 } ∧
        step (s.awaiting (.host (.write size (s.cfg.mmioBase + (0x10000 + a + k)) v))) =
          .next { s with response := .busError 0 })) ∧
    (s.cfg.spmBytes ≤ a → a < 0x10000 →
      step (s.awaiting (s.hostRead (0x10000 + a))) = .next { s with response := .data 0 } ∧
      step (s.awaiting (s.hostWrite (0x10000 + a) v)) = .next { s with response := .done })

/-- The interrupt line (R224, R225): its equation, and over all events that only a SIGNAL, a fault of a command or of a
push, or a CTRL write raises it. -/
def Obligations.InterruptSources : Prop :=
  ∀ s : State,
    (s.irq = true ↔ (s.done = true ∧ s.ieDone = true) ∨ (s.err = true ∧ s.ieErr = true)) ∧
    ∀ (u : State) (e : Event), step (s.awaiting e) = .next u → s.irq = false → u.irq = true →
      (e = .block ∧ ∃ w q, s.queue = w :: q ∧ ((∃ sig, decode w = .ok (.signal sig)) ∨ u.err = true)) ∨
      (∃ h : Word, e = s.hostWrite 0x034 h ∧ u.err = true) ∨ ∃ v : Word, e = s.hostWrite 0x008 v
end

