-- ==== Sys2Proof/Laws/Bytes.lean ====
section
/-!
SUPPORT. Bytes and lanes: taking a lane apart and putting it together again (R22, R53), and the big-endian index.
-/
namespace Sys2Proof.Machine

@[simp] theorem RegByte.value_written (b : Byte) (d : Nat) : (RegByte.written b).value d = b := rfl

theorem natOfBytes_lt (f : Nat → Byte) (es : Nat) : natOfBytes f es < 256 ^ es := by
  induction es with
  | zero => simp [natOfBytes]
  | succ k ih =>
    have hb : (f k).toNat ≤ 255 := by have := (f k).isLt; omega
    have : (f k).toNat * 256 ^ k ≤ 255 * 256 ^ k := Nat.mul_le_mul_right _ hb
    simp only [natOfBytes, Nat.pow_succ]
    omega

/-- Byte k of the number built from bytes is byte k. -/
theorem natOfBytes_byte (f : Nat → Byte) {es k : Nat} (hk : k < es) :
    natOfBytes f es / 256 ^ k % 256 = (f k).toNat := by
  induction es with
  | zero => omega
  | succ n ih =>
    simp only [natOfBytes]
    rcases Nat.lt_succ_iff_lt_or_eq.mp hk with h | rfl
    · obtain ⟨d, rfl⟩ : ∃ d, n = k + 1 + d := ⟨n - (k + 1), by omega⟩
      rw [show (f (k + 1 + d)).toNat * 256 ^ (k + 1 + d) = 256 ^ k * ((f (k + 1 + d)).toNat * 256 ^ d * 256) by ring,
        Nat.add_mul_div_left _ _ (by positivity), Nat.add_mul_mod_self_right, ih h]
    · rw [Nat.add_mul_div_right _ _ (by positivity), Nat.div_eq_of_lt (natOfBytes_lt f k), Nat.zero_add]
      exact Nat.mod_eq_of_lt (f k).isLt

theorem pow_eight_mul (es : Nat) : (2 : Nat) ^ (8 * es) = 256 ^ es := by rw [Nat.pow_mul]

@[simp] theorem laneOfBytes_toNat (es : Nat) (f : Nat → Byte) : (laneOfBytes es f).toNat = natOfBytes f es := by
  rw [laneOfBytes, BitVec.toNat_ofNat, pow_eight_mul, Nat.mod_eq_of_lt (natOfBytes_lt f es)]

theorem byteOf_toNat {w : Nat} (x : BitVec w) (k : Nat) : (byteOf x k).toNat = x.toNat / 256 ^ k % 256 := by
  rw [byteOf, BitVec.extractLsb'_toNat, Nat.shiftRight_eq_div_pow, pow_eight_mul]

/-- Taking apart what was put together (R22). -/
theorem byteOf_laneOfBytes {es k : Nat} (f : Nat → Byte) (hk : k < es) : byteOf (laneOfBytes es f) k = f k := by
  apply BitVec.eq_of_toNat_eq
  rw [byteOf_toNat, laneOfBytes_toNat, natOfBytes_byte f hk]

theorem natOfBytes_congr {f g : Nat → Byte} {es : Nat} (h : ∀ k < es, f k = g k) : natOfBytes f es = natOfBytes g es := by
  induction es with
  | zero => rfl
  | succ k ih => simp only [natOfBytes, h k (Nat.lt_succ_self k), ih fun j hj => h j (Nat.lt_succ_of_lt hj)]

theorem laneOfBytes_congr {f g : Nat → Byte} {es : Nat} (h : ∀ k < es, f k = g k) :
    laneOfBytes es f = laneOfBytes es g := by
  rw [laneOfBytes, laneOfBytes, natOfBytes_congr h]

theorem natOfBytes_byteOf {w : Nat} (x : BitVec w) (es : Nat) :
    natOfBytes (fun k => byteOf x k) es = x.toNat % 256 ^ es := by
  induction es with
  | zero => simp [natOfBytes, Nat.mod_one]
  | succ k ih => rw [natOfBytes, ih, byteOf_toNat, Nat.pow_succ, Nat.mod_mul, Nat.mul_comm (256 ^ k)]

/-- Putting together what was taken apart (R22, R23). -/
theorem laneOfBytes_byteOf {es : Nat} (x : BitVec (8 * es)) : laneOfBytes es (fun k => byteOf x k) = x := by
  apply BitVec.eq_of_toNat_eq
  rw [laneOfBytes_toNat, natOfBytes_byteOf, ← pow_eight_mul, Nat.mod_eq_of_lt x.isLt]

theorem beIndex_div {es j : Nat} (h : 0 < es) : beIndex es j / es = j / es := by
  have := Nat.mod_lt j h
  rw [beIndex, Nat.mul_comm, Nat.mul_add_div h, Nat.div_eq_of_lt (a := es - 1 - j % es) (by omega), Nat.add_zero]

theorem beIndex_mod {es j : Nat} (h : 0 < es) : beIndex es j % es = es - 1 - j % es := by
  have := Nat.mod_lt j h
  rw [beIndex, Nat.mul_comm, Nat.mul_add_mod, Nat.mod_eq_of_lt (a := es - 1 - j % es) (by omega)]

/-- Reversing the bytes of every lane twice changes nothing (R53). -/
theorem beIndex_beIndex {es j : Nat} (h : 0 < es) : beIndex es (beIndex es j) = j := by
  have hm := Nat.mod_lt j h
  rw [beIndex, beIndex_div h, beIndex_mod h]
  have := Nat.div_add_mod' j es
  omega

/-- The reversed index stays inside a vector of n whole lanes. -/
theorem beIndex_lt {es n j : Nat} (h : j < n * es) : beIndex es j < n * es := by
  have hes : 0 < es := Nat.pos_of_ne_zero (by rintro rfl; simp at h)
  have : j / es < n := Nat.div_lt_of_lt_mul (by rwa [Nat.mul_comm])
  have h2 : (j / es + 1) * es ≤ n * es := Nat.mul_le_mul_right es this
  rw [Nat.add_one_mul] at h2
  unfold beIndex
  omega

end Sys2Proof.Machine
end

