-- ==== Sys2Proof/Laws/Config.lean ====
section
/-!
SUPPORT. The legal values of R6: every `Config` has them, and every legal choice of the sizes is one.
-/
namespace Sys2Proof.Config

theorem vlenb_pos (c : Config) : 0 < c.vlenb := by
  unfold vlenb; exact Nat.two_pow_pos _

theorem vlenb_bounds (c : Config) : 32 ≤ c.vlenb ∧ c.vlenb ≤ 32768 :=
  have h : 5 + c.vlenbExp.val ≤ 15 := by have := c.vlenbExp.isLt; omega
  ⟨(Nat.pow_le_pow_right Nat.two_pos (Nat.le_add_right 5 _) : 2 ^ 5 ≤ _),
   (Nat.pow_le_pow_right Nat.two_pos h : _ ≤ 2 ^ 15)⟩

theorem spmBytes_bounds (c : Config) : 4096 ≤ c.spmBytes ∧ c.spmBytes ≤ 65536 :=
  have h : 12 + c.spmExp.val ≤ 16 := by have := c.spmExp.isLt; omega
  ⟨(Nat.pow_le_pow_right Nat.two_pos (Nat.le_add_right 12 _) : 2 ^ 12 ≤ _),
   (Nat.pow_le_pow_right Nat.two_pos h : _ ≤ 2 ^ 16)⟩

theorem cmdqDepth_bounds (c : Config) : 1 ≤ c.cmdqDepth ∧ c.cmdqDepth ≤ 255 := by
  have h := c.depthPred.isLt
  unfold cmdqDepth; omega

theorem mmioBase_aligned (c : Config) : c.mmioBase % 2 ^ 17 = 0 := by
  unfold mmioBase; omega

/-- VLENB is a multiple of 32, so of every lane size (R5, R6). -/
theorem vlenb_eq (c : Config) : c.vlenb = 32 * 2 ^ c.vlenbExp.val := by
  simp [vlenb, Nat.pow_add]

/-- Every legal VLENB, SPM_BYTES, CMDQ_DEPTH and MMIO_BASE is that of some `Config` (R6). -/
theorem sizes_complete {a b d m : Nat} (ha : 5 ≤ a ∧ a ≤ 15) (hb : 12 ≤ b ∧ b ≤ 16) (hd : 1 ≤ d ∧ d ≤ 255)
    (hm : m % 2 ^ 17 = 0) :
    ∃ c : Config, c.vlenb = 2 ^ a ∧ c.spmBytes = 2 ^ b ∧ c.cmdqDepth = d ∧ c.mmioBase = m := by
  refine ⟨{ reference with
    vlenbExp := ⟨a - 5, by omega⟩
    spmExp := ⟨b - 12, by omega⟩
    depthPred := ⟨d - 1, by omega⟩
    mmioPage := m / 2 ^ 17 }, ?_, ?_, ?_, ?_⟩
  · simp only [vlenb]; congr 1; omega
  · simp only [spmBytes]; congr 1; omega
  · simp only [cmdqDepth]; omega
  · simp only [mmioBase]; omega

end Sys2Proof.Config
end

