-- ==== Sys2Proof/Laws/Lists.lean ====
section
/-!
SUPPORT. The lane lists of the PERM and RED families: their lengths and their lanes.
-/
namespace Sys2Proof.Machine

variable {α : Type}

theorem getD_of_lt {v : List α} {i : Nat} (d : α) (h : i < v.length) : v.getD i d = v[i] := by
  simp [List.getD_eq_getElem?_getD, h]

/-! ## Slice, insert, concatenation -/

theorem sliceLanes_length {v : List α} {k w : Nat} (h : k + w ≤ v.length) : (sliceLanes v k w).length = w := by
  simp [sliceLanes]; omega

theorem sliceLanes_getD (v : List α) {k w i : Nat} (d : α) (h : i < w) :
    (sliceLanes v k w).getD i d = v.getD (k + i) d := by
  simp [sliceLanes, List.getD_eq_getElem?_getD, h]

theorem insertLanes_length {v x : List α} {k : Nat} (h : k + x.length ≤ v.length) :
    (insertLanes v x k).length = v.length := by
  simp [insertLanes]; omega

theorem insertLanes_getD {v x : List α} {k i : Nat} (d : α) (h : k + x.length ≤ v.length) :
    (insertLanes v x k).getD i d = if k ≤ i ∧ i < k + x.length then x.getD (i - k) d else v.getD i d := by
  simp only [insertLanes, List.getD_eq_getElem?_getD, List.append_assoc]
  have hk : (v.take k).length = k := by simp; omega
  by_cases h1 : i < k
  · rw [List.getElem?_append_left (by omega), List.getElem?_take, if_pos h1, if_neg (by omega)]
  · rw [List.getElem?_append_right (by omega), hk]
    by_cases h2 : i < k + x.length
    · rw [List.getElem?_append_left (by omega), if_pos (by omega)]
    · rw [List.getElem?_append_right (by omega), List.getElem?_drop, if_neg (by omega)]
      congr 2; omega

theorem append_getD (a b : List α) (i : Nat) (d : α) :
    (a ++ b).getD i d = if i < a.length then a.getD i d else b.getD (i - a.length) d := by
  simp only [List.getD_eq_getElem?_getD, List.getElem?_append]
  split <;> rfl

theorem take_getD (v : List α) {h i : Nat} (d : α) (hi : i < h) : (v.take h).getD i d = v.getD i d := by
  simp [List.getD_eq_getElem?_getD, hi]

theorem drop_getD (v : List α) (h i : Nat) (d : α) : (v.drop h).getD i d = v.getD (h + i) d := by
  simp [List.getD_eq_getElem?_getD]

/-! ## Interleave and deinterleave -/

theorem interleave_length : ∀ {a b : List α}, a.length = b.length → (interleave a b).length = 2 * a.length
  | [], [], _ => rfl
  | _ :: as, _ :: bs, h => by
    simp only [interleave, List.length_cons, interleave_length (a := as) (b := bs) (by simpa using h)]; omega
  | [], _ :: _, h => by simp at h
  | _ :: _, [], h => by simp at h

theorem interleave_getD : ∀ {a b : List α} (i : Nat) (d : α), a.length = b.length →
    (interleave a b).getD (2 * i) d = a.getD i d ∧ (interleave a b).getD (2 * i + 1) d = b.getD i d
  | [], [], _, _, _ => by simp [interleave]
  | x :: as, y :: bs, i, d, h => by
    cases i with
    | zero => simp [interleave]
    | succ i =>
      have := interleave_getD (a := as) (b := bs) i d (by simpa using h)
      simpa [interleave, Nat.mul_add] using this
  | [], _ :: _, _, _, h => by simp at h
  | _ :: _, [], _, _, h => by simp at h

theorem evens_length : ∀ v : List α, (evens v).length = (v.length + 1) / 2
  | [] => by simp [evens]
  | [_] => by simp [evens]
  | _ :: _ :: rest => by simp only [evens, List.length_cons, evens_length rest]; omega

theorem evens_getD : ∀ (v : List α) (i : Nat) (d : α), (evens v).getD i d = v.getD (2 * i) d
  | [], _, _ => by simp [evens]
  | [a], i, d => by cases i <;> simp [evens]
  | a :: b :: rest, i, d => by
    cases i with
    | zero => simp [evens]
    | succ i => simpa [evens, Nat.mul_add] using evens_getD rest i d

theorem odds_length (v : List α) : (odds v).length = v.length / 2 := by
  rw [odds, evens_length, List.length_tail]; omega

theorem odds_getD (v : List α) (i : Nat) (d : α) : (odds v).getD i d = v.getD (2 * i + 1) d := by
  rw [odds, evens_getD]
  cases v <;> simp

/-! ## Rotate, shift, shuffle, reverse -/

section Lanes

variable {es : Nat} (v : List (BitVec (8 * es)))

@[simp] theorem rotate_length (s : Int) : (rotate v s).length = v.length := by simp [rotate]

theorem rotate_getD (s : Int) {i : Nat} (h : i < v.length) :
    (rotate v s).getD i 0 = v.getD (((i : Int) + s) % (v.length : Int)).toNat 0 := by
  simp [rotate, List.getD_eq_getElem?_getD, h]

@[simp] theorem shiftDown_length (s : Nat) : (shiftDown v s).length = v.length := by simp [shiftDown]

theorem shiftDown_getD (s : Nat) {i : Nat} (h : i < v.length) :
    (shiftDown v s).getD i 0 = if i + s < v.length then v.getD (i + s) 0 else 0 := by
  simp [shiftDown, List.getD_eq_getElem?_getD, h]

@[simp] theorem shiftUp_length (s : Nat) : (shiftUp v s).length = v.length := by simp [shiftUp]

theorem shiftUp_getD (s : Nat) {i : Nat} (h : i < v.length) :
    (shiftUp v s).getD i 0 = if s ≤ i then v.getD (i - s) 0 else 0 := by
  simp [shiftUp, List.getD_eq_getElem?_getD, h]

@[simp] theorem shuffle_length (mask : List (BitVec (8 * 2))) : (shuffle v mask).length = mask.length := by
  simp [shuffle]

theorem shuffle_getD {mask : List (BitVec (8 * 2))} {i : Nat} (h : i < mask.length) :
    (shuffle v mask).getD i 0 = v.getD (mask.getD i 0).toNat 0 := by
  simp [shuffle, List.getD_eq_getElem?_getD, h]

theorem reverse_getD {i : Nat} (h : i < v.length) : v.reverse.getD i 0 = v.getD (v.length - 1 - i) 0 := by
  simp [List.getD_eq_getElem?_getD, List.getElem?_reverse h]

/-- No mask entry is bad exactly when every entry is below 2N (R172). -/
theorem badEntry_eq_none {n : Nat} {mask : List (BitVec (8 * 2))} :
    badEntry n mask = none ↔ ∀ i < mask.length, (mask.getD i 0).toNat < 2 * n := by
  rw [badEntry, List.findIdx?_eq_none_iff]
  constructor
  · intro h i hi
    have := h _ (List.getElem_mem hi)
    rw [getD_of_lt 0 hi]
    simpa using this
  · intro h x hx
    obtain ⟨i, hi, rfl⟩ := List.getElem_of_mem hx
    have := h i hi
    rw [getD_of_lt 0 hi] at this
    simpa using this

/-- The bad entry found is the lowest one (R166). -/
theorem badEntry_eq_some {n i : Nat} {mask : List (BitVec (8 * 2))} :
    badEntry n mask = some i ↔ i < mask.length ∧ 2 * n ≤ (mask.getD i 0).toNat ∧
      ∀ j < i, (mask.getD j 0).toNat < 2 * n := by
  rw [badEntry, List.findIdx?_eq_some_iff_getElem]
  constructor
  · rintro ⟨hi, h1, h2⟩
    refine ⟨hi, by rw [getD_of_lt 0 hi]; simpa using h1, fun j hj => ?_⟩
    rw [getD_of_lt 0 (by omega)]
    simpa using h2 j hj
  · rintro ⟨hi, h1, h2⟩
    refine ⟨hi, by rw [getD_of_lt 0 hi] at h1; simpa using h1, fun j hj => ?_⟩
    have := h2 j hj
    rw [getD_of_lt 0 (by omega)] at this
    simpa using this

end Lanes

/-! ## The reduction tree -/

theorem count_pos (n : LogCount) : 0 < count n := Nat.two_pow_pos _

theorem halve_length (op : α → α → α) (v : List α) : (halve op v).length = v.length / 2 := by
  simp [halve]; omega

theorem halve_getD (op : α → α → α) {v : List α} {i : Nat} (d : α) (h : i < v.length / 2) :
    (halve op v).getD i d = op (v.getD i d) (v.getD (i + v.length / 2) d) := by
  rw [getD_of_lt d (by rw [halve_length]; exact h), getD_of_lt d (by omega), getD_of_lt d (by omega)]
  simp [halve, Nat.add_comm i]

/-- Reducing 2^(k+j) lanes by k halvings leaves 2^j (R191). -/
theorem reduceTree_length (op : α → α → α) (k : Nat) {v : List α} {j : Nat} (h : v.length = 2 ^ (k + j)) :
    (reduceTree op k v).length = 2 ^ j := by
  induction k generalizing v with
  | zero => simpa [reduceTree] using h
  | succ k ih =>
    rw [reduceTree]
    refine ih ?_
    rw [halve_length, h, show k + 1 + j = k + j + 1 by omega, Nat.pow_succ, Nat.mul_div_cancel _ (by decide)]

end Sys2Proof.Machine
end

