-- ==== Sys2Proof/Laws/Memory.lean ====
section
/-!
SUPPORT. The scratchpad: what a read returns after a write (R51, R52), and that every operation keeps the canonical form.
-/
namespace Sys2Proof.Machine.Memory

@[simp] theorem read_nil (a : Nat) : Memory.read [] a = .unwritten := rfl

theorem read_cons (x : Nat) (b : Byte) (m : Memory) (a : Nat) :
    Memory.read ((x, b) :: m) a = if x = a then .written b else Memory.read m a := rfl

/-- Below every listed address nothing is written. -/
theorem read_eq_unwritten {m : Memory} {a : Nat} (h : ∀ c ∈ m, a < c.1) : Memory.read m a = .unwritten := by
  induction m with
  | nil => rfl
  | cons c m ih =>
    have hc := h c (by simp)
    rw [show c = (c.1, c.2) from rfl, read_cons, if_neg (by omega)]
    exact ih fun d hd => h d (by simp [hd])

/-- Every listed address after a write was listed before or is the one written. -/
theorem mem_write {m : Memory} {a : Nat} {v : RegByte} {c : Host.Cell} (h : c ∈ Memory.write m a v) :
    c.1 = a ∨ c ∈ m := by
  induction m with
  | nil => cases v <;> simp_all [Memory.write]
  | cons d m ih =>
    obtain ⟨x, b⟩ := d
    rw [Memory.write] at h
    split at h
    · rcases List.mem_cons.mp h with h | h
      · exact .inr (by simp [h])
      · rcases ih h with h | h
        · exact .inl h
        · exact .inr (by simp [h])
    · cases v <;> simp only [] at h <;> split at h
      · exact .inr (List.mem_cons_of_mem _ h)
      · exact .inr h
      · rcases List.mem_cons.mp h with rfl | h
        · exact .inl rfl
        · exact .inr (List.mem_cons_of_mem _ h)
      · rcases List.mem_cons.mp h with rfl | h
        · exact .inl rfl
        · exact .inr h

theorem wf_tail {c : Host.Cell} {m : Memory} (h : Memory.wf (c :: m)) : Memory.wf m := (List.pairwise_cons.mp h).2

theorem wf_head {c : Host.Cell} {m : Memory} (h : Memory.wf (c :: m)) : ∀ d ∈ m, c.1 < d.1 :=
  (List.pairwise_cons.mp h).1

/-- A write keeps the canonical form. -/
theorem wf_write {m : Memory} (h : Memory.wf m) (a : Nat) (v : RegByte) : Memory.wf (Memory.write m a v) := by
  induction m with
  | nil => cases v <;> simp [Memory.write, Memory.wf]
  | cons d m ih =>
    obtain ⟨x, b⟩ := d
    have ht := wf_tail h
    have hh := wf_head h
    rw [Memory.write]
    split
    · rename_i hlt
      refine List.pairwise_cons.mpr ⟨fun e he => ?_, ih ht⟩
      rcases mem_write he with he | he
      · simpa [he] using hlt
      · exact hh e he
    · rename_i hge
      by_cases hx : x = a
      · subst hx
        cases v
        · simpa using ht
        · simpa using List.pairwise_cons.mpr ⟨hh, ht⟩
      · cases v
        · simpa [hx] using h
        · simp only [hx, if_false]
          refine List.pairwise_cons.mpr ⟨fun e he => ?_, h⟩
          rcases List.mem_cons.mp he with rfl | he
          · simp only; omega
          · have := hh e he; simp only at this ⊢; omega

/-- A read after a write (R51, R52). -/
theorem read_write {m : Memory} (h : Memory.wf m) (a : Nat) (v : RegByte) (x : Nat) :
    Memory.read (Memory.write m a v) x = if x = a then v else Memory.read m x := by
  induction m with
  | nil =>
    cases v <;> by_cases hx : a = x <;> simp [Memory.write, read_cons, hx, eq_comm]
  | cons d m ih =>
    obtain ⟨y, b⟩ := d
    have hh := wf_head h
    rw [Memory.write]
    split
    · rename_i hlt
      rw [read_cons, read_cons, ih (wf_tail h)]
      by_cases hxa : x = a
      · subst hxa; simp [Nat.ne_of_lt hlt]
      · simp [hxa]
    · rename_i hge
      by_cases hy : y = a
      · subst hy
        cases v with
        | unwritten =>
          by_cases hx : x = y
          · subst hx; simpa using read_eq_unwritten hh
          · simp [read_cons, hx, Ne.symm hx]
        | written c => by_cases hx : x = y <;> simp [read_cons, hx, eq_comm]
      · cases v with
        | unwritten =>
          by_cases hx : x = a
          · subst hx
            simp only [hy, if_false, if_true]
            refine read_eq_unwritten fun e he => ?_
            rcases List.mem_cons.mp he with rfl | he
            · simp only; omega
            · have := hh e he; simp only at this; omega
          · simp [hy, hx]
        | written c => by_cases hx : x = a <;> simp [read_cons, hy, hx, eq_comm (a := a)]

/-- A run of writes keeps the canonical form. -/
theorem wf_writeBytes {m : Memory} (h : Memory.wf m) (a : Nat) (f : Nat → RegByte) (n : Nat) :
    Memory.wf (Memory.writeBytes m a f n) := by
  induction n with
  | zero => exact h
  | succ n ih => exact wf_write ih _ _

/-- A read after a run of writes (R51, R52). -/
theorem read_writeBytes {m : Memory} (h : Memory.wf m) (a : Nat) (f : Nat → RegByte) (n x : Nat) :
    Memory.read (Memory.writeBytes m a f n) x = if a ≤ x ∧ x < a + n then f (x - a) else Memory.read m x := by
  induction n with
  | zero => simp only [Memory.writeBytes]; rw [if_neg (by omega)]
  | succ n ih =>
    rw [Memory.writeBytes, read_write (wf_writeBytes h a f n), ih]
    by_cases hx : x = a + n
    · subst hx; simp
    · rw [if_neg hx]
      by_cases h2 : a ≤ x ∧ x < a + n
      · rw [if_pos h2, if_pos (by omega)]
      · rw [if_neg h2, if_neg (by omega)]

/-- Every listed address after a run of writes was listed before or is in the run. -/
theorem mem_writeBytes {m : Memory} {a : Nat} {f : Nat → RegByte} {n : Nat} {c : Host.Cell}
    (h : c ∈ Memory.writeBytes m a f n) : (a ≤ c.1 ∧ c.1 < a + n) ∨ c ∈ m := by
  induction n with
  | zero => exact .inr h
  | succ n ih =>
    rcases mem_write h with h | h
    · exact .inl (by omega)
    · rcases ih h with h | h
      · exact .inl (by omega)
      · exact .inr h

/-- Two canonical memories that read alike at every address are the same list. -/
theorem ext {m m' : Memory} (h : Memory.wf m) (h' : Memory.wf m') (hr : ∀ a, Memory.read m a = Memory.read m' a) :
    m = m' := by
  induction m generalizing m' with
  | nil =>
    cases m' with
    | nil => rfl
    | cons c _ => have := hr c.1; rw [show c = (c.1, c.2) from rfl, read_cons] at this; simp at this
  | cons c m ih =>
    obtain ⟨x, b⟩ := c
    cases m' with
    | nil => have := hr x; simp [read_cons] at this
    | cons c' m' =>
      obtain ⟨y, b'⟩ := c'
      have key : ∀ {x y : Nat} {b b' : Byte} {m m' : Memory}, Memory.wf ((x, b) :: m) → Memory.wf ((y, b') :: m') →
          (∀ a, Memory.read ((x, b) :: m) a = Memory.read ((y, b') :: m') a) → ¬x < y := by
        intro x y b b' m m' _ h' hr hlt
        have h1 := hr x
        rw [read_cons, if_pos rfl, read_eq_unwritten (m := (y, b') :: m')] at h1
        · exact RegByte.noConfusion h1
        · intro e he
          rcases List.mem_cons.mp he with rfl | he
          · exact hlt
          · exact Nat.lt_trans hlt (wf_head h' e he)
      have hxy : x = y := Nat.le_antisymm (Nat.le_of_not_lt (key h' h fun a => (hr a).symm)) (Nat.le_of_not_lt (key h h' hr))
      subst hxy
      have hb : b = b' := by have := hr x; simpa [read_cons] using this
      subst hb
      congr 1
      refine ih (wf_tail h) (wf_tail h') fun a => ?_
      by_cases ha : x = a
      · subst ha
        rw [read_eq_unwritten (wf_head h), read_eq_unwritten (wf_head h')]
      · simpa [read_cons, ha] using hr a

end Sys2Proof.Machine.Memory
end

