-- ==== Sys2Proof/Laws/State.lean ====
section
/-!
SUPPORT. Each named update of State against each field: what it sets and what it leaves. All hold by definition, so no
later proof unfolds a record update.
-/
namespace Sys2Proof.Machine

/-! ## setReg -/

@[simp] theorem setReg_cfg (s : State) (r : VReg) (v : List RegByte) : (s.setReg r v).cfg = s.cfg := rfl
@[simp] theorem setReg_regs (s : State) (r : VReg) (v : List RegByte) : (s.setReg r v).regs = s.regs.set r v := rfl
@[simp] theorem setReg_spm (s : State) (r : VReg) (v : List RegByte) : (s.setReg r v).spm = s.spm := rfl
@[simp] theorem setReg_queue (s : State) (r : VReg) (v : List RegByte) : (s.setReg r v).queue = s.queue := rfl
@[simp] theorem setReg_cmdLo (s : State) (r : VReg) (v : List RegByte) : (s.setReg r v).cmdLo = s.cmdLo := rfl
@[simp] theorem setReg_cseq (s : State) (r : VReg) (v : List RegByte) : (s.setReg r v).cseq = s.cseq := rfl
@[simp] theorem setReg_en (s : State) (r : VReg) (v : List RegByte) : (s.setReg r v).en = s.en := rfl
@[simp] theorem setReg_ieDone (s : State) (r : VReg) (v : List RegByte) : (s.setReg r v).ieDone = s.ieDone := rfl
@[simp] theorem setReg_ieErr (s : State) (r : VReg) (v : List RegByte) : (s.setReg r v).ieErr = s.ieErr := rfl
@[simp] theorem setReg_done (s : State) (r : VReg) (v : List RegByte) : (s.setReg r v).done = s.done := rfl
@[simp] theorem setReg_err (s : State) (r : VReg) (v : List RegByte) : (s.setReg r v).err = s.err := rfl
@[simp] theorem setReg_dropped (s : State) (r : VReg) (v : List RegByte) : (s.setReg r v).dropped = s.dropped := rfl
@[simp] theorem setReg_cause (s : State) (r : VReg) (v : List RegByte) : (s.setReg r v).cause = s.cause := rfl
@[simp] theorem setReg_faultIdx (s : State) (r : VReg) (v : List RegByte) : (s.setReg r v).faultIdx = s.faultIdx := rfl
@[simp] theorem setReg_faultInfo (s : State) (r : VReg) (v : List RegByte) : (s.setReg r v).faultInfo = s.faultInfo := rfl
@[simp] theorem setReg_faultCmd (s : State) (r : VReg) (v : List RegByte) : (s.setReg r v).faultCmd = s.faultCmd := rfl
@[simp] theorem setReg_sigVal (s : State) (r : VReg) (v : List RegByte) : (s.setReg r v).sigVal = s.sigVal := rfl
@[simp] theorem setReg_agenda (s : State) (r : VReg) (v : List RegByte) : (s.setReg r v).agenda = s.agenda := rfl
@[simp] theorem setReg_response (s : State) (r : VReg) (v : List RegByte) : (s.setReg r v).response = s.response := rfl
@[simp] theorem setReg_draws (s : State) (r : VReg) (v : List RegByte) : (s.setReg r v).draws = s.draws := rfl

/-! ## lanesWr -/

@[simp] theorem lanesWr_cfg (s : State) {es : Nat} (r : VReg) (L : List (BitVec (8 * es))) : (s.lanesWr r L).cfg = s.cfg := rfl
@[simp] theorem lanesWr_regs (s : State) {es : Nat} (r : VReg) (L : List (BitVec (8 * es))) : (s.lanesWr r L).regs = s.regs.set r (s.regOf fun j =>
      .written (if j < L.length * es then byteOf (L.getD (j / es) 0) (j % es) else 0)) := rfl
@[simp] theorem lanesWr_spm (s : State) {es : Nat} (r : VReg) (L : List (BitVec (8 * es))) : (s.lanesWr r L).spm = s.spm := rfl
@[simp] theorem lanesWr_queue (s : State) {es : Nat} (r : VReg) (L : List (BitVec (8 * es))) : (s.lanesWr r L).queue = s.queue := rfl
@[simp] theorem lanesWr_cmdLo (s : State) {es : Nat} (r : VReg) (L : List (BitVec (8 * es))) : (s.lanesWr r L).cmdLo = s.cmdLo := rfl
@[simp] theorem lanesWr_cseq (s : State) {es : Nat} (r : VReg) (L : List (BitVec (8 * es))) : (s.lanesWr r L).cseq = s.cseq := rfl
@[simp] theorem lanesWr_en (s : State) {es : Nat} (r : VReg) (L : List (BitVec (8 * es))) : (s.lanesWr r L).en = s.en := rfl
@[simp] theorem lanesWr_ieDone (s : State) {es : Nat} (r : VReg) (L : List (BitVec (8 * es))) : (s.lanesWr r L).ieDone = s.ieDone := rfl
@[simp] theorem lanesWr_ieErr (s : State) {es : Nat} (r : VReg) (L : List (BitVec (8 * es))) : (s.lanesWr r L).ieErr = s.ieErr := rfl
@[simp] theorem lanesWr_done (s : State) {es : Nat} (r : VReg) (L : List (BitVec (8 * es))) : (s.lanesWr r L).done = s.done := rfl
@[simp] theorem lanesWr_err (s : State) {es : Nat} (r : VReg) (L : List (BitVec (8 * es))) : (s.lanesWr r L).err = s.err := rfl
@[simp] theorem lanesWr_dropped (s : State) {es : Nat} (r : VReg) (L : List (BitVec (8 * es))) : (s.lanesWr r L).dropped = s.dropped := rfl
@[simp] theorem lanesWr_cause (s : State) {es : Nat} (r : VReg) (L : List (BitVec (8 * es))) : (s.lanesWr r L).cause = s.cause := rfl
@[simp] theorem lanesWr_faultIdx (s : State) {es : Nat} (r : VReg) (L : List (BitVec (8 * es))) : (s.lanesWr r L).faultIdx = s.faultIdx := rfl
@[simp] theorem lanesWr_faultInfo (s : State) {es : Nat} (r : VReg) (L : List (BitVec (8 * es))) : (s.lanesWr r L).faultInfo = s.faultInfo := rfl
@[simp] theorem lanesWr_faultCmd (s : State) {es : Nat} (r : VReg) (L : List (BitVec (8 * es))) : (s.lanesWr r L).faultCmd = s.faultCmd := rfl
@[simp] theorem lanesWr_sigVal (s : State) {es : Nat} (r : VReg) (L : List (BitVec (8 * es))) : (s.lanesWr r L).sigVal = s.sigVal := rfl
@[simp] theorem lanesWr_agenda (s : State) {es : Nat} (r : VReg) (L : List (BitVec (8 * es))) : (s.lanesWr r L).agenda = s.agenda := rfl
@[simp] theorem lanesWr_response (s : State) {es : Nat} (r : VReg) (L : List (BitVec (8 * es))) : (s.lanesWr r L).response = s.response := rfl
@[simp] theorem lanesWr_draws (s : State) {es : Nat} (r : VReg) (L : List (BitVec (8 * es))) : (s.lanesWr r L).draws = s.draws := rfl

/-! ## drew -/

@[simp] theorem drew_cfg (s : State) (k : Nat) : (s.drew k).cfg = s.cfg := rfl
@[simp] theorem drew_regs (s : State) (k : Nat) : (s.drew k).regs = s.regs := rfl
@[simp] theorem drew_spm (s : State) (k : Nat) : (s.drew k).spm = s.spm := rfl
@[simp] theorem drew_queue (s : State) (k : Nat) : (s.drew k).queue = s.queue := rfl
@[simp] theorem drew_cmdLo (s : State) (k : Nat) : (s.drew k).cmdLo = s.cmdLo := rfl
@[simp] theorem drew_cseq (s : State) (k : Nat) : (s.drew k).cseq = s.cseq := rfl
@[simp] theorem drew_en (s : State) (k : Nat) : (s.drew k).en = s.en := rfl
@[simp] theorem drew_ieDone (s : State) (k : Nat) : (s.drew k).ieDone = s.ieDone := rfl
@[simp] theorem drew_ieErr (s : State) (k : Nat) : (s.drew k).ieErr = s.ieErr := rfl
@[simp] theorem drew_done (s : State) (k : Nat) : (s.drew k).done = s.done := rfl
@[simp] theorem drew_err (s : State) (k : Nat) : (s.drew k).err = s.err := rfl
@[simp] theorem drew_dropped (s : State) (k : Nat) : (s.drew k).dropped = s.dropped := rfl
@[simp] theorem drew_cause (s : State) (k : Nat) : (s.drew k).cause = s.cause := rfl
@[simp] theorem drew_faultIdx (s : State) (k : Nat) : (s.drew k).faultIdx = s.faultIdx := rfl
@[simp] theorem drew_faultInfo (s : State) (k : Nat) : (s.drew k).faultInfo = s.faultInfo := rfl
@[simp] theorem drew_faultCmd (s : State) (k : Nat) : (s.drew k).faultCmd = s.faultCmd := rfl
@[simp] theorem drew_sigVal (s : State) (k : Nat) : (s.drew k).sigVal = s.sigVal := rfl
@[simp] theorem drew_agenda (s : State) (k : Nat) : (s.drew k).agenda = s.agenda := rfl
@[simp] theorem drew_response (s : State) (k : Nat) : (s.drew k).response = s.response := rfl
@[simp] theorem drew_draws (s : State) (k : Nat) : (s.drew k).draws = s.draws + k * s.cfg.vlenb := rfl

/-! ## retire -/

@[simp] theorem retire_cfg (s : State) : (retire s).cfg = s.cfg := rfl
@[simp] theorem retire_regs (s : State) : (retire s).regs = s.regs := rfl
@[simp] theorem retire_spm (s : State) : (retire s).spm = s.spm := rfl
@[simp] theorem retire_queue (s : State) : (retire s).queue = s.queue.tail := rfl
@[simp] theorem retire_cmdLo (s : State) : (retire s).cmdLo = s.cmdLo := rfl
@[simp] theorem retire_cseq (s : State) : (retire s).cseq = s.cseq + 1 := rfl
@[simp] theorem retire_en (s : State) : (retire s).en = s.en := rfl
@[simp] theorem retire_ieDone (s : State) : (retire s).ieDone = s.ieDone := rfl
@[simp] theorem retire_ieErr (s : State) : (retire s).ieErr = s.ieErr := rfl
@[simp] theorem retire_done (s : State) : (retire s).done = s.done := rfl
@[simp] theorem retire_err (s : State) : (retire s).err = s.err := rfl
@[simp] theorem retire_dropped (s : State) : (retire s).dropped = s.dropped := rfl
@[simp] theorem retire_cause (s : State) : (retire s).cause = s.cause := rfl
@[simp] theorem retire_faultIdx (s : State) : (retire s).faultIdx = s.faultIdx := rfl
@[simp] theorem retire_faultInfo (s : State) : (retire s).faultInfo = s.faultInfo := rfl
@[simp] theorem retire_faultCmd (s : State) : (retire s).faultCmd = s.faultCmd := rfl
@[simp] theorem retire_sigVal (s : State) : (retire s).sigVal = s.sigVal := rfl
@[simp] theorem retire_agenda (s : State) : (retire s).agenda = s.agenda := rfl
@[simp] theorem retire_response (s : State) : (retire s).response = s.response := rfl
@[simp] theorem retire_draws (s : State) : (retire s).draws = s.draws := rfl

/-! ## takeFault -/

@[simp] theorem takeFault_cfg (s : State) (c : Cause) (info : Word) (w : CmdWord) : (takeFault c info w s).cfg = s.cfg := rfl
@[simp] theorem takeFault_regs (s : State) (c : Cause) (info : Word) (w : CmdWord) : (takeFault c info w s).regs = s.regs := rfl
@[simp] theorem takeFault_spm (s : State) (c : Cause) (info : Word) (w : CmdWord) : (takeFault c info w s).spm = s.spm := rfl
@[simp] theorem takeFault_queue (s : State) (c : Cause) (info : Word) (w : CmdWord) : (takeFault c info w s).queue = [] := rfl
@[simp] theorem takeFault_cmdLo (s : State) (c : Cause) (info : Word) (w : CmdWord) : (takeFault c info w s).cmdLo = s.cmdLo := rfl
@[simp] theorem takeFault_cseq (s : State) (c : Cause) (info : Word) (w : CmdWord) : (takeFault c info w s).cseq = s.cseq := rfl
@[simp] theorem takeFault_en (s : State) (c : Cause) (info : Word) (w : CmdWord) : (takeFault c info w s).en = s.en := rfl
@[simp] theorem takeFault_ieDone (s : State) (c : Cause) (info : Word) (w : CmdWord) : (takeFault c info w s).ieDone = s.ieDone := rfl
@[simp] theorem takeFault_ieErr (s : State) (c : Cause) (info : Word) (w : CmdWord) : (takeFault c info w s).ieErr = s.ieErr := rfl
@[simp] theorem takeFault_done (s : State) (c : Cause) (info : Word) (w : CmdWord) : (takeFault c info w s).done = s.done := rfl
@[simp] theorem takeFault_err (s : State) (c : Cause) (info : Word) (w : CmdWord) : (takeFault c info w s).err = true := rfl
@[simp] theorem takeFault_dropped (s : State) (c : Cause) (info : Word) (w : CmdWord) : (takeFault c info w s).dropped = s.dropped := rfl
@[simp] theorem takeFault_cause (s : State) (c : Cause) (info : Word) (w : CmdWord) : (takeFault c info w s).cause = c := rfl
@[simp] theorem takeFault_faultIdx (s : State) (c : Cause) (info : Word) (w : CmdWord) : (takeFault c info w s).faultIdx = s.cseq := rfl
@[simp] theorem takeFault_faultInfo (s : State) (c : Cause) (info : Word) (w : CmdWord) : (takeFault c info w s).faultInfo = info := rfl
@[simp] theorem takeFault_faultCmd (s : State) (c : Cause) (info : Word) (w : CmdWord) : (takeFault c info w s).faultCmd = w := rfl
@[simp] theorem takeFault_sigVal (s : State) (c : Cause) (info : Word) (w : CmdWord) : (takeFault c info w s).sigVal = s.sigVal := rfl
@[simp] theorem takeFault_agenda (s : State) (c : Cause) (info : Word) (w : CmdWord) : (takeFault c info w s).agenda = s.agenda := rfl
@[simp] theorem takeFault_response (s : State) (c : Cause) (info : Word) (w : CmdWord) : (takeFault c info w s).response = s.response := rfl
@[simp] theorem takeFault_draws (s : State) (c : Cause) (info : Word) (w : CmdWord) : (takeFault c info w s).draws = s.draws := rfl

/-! ## raise -/

@[simp] theorem raise_cfg (s : State) (c : Cause) (info : Word) : (raise c info s).cfg = s.cfg := rfl
@[simp] theorem raise_regs (s : State) (c : Cause) (info : Word) : (raise c info s).regs = s.regs := rfl
@[simp] theorem raise_spm (s : State) (c : Cause) (info : Word) : (raise c info s).spm = s.spm := rfl
@[simp] theorem raise_queue (s : State) (c : Cause) (info : Word) : (raise c info s).queue = [] := rfl
@[simp] theorem raise_cmdLo (s : State) (c : Cause) (info : Word) : (raise c info s).cmdLo = s.cmdLo := rfl
@[simp] theorem raise_cseq (s : State) (c : Cause) (info : Word) : (raise c info s).cseq = s.cseq := rfl
@[simp] theorem raise_en (s : State) (c : Cause) (info : Word) : (raise c info s).en = s.en := rfl
@[simp] theorem raise_ieDone (s : State) (c : Cause) (info : Word) : (raise c info s).ieDone = s.ieDone := rfl
@[simp] theorem raise_ieErr (s : State) (c : Cause) (info : Word) : (raise c info s).ieErr = s.ieErr := rfl
@[simp] theorem raise_done (s : State) (c : Cause) (info : Word) : (raise c info s).done = s.done := rfl
@[simp] theorem raise_err (s : State) (c : Cause) (info : Word) : (raise c info s).err = true := rfl
@[simp] theorem raise_dropped (s : State) (c : Cause) (info : Word) : (raise c info s).dropped = s.dropped := rfl
@[simp] theorem raise_cause (s : State) (c : Cause) (info : Word) : (raise c info s).cause = c := rfl
@[simp] theorem raise_faultIdx (s : State) (c : Cause) (info : Word) : (raise c info s).faultIdx = s.cseq := rfl
@[simp] theorem raise_faultInfo (s : State) (c : Cause) (info : Word) : (raise c info s).faultInfo = info := rfl
@[simp] theorem raise_faultCmd (s : State) (c : Cause) (info : Word) : (raise c info s).faultCmd = s.headWord := rfl
@[simp] theorem raise_sigVal (s : State) (c : Cause) (info : Word) : (raise c info s).sigVal = s.sigVal := rfl
@[simp] theorem raise_agenda (s : State) (c : Cause) (info : Word) : (raise c info s).agenda = s.agenda := rfl
@[simp] theorem raise_response (s : State) (c : Cause) (info : Word) : (raise c info s).response = s.response := rfl
@[simp] theorem raise_draws (s : State) (c : Cause) (info : Word) : (raise c info s).draws = s.draws := rfl

/-! ## loadBytes -/

@[simp] theorem loadBytes_cfg (s : State) (vd : VReg) (a nb : Nat) (index : Nat → Nat) : (loadBytes vd a nb index s).cfg = s.cfg := rfl
@[simp] theorem loadBytes_regs (s : State) (vd : VReg) (a nb : Nat) (index : Nat → Nat) : (loadBytes vd a nb index s).regs = s.regs.set vd (s.regOf fun j =>
      if j < nb then Memory.read s.spm (a + index j) else .written 0) := rfl
@[simp] theorem loadBytes_spm (s : State) (vd : VReg) (a nb : Nat) (index : Nat → Nat) : (loadBytes vd a nb index s).spm = s.spm := rfl
@[simp] theorem loadBytes_queue (s : State) (vd : VReg) (a nb : Nat) (index : Nat → Nat) : (loadBytes vd a nb index s).queue = s.queue := rfl
@[simp] theorem loadBytes_cmdLo (s : State) (vd : VReg) (a nb : Nat) (index : Nat → Nat) : (loadBytes vd a nb index s).cmdLo = s.cmdLo := rfl
@[simp] theorem loadBytes_cseq (s : State) (vd : VReg) (a nb : Nat) (index : Nat → Nat) : (loadBytes vd a nb index s).cseq = s.cseq := rfl
@[simp] theorem loadBytes_en (s : State) (vd : VReg) (a nb : Nat) (index : Nat → Nat) : (loadBytes vd a nb index s).en = s.en := rfl
@[simp] theorem loadBytes_ieDone (s : State) (vd : VReg) (a nb : Nat) (index : Nat → Nat) : (loadBytes vd a nb index s).ieDone = s.ieDone := rfl
@[simp] theorem loadBytes_ieErr (s : State) (vd : VReg) (a nb : Nat) (index : Nat → Nat) : (loadBytes vd a nb index s).ieErr = s.ieErr := rfl
@[simp] theorem loadBytes_done (s : State) (vd : VReg) (a nb : Nat) (index : Nat → Nat) : (loadBytes vd a nb index s).done = s.done := rfl
@[simp] theorem loadBytes_err (s : State) (vd : VReg) (a nb : Nat) (index : Nat → Nat) : (loadBytes vd a nb index s).err = s.err := rfl
@[simp] theorem loadBytes_dropped (s : State) (vd : VReg) (a nb : Nat) (index : Nat → Nat) : (loadBytes vd a nb index s).dropped = s.dropped := rfl
@[simp] theorem loadBytes_cause (s : State) (vd : VReg) (a nb : Nat) (index : Nat → Nat) : (loadBytes vd a nb index s).cause = s.cause := rfl
@[simp] theorem loadBytes_faultIdx (s : State) (vd : VReg) (a nb : Nat) (index : Nat → Nat) : (loadBytes vd a nb index s).faultIdx = s.faultIdx := rfl
@[simp] theorem loadBytes_faultInfo (s : State) (vd : VReg) (a nb : Nat) (index : Nat → Nat) : (loadBytes vd a nb index s).faultInfo = s.faultInfo := rfl
@[simp] theorem loadBytes_faultCmd (s : State) (vd : VReg) (a nb : Nat) (index : Nat → Nat) : (loadBytes vd a nb index s).faultCmd = s.faultCmd := rfl
@[simp] theorem loadBytes_sigVal (s : State) (vd : VReg) (a nb : Nat) (index : Nat → Nat) : (loadBytes vd a nb index s).sigVal = s.sigVal := rfl
@[simp] theorem loadBytes_agenda (s : State) (vd : VReg) (a nb : Nat) (index : Nat → Nat) : (loadBytes vd a nb index s).agenda = s.agenda := rfl
@[simp] theorem loadBytes_response (s : State) (vd : VReg) (a nb : Nat) (index : Nat → Nat) : (loadBytes vd a nb index s).response = s.response := rfl
@[simp] theorem loadBytes_draws (s : State) (vd : VReg) (a nb : Nat) (index : Nat → Nat) : (loadBytes vd a nb index s).draws = s.draws := rfl

/-! ## storeBytes -/

@[simp] theorem storeBytes_cfg (s : State) (vs : VReg) (a nb : Nat) (index : Nat → Nat) : (storeBytes vs a nb index s).cfg = s.cfg := rfl
@[simp] theorem storeBytes_regs (s : State) (vs : VReg) (a nb : Nat) (index : Nat → Nat) : (storeBytes vs a nb index s).regs = s.regs := rfl
@[simp] theorem storeBytes_spm (s : State) (vs : VReg) (a nb : Nat) (index : Nat → Nat) : (storeBytes vs a nb index s).spm = Memory.writeBytes s.spm a (fun j => s.regByte vs (index j)) nb := rfl
@[simp] theorem storeBytes_queue (s : State) (vs : VReg) (a nb : Nat) (index : Nat → Nat) : (storeBytes vs a nb index s).queue = s.queue := rfl
@[simp] theorem storeBytes_cmdLo (s : State) (vs : VReg) (a nb : Nat) (index : Nat → Nat) : (storeBytes vs a nb index s).cmdLo = s.cmdLo := rfl
@[simp] theorem storeBytes_cseq (s : State) (vs : VReg) (a nb : Nat) (index : Nat → Nat) : (storeBytes vs a nb index s).cseq = s.cseq := rfl
@[simp] theorem storeBytes_en (s : State) (vs : VReg) (a nb : Nat) (index : Nat → Nat) : (storeBytes vs a nb index s).en = s.en := rfl
@[simp] theorem storeBytes_ieDone (s : State) (vs : VReg) (a nb : Nat) (index : Nat → Nat) : (storeBytes vs a nb index s).ieDone = s.ieDone := rfl
@[simp] theorem storeBytes_ieErr (s : State) (vs : VReg) (a nb : Nat) (index : Nat → Nat) : (storeBytes vs a nb index s).ieErr = s.ieErr := rfl
@[simp] theorem storeBytes_done (s : State) (vs : VReg) (a nb : Nat) (index : Nat → Nat) : (storeBytes vs a nb index s).done = s.done := rfl
@[simp] theorem storeBytes_err (s : State) (vs : VReg) (a nb : Nat) (index : Nat → Nat) : (storeBytes vs a nb index s).err = s.err := rfl
@[simp] theorem storeBytes_dropped (s : State) (vs : VReg) (a nb : Nat) (index : Nat → Nat) : (storeBytes vs a nb index s).dropped = s.dropped := rfl
@[simp] theorem storeBytes_cause (s : State) (vs : VReg) (a nb : Nat) (index : Nat → Nat) : (storeBytes vs a nb index s).cause = s.cause := rfl
@[simp] theorem storeBytes_faultIdx (s : State) (vs : VReg) (a nb : Nat) (index : Nat → Nat) : (storeBytes vs a nb index s).faultIdx = s.faultIdx := rfl
@[simp] theorem storeBytes_faultInfo (s : State) (vs : VReg) (a nb : Nat) (index : Nat → Nat) : (storeBytes vs a nb index s).faultInfo = s.faultInfo := rfl
@[simp] theorem storeBytes_faultCmd (s : State) (vs : VReg) (a nb : Nat) (index : Nat → Nat) : (storeBytes vs a nb index s).faultCmd = s.faultCmd := rfl
@[simp] theorem storeBytes_sigVal (s : State) (vs : VReg) (a nb : Nat) (index : Nat → Nat) : (storeBytes vs a nb index s).sigVal = s.sigVal := rfl
@[simp] theorem storeBytes_agenda (s : State) (vs : VReg) (a nb : Nat) (index : Nat → Nat) : (storeBytes vs a nb index s).agenda = s.agenda := rfl
@[simp] theorem storeBytes_response (s : State) (vs : VReg) (a nb : Nat) (index : Nat → Nat) : (storeBytes vs a nb index s).response = s.response := rfl
@[simp] theorem storeBytes_draws (s : State) (vs : VReg) (a nb : Nat) (index : Nat → Nat) : (storeBytes vs a nb index s).draws = s.draws := rfl

/-! ## clearErr -/

@[simp] theorem clearErr_cfg (s : State) : (clearErr s).cfg = s.cfg := rfl
@[simp] theorem clearErr_regs (s : State) : (clearErr s).regs = s.regs := rfl
@[simp] theorem clearErr_spm (s : State) : (clearErr s).spm = s.spm := rfl
@[simp] theorem clearErr_queue (s : State) : (clearErr s).queue = s.queue := rfl
@[simp] theorem clearErr_cmdLo (s : State) : (clearErr s).cmdLo = s.cmdLo := rfl
@[simp] theorem clearErr_cseq (s : State) : (clearErr s).cseq = s.cseq := rfl
@[simp] theorem clearErr_en (s : State) : (clearErr s).en = s.en := rfl
@[simp] theorem clearErr_ieDone (s : State) : (clearErr s).ieDone = s.ieDone := rfl
@[simp] theorem clearErr_ieErr (s : State) : (clearErr s).ieErr = s.ieErr := rfl
@[simp] theorem clearErr_done (s : State) : (clearErr s).done = s.done := rfl
@[simp] theorem clearErr_err (s : State) : (clearErr s).err = false := rfl
@[simp] theorem clearErr_dropped (s : State) : (clearErr s).dropped = s.dropped := rfl
@[simp] theorem clearErr_cause (s : State) : (clearErr s).cause = .none := rfl
@[simp] theorem clearErr_faultIdx (s : State) : (clearErr s).faultIdx = s.faultIdx := rfl
@[simp] theorem clearErr_faultInfo (s : State) : (clearErr s).faultInfo = s.faultInfo := rfl
@[simp] theorem clearErr_faultCmd (s : State) : (clearErr s).faultCmd = s.faultCmd := rfl
@[simp] theorem clearErr_sigVal (s : State) : (clearErr s).sigVal = s.sigVal := rfl
@[simp] theorem clearErr_agenda (s : State) : (clearErr s).agenda = s.agenda := rfl
@[simp] theorem clearErr_response (s : State) : (clearErr s).response = s.response := rfl
@[simp] theorem clearErr_draws (s : State) : (clearErr s).draws = s.draws := rfl

end Sys2Proof.Machine
end

