-- ==== Sys2Proof/Laws/Registers.lean ====
section
/-!
SUPPORT. Registers and lanes: what a read returns after a write (R20, R22, R23).
-/
namespace Sys2Proof.Machine

theorem esize_pos (t : EType) : 0 < t.esize := by cases t <;> decide

theorem reg_setReg (s : State) (r : VReg) (v : List RegByte) (q : VReg) :
    (s.setReg r v).reg q = if q = r then v else s.reg q := by
  simp only [State.reg, setReg_regs, Vector.get_eq_getElem, Vector.getElem_set]
  by_cases h : q = r
  · simp [h]
  · have : ¬r.val = q.val := fun e => h (Fin.ext e.symm)
    simp [h, this]

/-- A command's reads of a register depend on that register, the draws and the parameters alone. -/
theorem lane_congr {s u : State} {k r es i} (hr : u.reg r = s.reg r) (hd : u.draws = s.draws) (hc : u.cfg = s.cfg) :
    u.lane k r es i = s.lane k r es i := by
  simp only [State.lane, State.regByte, hr, hd, hc]

@[simp] theorem lanesRd_length (s : State) (k : Nat) (r : VReg) (es n : Nat) : (s.lanesRd k r es n).length = n := by
  simp [State.lanesRd]

theorem lanesRd_getD (s : State) (k : Nat) (r : VReg) (es : Nat) {n i : Nat} (h : i < n) :
    (s.lanesRd k r es n).getD i 0 = s.lane k r es i := by
  simp [State.lanesRd, List.getD_eq_getElem?_getD, h]

/-- A list of lanes is what its lanes are. -/
theorem lanesRd_ext {s : State} {k : Nat} {r : VReg} {es n : Nat} {L : List (BitVec (8 * es))} (hL : L.length = n)
    (h : ∀ i < n, s.lane k r es i = L.getD i 0) : s.lanesRd k r es n = L := by
  apply List.ext_getElem (by simp [hL])
  intro i h1 h2
  have := h i (by simpa using h1)
  simp [State.lanesRd, this, List.getD_eq_getElem?_getD, h2]

@[simp] theorem regOf_length (s : State) (f : Nat → RegByte) : (s.regOf f).length = s.cfg.vlenb := by
  simp [State.regOf]

theorem regOf_getD (s : State) (f : Nat → RegByte) {j : Nat} (h : j < s.cfg.vlenb) :
    (s.regOf f).getD j .unwritten = f j := by
  simp [State.regOf, List.getD_eq_getElem?_getD, h]

theorem regByte_setReg_regOf (s : State) (r : VReg) (f : Nat → RegByte) {j : Nat} (h : j < s.cfg.vlenb) :
    (s.setReg r (s.regOf f)).regByte r j = f j := by
  simp only [State.regByte, reg_setReg, if_true, regOf_getD s f h]

theorem reg_lanesWr {es : Nat} (s : State) (r : VReg) (L : List (BitVec (8 * es))) {q : VReg} (h : q ≠ r) :
    (s.lanesWr r L).reg q = s.reg q := by
  simp only [State.lanesWr, reg_setReg, if_neg h]

theorem reg_lanesWr_length {es : Nat} (s : State) (r : VReg) (L : List (BitVec (8 * es))) :
    ((s.lanesWr r L).reg r).length = s.cfg.vlenb := by
  simp [State.lanesWr, reg_setReg]

/-- Every byte of a written register, lanes and zero tail (R23). -/
theorem regByte_lanesWr {es : Nat} (s : State) (r : VReg) (L : List (BitVec (8 * es))) {j : Nat}
    (h : j < s.cfg.vlenb) :
    (s.lanesWr r L).regByte r j =
      .written (if j < L.length * es then byteOf (L.getD (j / es) 0) (j % es) else 0) :=
  regByte_setReg_regOf s r _ h

/-- A lane that was written reads back, whichever operand reads it (R22, R23). -/
theorem lane_lanesWr {es : Nat} (hes : 0 < es) (s : State) (r : VReg) (L : List (BitVec (8 * es))) (k : Nat) {i : Nat}
    (hi : i < L.length) (hfit : L.length * es ≤ s.cfg.vlenb) : (s.lanesWr r L).lane k r es i = L.getD i 0 := by
  rw [State.lane, ← laneOfBytes_byteOf (L.getD i 0)]
  apply laneOfBytes_congr
  intro b hb
  have h1 : (i + 1) * es ≤ L.length * es := Nat.mul_le_mul_right es hi
  rw [Nat.add_one_mul] at h1
  rw [regByte_lanesWr s r L (by omega), if_pos (by omega), RegByte.value_written]
  congr 1
  · congr 1
    rw [Nat.mul_comm, Nat.mul_add_div hes, Nat.div_eq_of_lt hb, Nat.add_zero]
  · rw [Nat.mul_comm, Nat.mul_add_mod, Nat.mod_eq_of_lt hb]

/-- A list of lanes that was written reads back (R22, R23). -/
theorem lanesRd_lanesWr {es : Nat} (hes : 0 < es) (s : State) (r : VReg) (L : List (BitVec (8 * es))) (k : Nat)
    (hfit : L.length * es ≤ s.cfg.vlenb) : (s.lanesWr r L).lanesRd k r es L.length = L :=
  lanesRd_ext rfl fun _ hi => lane_lanesWr hes s r L k hi hfit

end Sys2Proof.Machine
end

