-- ==== Sys2Proof/Laws/Command.lean ====
section
/-!
SUPPORT. What a command can do: its checks (R216), its retirement or its fault (R140), and, for each shared operation
of the families, its outcome.
-/
namespace Sys2Proof.Machine

/-! ## Checks -/

@[simp] theorem firstFault_nil : firstFault [] = none := rfl

theorem firstFault_cons (c : Check) (cs : List Check) :
    firstFault (c :: cs) = if c.fails then some (c.cause, c.info) else firstFault cs := rfl

theorem firstFault_eq_none {cs : List Check} : firstFault cs = none ↔ ∀ c ∈ cs, c.fails = false := by
  induction cs with
  | nil => simp
  | cons c cs ih =>
    rw [firstFault_cons]
    cases h : c.fails <;> simp [h, ih]

/-- The fault reported is one of the checks that fail, and every check before it passes (R216). -/
theorem firstFault_eq_some {cs : List Check} {c : Cause} {info : Word} (h : firstFault cs = some (c, info)) :
    ∃ before k after, cs = before ++ k :: after ∧ (∀ d ∈ before, d.fails = false) ∧ k.fails = true ∧
      k.cause = c ∧ k.info = info := by
  induction cs with
  | nil => simp at h
  | cons d cs ih =>
    rw [firstFault_cons] at h
    cases hd : d.fails with
    | true =>
      simp only [hd, if_true, Option.some.injEq, Prod.mk.injEq] at h
      exact ⟨[], d, cs, rfl, by simp, hd, h.1, h.2⟩
    | false =>
      rw [hd] at h
      obtain ⟨b, k, a, rfl, hb, hk⟩ := ih (by simpa using h)
      exact ⟨d :: b, k, a, rfl, by simpa [hd] using hb, hk⟩

@[simp] theorem widthCheck_fails (b : Bool) : (widthCheck b).fails = b := rfl
@[simp] theorem rangeCheck_fails (b : Bool) : (rangeCheck b).fails = b := rfl
@[simp] theorem typeCheck_fails (b : Bool) : (typeCheck b).fails = !b := rfl
@[simp] theorem sameDestCheck_fails (vd vd2 : VReg) : (sameDestCheck vd vd2).fails = (vd == vd2) := rfl

theorem tooWide_eq_false {s : State} {bytes : Nat} : s.tooWide bytes = false ↔ bytes ≤ s.cfg.vlenb := by
  simp [State.tooWide]

theorem tooWide_eq_true {s : State} {bytes : Nat} : s.tooWide bytes = true ↔ s.cfg.vlenb < bytes := by
  simp [State.tooWide]

/-! ## A command -/

/-- A command whose checks all pass performs its writes and retires (R140). -/
theorem command_ok {checks : List Check} {perform : State → State} {s : State} (h : firstFault checks = none) :
    command checks perform s = .next (retire (perform s)) := by
  rw [command, h]

/-- A command with a failing check takes the first one's fault (R213, R216). -/
theorem command_fault {checks : List Check} {perform : State → State} {s : State} {c : Cause} {info : Word}
    (h : firstFault checks = some (c, info)) : command checks perform s = .next (raise c info s) := by
  rw [command, h]

/-- Everything a command can do. -/
theorem command_cases (checks : List Check) (perform : State → State) (s : State) :
    (firstFault checks = none ∧ command checks perform s = .next (retire (perform s))) ∨
    ∃ c info, firstFault checks = some (c, info) ∧ command checks perform s = .next (raise c info s) := by
  cases h : firstFault checks with
  | none => exact .inl ⟨rfl, command_ok h⟩
  | some p => exact .inr ⟨p.1, p.2, rfl, command_fault h⟩

/-! ## Registers under the changes around a command -/

theorem reg_of_regs {s u : State} (h : u.regs = s.regs) (r : VReg) : u.reg r = s.reg r := by
  simp only [State.reg, h]

theorem regByte_of_regs {s u : State} (h : u.regs = s.regs) (r : VReg) (j : Nat) : u.regByte r j = s.regByte r j := by
  simp only [State.regByte, reg_of_regs h]

/-- A lane whose bytes are all written is those bytes, whichever operand reads it. -/
theorem lane_of_written {u : State} {r : VReg} {es i : Nat} {g : Nat → Byte}
    (h : ∀ b < es, u.regByte r (i * es + b) = .written (g b)) (k : Nat) : u.lane k r es i = laneOfBytes es g :=
  laneOfBytes_congr fun b hb => by rw [h b hb]; rfl

/-- Byte b of a lane that was written (R22). -/
theorem regByte_lanesWr_lane {es : Nat} (hes : 0 < es) (s : State) (r : VReg) (L : List (BitVec (8 * es)))
    (hfit : L.length * es ≤ s.cfg.vlenb) {i b : Nat} (hi : i < L.length) (hb : b < es) :
    (s.lanesWr r L).regByte r (i * es + b) = .written (byteOf (L.getD i 0) b) := by
  have h1 : (i + 1) * es ≤ L.length * es := Nat.mul_le_mul_right es hi
  rw [Nat.add_one_mul] at h1
  rw [regByte_lanesWr s r L (by omega), if_pos (by omega)]
  have hd : (i * es + b) / es = i := by rw [Nat.mul_comm, Nat.mul_add_div hes, Nat.div_eq_of_lt hb, Nat.add_zero]
  have hm : (i * es + b) % es = b := by rw [Nat.mul_comm, Nat.mul_add_mod, Nat.mod_eq_of_lt hb]
  rw [hd, hm]

/-- A register that was written with the lanes `L` holds them, in any state that agrees on the registers. -/
theorem holdsLanes_lanesWr {es : Nat} (hes : 0 < es) (s : State) (r : VReg) (L : List (BitVec (8 * es)))
    (hfit : L.length * es ≤ s.cfg.vlenb) {u : State} (hc : u.cfg = s.cfg) (hr : u.reg r = (s.lanesWr r L).reg r) :
    u.HoldsLanes r L.length fun i => L.getD i 0 := by
  have hb : ∀ j, u.regByte r j = (s.lanesWr r L).regByte r j := fun j => by simp only [State.regByte, hr]
  refine ⟨fun i hi k => ?_, fun j h1 h2 => ?_, fun j hj => ?_⟩
  · rw [lane_of_written (g := byteOf (L.getD i 0)) (fun b hlt => by rw [hb, regByte_lanesWr_lane hes s r L hfit hi hlt]),
      laneOfBytes_byteOf]
  · rw [hc] at h2
    rw [hb, regByte_lanesWr s r L h2, if_neg (by omega)]
  · rw [hc] at hj
    rw [hb, regByte_lanesWr s r L hj]
    exact RegByte.noConfusion

/-- `HoldsLanes` depends on the lanes named alone. -/
theorem HoldsLanes_congr {u : State} {r : VReg} {es n : Nat} {f g : Nat → BitVec (8 * es)} (h : u.HoldsLanes r n f)
    (hfg : ∀ i < n, f i = g i) : u.HoldsLanes r n g :=
  ⟨fun i hi k => (h.lanes i hi k).trans (hfg i hi), h.tail, h.defined⟩

/-! ## Retiring -/

/-- What retiring leaves, for writes to the registers `dest` alone. -/
theorem writesOnly_retire {s t : State} {dest : List VReg} (hregs : ∀ r, r ∉ dest → t.reg r = s.reg r)
    (hrest : t = { s with regs := t.regs, draws := t.draws }) : s.WritesOnly (retire t) dest := by
  have hf : ∀ r, r ∉ dest → (retire t).reg r = s.reg r := hregs
  generalize t.regs = R at hrest
  generalize t.draws = D at hrest
  subst hrest
  exact ⟨⟨rfl, rfl, rfl, rfl, rfl, rfl, rfl, rfl, rfl, rfl, rfl, rfl, rfl, rfl, rfl⟩, hf, fun _ => rfl, rfl, rfl⟩

/-- A command that writes the lanes `L` to `vd`, having read `k` registers, and retires. -/
theorem wroteLanes_retire {es : Nat} (hes : 0 < es) (s : State) (vd : VReg) (L : List (BitVec (8 * es))) (k : Nat)
    (hfit : L.length * es ≤ s.cfg.vlenb) :
    s.WroteLanes (retire ((s.lanesWr vd L).drew k)) vd L.length fun i => L.getD i 0 :=
  ⟨writesOnly_retire (fun r hr => reg_lanesWr s vd L (by simpa using hr)) rfl,
   holdsLanes_lanesWr hes s vd L hfit rfl rfl⟩

theorem WroteLanes_congr {s u : State} {vd : VReg} {es n : Nat} {f g : Nat → BitVec (8 * es)}
    (h : s.WroteLanes u vd n f) (hfg : ∀ i < n, f i = g i) : s.WroteLanes u vd n g :=
  ⟨h.only, HoldsLanes_congr h.holds hfg⟩

/-- As `wroteLanes_retire`, with the lanes described by a function. -/
theorem wroteLanes_of {es n : Nat} (hes : 0 < es) (s : State) (vd : VReg) (L : List (BitVec (8 * es))) (k : Nat)
    {f : Nat → BitVec (8 * es)} (hlen : L.length = n) (hfit : n * es ≤ s.cfg.vlenb)
    (hf : ∀ i < n, L.getD i 0 = f i) : s.WroteLanes (retire ((s.lanesWr vd L).drew k)) vd n f := by
  subst hlen
  exact WroteLanes_congr (wroteLanes_retire hes s vd L k hfit) hf

/-- A command that writes the lanes `A` to `vd` and `B` to another register `vd2`, and retires (R163, R165). -/
theorem wrotePair_of {es n : Nat} (hes : 0 < es) (s : State) {vd vd2 : VReg} (hne : vd ≠ vd2)
    (A B : List (BitVec (8 * es))) (k : Nat) {f g : Nat → BitVec (8 * es)} (hA : A.length = n) (hB : B.length = n)
    (hfit : n * es ≤ s.cfg.vlenb) (hf : ∀ i < n, A.getD i 0 = f i) (hg : ∀ i < n, B.getD i 0 = g i) :
    let u := retire (((s.lanesWr vd A).lanesWr vd2 B).drew k)
    s.WritesOnly u [vd, vd2] ∧ u.HoldsLanes vd n f ∧ u.HoldsLanes vd2 n g := by
  subst hA
  refine ⟨writesOnly_retire (fun r hr => ?_) rfl, ?_, ?_⟩
  · simp only [List.mem_cons, List.not_mem_nil, or_false, not_or] at hr
    exact (reg_lanesWr _ vd2 B hr.2).trans (reg_lanesWr s vd A hr.1)
  · exact HoldsLanes_congr (holdsLanes_lanesWr hes s vd A hfit rfl (reg_lanesWr _ vd2 B hne)) hf
  · rw [← hB]
    exact HoldsLanes_congr (holdsLanes_lanesWr hes (s.lanesWr vd A) vd2 B (by rw [hB]; exact hfit) rfl rfl)
      fun i hi => hg i (by omega)

/-! ## The shared operations of the families -/

/-- What a conversion leaves when its lanes fit (R104, R122). -/
theorem convert_ok {esS esD : Nat} (f : BitVec (8 * esS) → BitVec (8 * esD)) (vd vs : VReg) (n : LogCount) (s : State)
    (hS : 0 < esD) (hw : count n * max esS esD ≤ s.cfg.vlenb) :
    ∃ u, convert esS esD f vd vs n s = .next u ∧ s.WroteLanes u vd (count n) fun i => f (s.lane 0 vs esS i) := by
  refine ⟨_, command_ok (by simp [firstFault_cons, tooWide_eq_false.mpr hw]), ?_⟩
  refine wroteLanes_of hS s vd _ 1 (by simp) ?_ fun i hi => ?_
  · exact Nat.le_trans (Nat.mul_le_mul_left _ (Nat.le_max_right _ _)) hw
  · rw [getD_of_lt 0 (by simpa using hi)]
    simp [State.lanesRd]

/-- A conversion whose lanes do not fit faults with WIDTH (R122). -/
theorem convert_fault {esS esD : Nat} (f : BitVec (8 * esS) → BitVec (8 * esD)) (vd vs : VReg) (n : LogCount)
    (s : State) (hw : s.cfg.vlenb < count n * max esS esD) :
    convert esS esD f vd vs n s = .next (raise .width 0 s) :=
  command_fault (by simp [firstFault_cons, tooWide_eq_true.mpr hw, widthCheck])

/-- What a reduction leaves when its checks pass (R190, R191). -/
theorem reduction_ok (t : EType) (pre : BitVec (8 * t.esize) → BitVec (8 * t.esize))
    (op : BitVec (8 * t.esize) → BitVec (8 * t.esize) → BitVec (8 * t.esize)) (vd vs : VReg) (n o : LogCount)
    (s : State) (ho : o.val ≤ n.val) (hw : count n * t.esize ≤ s.cfg.vlenb) :
    ∃ u, reduction true t pre op vd vs n o s = .next u ∧
      s.WroteLanes u vd (count o) fun i =>
        (reduceTree op (n.val - o.val) ((s.lanesRd 0 vs t.esize (count n)).map pre)).getD i 0 := by
  have hlen : (reduceTree op (n.val - o.val) ((s.lanesRd 0 vs t.esize (count n)).map pre)).length = count o :=
    reduceTree_length op _ (j := o.val) (by rw [List.length_map, lanesRd_length, count]; congr 1; omega)
  refine ⟨_, command_ok (by simp [firstFault_cons, tooWide_eq_false.mpr hw]; omega), ?_⟩
  refine wroteLanes_of (esize_pos t) s vd _ 1 hlen ?_ fun i _ => rfl
  exact Nat.le_trans (Nat.mul_le_mul_right _ (Nat.pow_le_pow_right Nat.two_pos ho)) hw

/-- A reduction of an admitted type whose widths are not legal faults with WIDTH (R190). -/
theorem reduction_fault (t : EType) (pre : BitVec (8 * t.esize) → BitVec (8 * t.esize))
    (op : BitVec (8 * t.esize) → BitVec (8 * t.esize) → BitVec (8 * t.esize)) (vd vs : VReg) (n o : LogCount)
    (s : State) (h : s.cfg.vlenb < count n * t.esize ∨ n.val < o.val) :
    reduction true t pre op vd vs n o s = .next (raise .width 0 s) :=
  have hbad : (s.tooWide (count n * t.esize) || decide (n.val < o.val)) = true := by
    simpa [State.tooWide] using h
  command_fault (by rw [hbad]; rfl)

/-- What a command of one source and one destination leaves when its checks pass (R159). -/
theorem lanewise_ok (t : EType) (n : LogCount) (f : List (BitVec (8 * t.esize)) → List (BitVec (8 * t.esize)))
    (vd vs : VReg) (s : State) (hlen : ∀ v, (f v).length = v.length) (hw : count n * t.esize ≤ s.cfg.vlenb) :
    ∃ u, lanewise t n false f vd vs s = .next u ∧
      s.WroteLanes u vd (count n) fun i => (f (s.lanesRd 0 vs t.esize (count n))).getD i 0 :=
  ⟨_, command_ok (by simp [firstFault_cons, tooWide_eq_false.mpr hw]),
    wroteLanes_of (esize_pos t) s vd _ 1 (by rw [hlen, lanesRd_length]) hw fun i _ => rfl⟩

/-- A shuffle whose mask entries are all legal writes its lanes (R166, R167). -/
theorem shuffleFrom_ok {es : Nat} (hes : 0 < es) (vd : VReg) (n k : Nat) (c : List (BitVec (8 * es)))
    (mask : List (BitVec (8 * 2))) (s : State) (h : ∀ i < mask.length, (mask.getD i 0).toNat < 2 * n)
    (hfit : mask.length * es ≤ s.cfg.vlenb) :
    s.WroteLanes (shuffleFrom vd n k c mask s) vd mask.length fun i => c.getD (mask.getD i 0).toNat 0 := by
  rw [shuffleFrom, badEntry_eq_none.mpr h]
  exact wroteLanes_of hes s vd _ k (by simp) hfit fun i hi => shuffle_getD c hi

/-- A shuffle with a bad mask entry faults with RANGE at the lowest one (R166, R211). -/
theorem shuffleFrom_fault {es : Nat} (vd : VReg) (n k i : Nat) (c : List (BitVec (8 * es)))
    (mask : List (BitVec (8 * 2))) (s : State) (hi : i < mask.length) (hbad : 2 * n ≤ (mask.getD i 0).toNat)
    (hlow : ∀ j < i, (mask.getD j 0).toNat < 2 * n) :
    shuffleFrom vd n k c mask s = raise .range (maskInfo i) (s.drew k) := by
  rw [shuffleFrom, badEntry_eq_some.mpr ⟨hi, hbad, hlow⟩]

/-- The checks of a load or a store pass (R54). -/
theorem accessChecks_ok {s : State} {t : EType} {n : LogCount} {a : Word} (hw : count n * t.esize ≤ s.cfg.vlenb)
    (ha : a.toNat % t.esize = 0) (hb : a.toNat + count n * t.esize ≤ s.cfg.spmBytes) :
    firstFault (s.accessChecks t n a) = none := by
  simp [State.accessChecks, firstFault_cons, tooWide_eq_false.mpr hw, ha]
  exact hb

/-- Every byte of a loaded register (R146, R147). -/
theorem regByte_loadBytes (vd : VReg) (a nb : Nat) (index : Nat → Nat) (s : State) {j : Nat} (h : j < s.cfg.vlenb) :
    (loadBytes vd a nb index s).regByte vd j =
      if j < nb then Memory.read s.spm (a + index j) else .written 0 :=
  regByte_setReg_regOf s vd _ h

theorem reg_loadBytes (vd : VReg) (a nb : Nat) (index : Nat → Nat) (s : State) {r : VReg} (h : r ≠ vd) :
    (loadBytes vd a nb index s).reg r = s.reg r := by
  rw [loadBytes, reg_setReg, if_neg h]

/-- Every byte of the scratchpad after a store (R148, R149). -/
theorem read_storeBytes (vs : VReg) (a nb : Nat) (index : Nat → Nat) (s : State) (h : Memory.wf s.spm) (x : Nat) :
    Memory.read (storeBytes vs a nb index s).spm x =
      if a ≤ x ∧ x < a + nb then s.regByte vs (index (x - a)) else Memory.read s.spm x :=
  Memory.read_writeBytes h a _ nb x

end Sys2Proof.Machine
end

