-- ==== Sys2Proof/Laws/Decode.lean ====
section
/-!
SUPPORT. The encoding: the fields of a word (R71), the codes of opcodes and element types (R5, R77), and the immediate
sub-fields (R74), each taken apart and put together again.
-/
namespace Sys2Proof

/-- The fields of a packed word are the fields packed (R71, R88). -/
theorem Fields.unpack_pack (f : Fields) : Fields.unpack f.pack = f := by
  obtain ⟨opc, vd, vs1, vs2, et, logn, imm⟩ := f
  simp only [Fields.unpack, Fields.pack, Fields.mk.injEq]
  refine ⟨?_, ?_, ?_, ?_, ?_, ?_, ?_⟩ <;>
    · apply BitVec.eq_of_toNat_eq
      simp only [BitVec.extractLsb'_toNat, BitVec.toNat_append, Nat.shiftLeft_eq, Nat.shiftRight_eq_div_pow]
      simp only [← Nat.shiftLeft_eq, ← Nat.shiftLeft_add_eq_or_of_lt (BitVec.isLt _)]
      simp only [Nat.shiftLeft_eq]
      have h1 := opc.isLt; have h2 := vd.isLt; have h3 := vs1.isLt; have h4 := vs2.isLt
      have h5 := et.isLt; have h6 := logn.isLt; have h7 := imm.isLt
      omega

/-- A word is its fields: no bit belongs to none (R71). -/
theorem Fields.pack_unpack (w : CmdWord) : (Fields.unpack w).pack = w := by
  apply BitVec.eq_of_toNat_eq
  simp only [Fields.unpack, Fields.pack, BitVec.toNat_append]
  simp only [← Nat.shiftLeft_add_eq_or_of_lt (BitVec.isLt _)]
  simp only [BitVec.extractLsb'_toNat, Nat.shiftLeft_eq, Nat.shiftRight_eq_div_pow]
  have := w.isLt
  omega

/-! ## Codes -/

theorem Opcode.ofCode_code (op : Opcode) : Opcode.ofCode op.code = some op := by cases op <;> rfl

theorem EType.ofCode_code (t : EType) : EType.ofCode t.code = some t := by cases t <;> rfl

theorem Opcode.code_of_ofCode {c : BitVec 8} {op : Opcode} (h : Opcode.ofCode c = some op) : op.code = c := by
  simpa using List.find?_some h

theorem EType.code_of_ofCode {c : BitVec 5} {t : EType} (h : EType.ofCode c = some t) : t.code = c := by
  simpa using List.find?_some h

@[simp] theorem VReg.ofField_toField (r : VReg) : VReg.ofField r.toField = r := rfl
@[simp] theorem VReg.toField_ofField (b : BitVec 5) : (VReg.ofField b).toField = b := rfl
@[simp] theorem LogCount.ofField_toField (n : LogCount) : LogCount.ofField n.toField = n := rfl
@[simp] theorem LogCount.toField_ofField (b : BitVec 4) : (LogCount.ofField b).toField = b := rfl

/-! ## The immediate sub-fields (R74) -/

/-- A number below 2^k has no bit outside the low k. -/
theorem and_not_low {x : Word} {k : Nat} (h : x.toNat < 2 ^ k) : x &&& ~~~(BitVec.ofNat 32 (2 ^ k - 1)) = 0 := by
  apply BitVec.eq_of_getLsbD_eq
  intro i hi
  by_cases hk : i < k
  · simp [BitVec.getLsbD_ofNat, Nat.testBit_two_pow_sub_one, hk, hi]
  · have : x.getLsbD i = false :=
      Nat.testBit_lt_two_pow (Nat.lt_of_lt_of_le h (Nat.pow_le_pow_right Nat.two_pos (Nat.le_of_not_lt hk)))
    simp [this]

theorem immHalf_toNat (h : BitVec 16) : (immHalf h).toNat = h.toNat := by
  simp only [immHalf, BitVec.toNat_append]
  simp

theorem immHalf_low (h : BitVec 16) : (immHalf h).extractLsb' 0 16 = h := by
  apply BitVec.eq_of_toNat_eq
  simp only [BitVec.extractLsb'_toNat, immHalf_toNat, Nat.shiftRight_zero]
  exact Nat.mod_eq_of_lt h.isLt

theorem immHalf_rest (h : BitVec 16) : immHalf h &&& ~~~0x0000FFFF#32 = 0 :=
  and_not_low (k := 16) (by rw [immHalf_toNat]; exact h.isLt)

theorem immLog_low (n : LogCount) : LogCount.ofField ((immLog n).extractLsb' 0 4) = n := by
  revert n; decide

theorem immLog_rest (n : LogCount) : immLog n &&& ~~~0x0000000F#32 = 0 := by
  revert n; decide

theorem immOffLog_toNat (off : BitVec 16) (w : LogCount) :
    (immOffLog off w).toNat = w.val * 2 ^ 16 + off.toNat := by
  simp only [immOffLog, BitVec.toNat_append]
  rw [← Nat.shiftLeft_add_eq_or_of_lt off.isLt, Nat.shiftLeft_eq]
  simp [LogCount.toField]

theorem immOffLog_low (off : BitVec 16) (w : LogCount) : (immOffLog off w).extractLsb' 0 16 = off := by
  apply BitVec.eq_of_toNat_eq
  have := off.isLt
  simp only [BitVec.extractLsb'_toNat, immOffLog_toNat, Nat.shiftRight_zero]
  omega

theorem immOffLog_high (off : BitVec 16) (w : LogCount) :
    LogCount.ofField ((immOffLog off w).extractLsb' 16 4) = w := by
  apply Fin.ext
  have h1 := off.isLt
  have h2 := w.isLt
  show ((immOffLog off w).extractLsb' 16 4).toNat = w.val
  simp only [BitVec.extractLsb'_toNat, immOffLog_toNat, Nat.shiftRight_eq_div_pow]
  omega

theorem immOffLog_rest (off : BitVec 16) (w : LogCount) : immOffLog off w &&& ~~~0x000FFFFF#32 = 0 :=
  and_not_low (k := 20) (by have h1 := off.isLt; have h2 := w.isLt; rw [immOffLog_toNat]; omega)

theorem immReg_low (r : VReg) : VReg.ofField ((immReg r).extractLsb' 0 5) = r := by
  revert r; decide

theorem immReg_rest (r : VReg) : immReg r &&& ~~~0x0000001F#32 = 0 := by
  revert r; decide

theorem immLogReg_log (m : LogCount) (r : VReg) : LogCount.ofField ((immLogReg m r).extractLsb' 0 4) = m := by
  revert m r; decide

theorem immLogReg_reg (m : LogCount) (r : VReg) : VReg.ofField ((immLogReg m r).extractLsb' 8 5) = r := by
  revert m r; decide

theorem immLogReg_rest (m : LogCount) (r : VReg) : immLogReg m r &&& ~~~0x00001F0F#32 = 0 := by
  revert m r; decide

/-! ## The decoder -/

/-- Fields that pass the checks 1 to 3 of R216 decode. -/
theorem decodeFields_ok {f : Fields} {op : Opcode} {t : EType} (hop : Opcode.ofCode f.opc = some op)
    (hu : f.unusedNonzero op.uses = false) (hd : f.sameDest op = false) (ht : EType.ofCode f.et = some t)
    (ha : op.admits t = true) : decodeFields f = .ok (op.build f t) := by
  simp [decodeFields, hop, hu, hd, Fields.admittedType, ht, ha]

/-- Fields that decode pass the checks 1 to 3 of R216. -/
theorem decodeFields_eq_ok {f : Fields} {i : Instr} (h : decodeFields f = .ok i) :
    ∃ op t, Opcode.ofCode f.opc = some op ∧ f.unusedNonzero op.uses = false ∧ f.sameDest op = false ∧
      EType.ofCode f.et = some t ∧ op.admits t = true ∧ i = op.build f t := by
  rw [decodeFields] at h
  split at h
  · cases h
  · rename_i op hop
    split at h
    · cases h
    · rename_i hu
      simp only [Bool.or_eq_true, not_or, Bool.not_eq_true] at hu
      split at h
      · cases h
      · rename_i t ht
        rw [Fields.admittedType] at ht
        split at ht
        · rename_i t' ht'
          split at ht
          · rename_i ha
            cases ht
            exact ⟨op, t, hop, hu.1, hu.2, ht', ha, (Except.ok.inj h).symm⟩
          · cases ht
        · cases ht

/-- The one-source shape of R77 decodes. -/
theorem unary_ok {op : Opcode} {vd vs : VReg} {t : EType} {n : LogCount} {imm mask : Word}
    (hu : op.uses = ⟨true, true, false, true, true, mask⟩) (hm : imm &&& ~~~mask = 0)
    (hd : (Fields.unary op vd vs t n imm).sameDest op = false) (ha : op.admits t = true) :
    decodeFields (.unary op vd vs t n imm) = .ok (op.build (.unary op vd vs t n imm) t) :=
  decodeFields_ok (Opcode.ofCode_code op) (by simp [Fields.unusedNonzero, hu, Fields.unary, hm]) hd
    (EType.ofCode_code t) ha

/-- The two-source shape of R77 decodes. -/
theorem binary_ok {op : Opcode} {vd va vb : VReg} {t : EType} {n : LogCount} {imm mask : Word}
    (hu : op.uses = ⟨true, true, true, true, true, mask⟩) (hm : imm &&& ~~~mask = 0)
    (hd : (Fields.binary op vd va vb t n imm).sameDest op = false) (ha : op.admits t = true) :
    decodeFields (.binary op vd va vb t n imm) = .ok (op.build (.binary op vd va vb t n imm) t) :=
  decodeFields_ok (Opcode.ofCode_code op)
    (by simp [Fields.unusedNonzero, hu, Fields.binary, Fields.unary, hm]) hd (EType.ofCode_code t) ha

end Sys2Proof
end

