-- ==== Sys2Proof/Laws/Step.lean ====
section
/-!
SUPPORT. What a step can do: the next event (R59), the block's turn (R140), a host access (R30); and what keeps the
invariant.
-/
namespace Sys2Proof.Machine

/-! ## Events -/

theorem step_nil {s : State} (h : s.agenda = []) : step s = blockStep s := by
  rw [step, nextEvent, h]

theorem step_block {s : State} {rest : List Event} (h : s.agenda = .block :: rest) :
    step s = blockStep { s with agenda := rest } := by
  rw [step, nextEvent, h]

theorem step_host {s : State} {a : HostAccess} {rest : List Event} (h : s.agenda = .host a :: rest) :
    step s = .next (hostAccess a { s with agenda := rest }) := by
  rw [step, nextEvent, h]

theorem step_hardReset {s : State} {rest : List Event} (h : s.agenda = .hardReset :: rest) :
    step s = .next (resetBlock { s with agenda := rest }) := by
  rw [step, nextEvent, h]

theorem step_turn (s : State) : step (s.awaiting .block) = blockStep s := step_block (s := s.awaiting .block) rfl

theorem step_access (s : State) (a : HostAccess) : step (s.awaiting (.host a)) = .next (hostAccess a s) :=
  step_host (s := s.awaiting (.host a)) rfl

theorem step_reset (s : State) : step (s.awaiting .hardReset) = .next (resetBlock s) :=
  step_hardReset (s := s.awaiting .hardReset) rfl

/-! ## The block's turn -/

theorem canExecute_iff {s : State} : s.canExecute = true ↔ s.en = true ∧ s.err = false ∧ s.queue ≠ [] := by
  simp [State.canExecute, State.busy, State.qcount, and_assoc]

theorem blockStep_idle {s : State} (h : s.canExecute = false) : blockStep s = .next s := by
  simp [blockStep, h]

theorem blockStep_cons {s : State} {w : CmdWord} {q : List CmdWord} (h : s.canExecute = true) (hq : s.queue = w :: q) :
    blockStep s = execWord w s := by
  simp [blockStep, h, hq]

/-- Everything the block's turn can do. -/
theorem blockStep_cases (s : State) :
    (s.canExecute = false ∧ blockStep s = .next s) ∨
    ∃ w q, s.canExecute = true ∧ s.queue = w :: q ∧
      ((∃ i, decode w = .ok i ∧ blockStep s = exec i s) ∨
       ∃ c, decode w = .error c ∧ blockStep s = .next (raise c 0 s)) := by
  cases h : s.canExecute with
  | false => exact .inl ⟨rfl, blockStep_idle h⟩
  | true =>
    obtain ⟨w, q, hq⟩ := List.exists_cons_of_ne_nil (canExecute_iff.mp h).2.2
    refine .inr ⟨w, q, rfl, hq, ?_⟩
    rw [blockStep_cons h hq, execWord]
    cases decode w with
    | ok i => exact .inl ⟨i, rfl, rfl⟩
    | error c => exact .inr ⟨c, rfl, rfl⟩

/-- A word the decoder rejects is rejected for a cause (R216). -/
theorem decode_error_ne_none {w : CmdWord} {c : Cause} (h : decode w = .error c) : c ≠ .none := by
  rintro rfl
  rw [decode, decodeFields] at h
  split at h
  · cases h
  · split at h
    · cases h
    · split at h <;> cases h

/-! ## Host accesses -/

theorem windowOffset_base (c : Config) {off : Nat} (h : off < 0x20000) : windowOffset c (c.mmioBase + off) = some off := by
  rw [windowOffset, if_pos (by omega)]
  simp

/-- A 32-bit aligned write in the window reaches its port (R30). -/
theorem hostAccess_write {s : State} {off : Nat} (v : Word) (h : off < 0x20000) (h4 : off % 4 = 0) :
    hostAccess (.write 4 (s.cfg.mmioBase + off) v) s = { writePort v s (portAt s.cfg off) with response := .done } := by
  simp [hostAccess, windowOffset_base s.cfg h, wellSized, h4]

/-- A 32-bit aligned read in the window returns its port's word (R30). -/
theorem hostAccess_read {s : State} {off : Nat} (h : off < 0x20000) (h4 : off % 4 = 0) :
    hostAccess (.read 4 (s.cfg.mmioBase + off)) s =
      { s with response := .data (s.readPort (portAt s.cfg off)), draws := s.draws + portDraws (portAt s.cfg off) } := by
  simp [hostAccess, windowOffset_base s.cfg h, wellSized, h4]

/-- An access in the window of another size or alignment changes the response alone: a bus error, read data 0 (R30). -/
theorem hostAccess_busError {s : State} {size off : Nat} (v : Word) (h : off < 0x20000) (hs : size ≠ 4 ∨ off % 4 ≠ 0) :
    hostAccess (.read size (s.cfg.mmioBase + off)) s = { s with response := .busError 0 } ∧
    hostAccess (.write size (s.cfg.mmioBase + off) v) s = { s with response := .busError 0 } := by
  have hw : wellSized size off = false := by rcases hs with hs | hs <;> simp [wellSized, hs]
  simp [hostAccess, windowOffset_base s.cfg h, hw, busErrorResponse]

/-- A step that is a 32-bit aligned write in the window (R30). -/
theorem step_hostWrite (s : State) {off : Nat} (v : Word) (h : off < 0x20000) (h4 : off % 4 = 0) :
    step (s.awaiting (s.hostWrite off v)) = .next { writePort v s (portAt s.cfg off) with response := .done } := by
  rw [State.hostWrite, step_access, hostAccess_write v h h4]

/-- A step that is a 32-bit aligned read in the window (R30). -/
theorem step_hostRead (s : State) {off : Nat} (h : off < 0x20000) (h4 : off % 4 = 0) :
    step (s.awaiting (s.hostRead off)) = .next { s with
      response := .data (s.readPort (portAt s.cfg off)), draws := s.draws + portDraws (portAt s.cfg off) } := by
  rw [State.hostRead, step_access, hostAccess_read h h4]

/-- The scratchpad's part of the window (R55). -/
theorem portAt_spm {c : Config} {a : Nat} (h : a + 4 ≤ c.spmBytes) : portAt c (0x10000 + a) = .spm a := by
  rw [portAt, if_pos (by omega)]
  simp

/-- The registers' part of the window (R29). -/
theorem portAt_register (c : Config) {off : Nat} (h : off < 0x10000) :
    portAt c off = (match registerMap.find? fun e => e.1 == off with | some e => e.2 | none => .reserved) := by
  exact if_neg (by omega)

/-- As `portAt_register`, for a port that is known. -/
theorem portAt_of {c : Config} {off : Nat} {p : Port} (h : off < 0x10000)
    (hp : (match registerMap.find? fun e => e.1 == off with | some e => e.2 | none => .reserved) = p) :
    portAt c off = p := (portAt_register c h).trans hp

/-- A port that is a register stands at its own offset alone (R29). -/
theorem portAt_mem {c : Config} {off : Nat} {p : Port} (h : portAt c off = p) (hp : ∀ a, p ≠ .spm a)
    (hr : p ≠ .reserved) : (off, p) ∈ registerMap := by
  rw [portAt] at h
  split at h
  · exact absurd h.symm (hp _)
  · split at h
    · rename_i e he
      have h1 : e.1 = off := by simpa using List.find?_some he
      have h2 := List.mem_of_find?_eq_some he
      rw [← h, ← h1]
      exact h2
    · exact absurd h.symm hr

/-- A port of the scratchpad stands at its word's offset in the scratchpad window (R55). -/
theorem portAt_eq_spm {c : Config} {off a : Nat} (h : portAt c off = .spm a) :
    off = 0x10000 + a ∧ a + 4 ≤ c.spmBytes := by
  rw [portAt] at h
  split at h
  · rename_i hc
    simp only [Port.spm.injEq] at h
    omega
  · split at h
    · rename_i e he
      have h2 := List.mem_of_find?_eq_some he
      rw [show e = (e.1, e.2) from rfl, h] at h2
      simp [registerMap] at h2
    · cases h

/-- Everything a host access can do: it changes the response and the draws alone, or it is a 32-bit aligned write to a
port of the window. -/
theorem hostAccess_cases (s : State) (a : HostAccess) :
    (∃ r d, hostAccess a s = { s with response := r, draws := d }) ∨
    ∃ off v, off < 0x20000 ∧ off % 4 = 0 ∧ Event.host a = s.hostWrite off v ∧
      hostAccess a s = { writePort v s (portAt s.cfg off) with response := .done } := by
  cases a with
  | read size addr =>
    rw [hostAccess]
    split
    · exact .inl ⟨s.response, s.draws, rfl⟩
    · split
      · exact .inl ⟨_, _, rfl⟩
      · exact .inl ⟨_, s.draws, rfl⟩
  | write size addr v =>
    rw [hostAccess]
    split
    · exact .inl ⟨s.response, s.draws, rfl⟩
    · rename_i off ho
      have hoff : s.cfg.mmioBase ≤ addr ∧ addr < s.cfg.mmioBase + 0x20000 ∧ off = addr - s.cfg.mmioBase := by
        rw [windowOffset] at ho
        split at ho
        · rename_i hc
          exact ⟨hc.1, hc.2, (Option.some.inj ho).symm⟩
        · cases ho
      split
      · rename_i hw
        simp only [wellSized, Bool.and_eq_true, beq_iff_eq] at hw
        refine .inr ⟨off, v, by omega, hw.2, ?_, rfl⟩
        rw [State.hostWrite, hw.1, show s.cfg.mmioBase + off = addr by omega]
      · exact .inl ⟨_, s.draws, rfl⟩

/-! ## The invariant -/

theorem regsSized_setReg {s : State} (h : s.regsSized) (r : VReg) (f : Nat → RegByte) :
    (s.setReg r (s.regOf f)).regsSized := by
  intro q
  rw [reg_setReg]
  split
  · simp
  · exact h q

theorem regsSized_lanesWr {es : Nat} {s : State} (h : s.regsSized) (r : VReg) (L : List (BitVec (8 * es))) :
    (s.lanesWr r L).regsSized := regsSized_setReg h r _

theorem regsSized_of_regs {s u : State} (h : s.regsSized) (hr : u.regs = s.regs) (hc : u.cfg = s.cfg) : u.regsSized :=
  fun q => by rw [reg_of_regs hr, hc]; exact h q

/-- A run of bytes inside the scratchpad keeps it sound (R50, R52). -/
theorem spmSound_writeBytes {s : State} (h : s.spmSound) (a n : Nat) (f : Nat → RegByte)
    (hb : a + n ≤ s.cfg.spmBytes) : { s with spm := Memory.writeBytes s.spm a f n }.spmSound :=
  ⟨Memory.wf_writeBytes h.1 a f n, fun c hc => by
    rcases Memory.mem_writeBytes hc with hc | hc
    · show c.1 < s.cfg.spmBytes
      omega
    · exact h.2 c hc⟩

/-- Beyond SPM_BYTES nothing is written (R50). -/
theorem read_beyond {s : State} (h : s.spmSound) {a : Nat} (ha : s.cfg.spmBytes ≤ a) :
    Memory.read s.spm a = .unwritten := by
  obtain ⟨-, hb⟩ := h
  generalize s.spm = m at hb
  induction m with
  | nil => rfl
  | cons c m ih =>
    rw [show c = (c.1, c.2) from rfl, Memory.read_cons, if_neg (by have := hb c (by simp); omega)]
    exact ih fun d hd => hb d (by simp [hd])

@[simp] theorem resetWith_reg (c : Config) (r : VReg) :
    (State.resetWith c).reg r = List.replicate c.vlenb .unwritten := by
  simp [State.reg, State.resetWith, Vector.get_eq_getElem]

@[simp] theorem resetWith_spm (c : Config) : (State.resetWith c).spm = [] := rfl

end Sys2Proof.Machine
end

