-- ==== Sys2Proof/Laws/Exec.lean ====
section
/-!
SUPPORT. Everything a command can do, said once: `exec_cases`.
-/
namespace Sys2Proof.Machine

/-- The writes of command `i`: they reach the registers, the scratchpad, SIGVAL, DONE and the draws alone; SIGVAL and
DONE by SIGNAL only, the scratchpad by VST and VST.BE only; and they keep the registers' size and the scratchpad
sound. -/
structure Performed (i : Instr) (s t : State) : Prop where
  rest : t = { s with regs := t.regs, draws := t.draws, spm := t.spm, sigVal := t.sigVal, done := t.done }
  sized : s.regsSized → t.regsSized
  sound : s.spmSound → t.spmSound
  store : (∀ vs t n a, i ≠ .vst vs t n a ∧ i ≠ .vstBe vs t n a) → t.spm = s.spm
  signal : (∀ sig, i ≠ .signal sig) → t.sigVal = s.sigVal ∧ t.done = s.done

/-- What a command may answer: it performed its writes and retired, or it took a fault, whatever it drew before. -/
def Answers (i : Instr) (s : State) (o : Host.Outcome State Fault Refusal) : Prop :=
  (∃ t, o = .next (retire t) ∧ Performed i s t) ∨
  ∃ c info d, c ≠ .none ∧ o = .next { raise c info s with draws := d }

/-- Writes to the registers alone. -/
theorem Performed.ofRegs {i : Instr} {s t : State} (h : t = { s with regs := t.regs, draws := t.draws })
    (hr : s.regsSized → t.regsSized) : Performed i s t := by
  have h1 : t.spm = s.spm := by rw [h]
  have h2 : t.sigVal = s.sigVal := by rw [h]
  have h3 : t.done = s.done := by rw [h]
  have h4 : t.cfg = s.cfg := by rw [h]
  refine ⟨by rw [h1, h2, h3]; exact h, hr, fun hs => ?_, fun _ => h1, fun _ => ⟨h2, h3⟩⟩
  unfold State.spmSound at hs ⊢
  rw [h1, h4]
  exact hs

/-- A store of bytes that lie inside the scratchpad. -/
theorem Performed.ofStore {i : Instr} {s : State} {vs : VReg} {a nb : Nat} {index : Nat → Nat}
    (hi : ∃ vs t n a, i = .vst vs t n a ∨ i = .vstBe vs t n a) (hb : a + nb ≤ s.cfg.spmBytes) :
    Performed i s (storeBytes vs a nb index s) := by
  refine ⟨rfl, fun h => h, fun h => spmSound_writeBytes h a nb _ hb, fun h => ?_, fun _ => ⟨rfl, rfl⟩⟩
  obtain ⟨v, t, n, x, e | e⟩ := hi
  · exact absurd e (h v t n x).1
  · exact absurd e (h v t n x).2

/-- The address check of a command that passes its checks (R54). -/
theorem accessChecks_bound {s : State} {t : EType} {n : LogCount} {a : Word}
    (h : firstFault (s.accessChecks t n a) = none) : a.toNat + count n * t.esize ≤ s.cfg.spmBytes := by
  have := firstFault_eq_none.mp h ⟨decide (s.cfg.spmBytes < a.toNat + count n * t.esize), .addr, a⟩
    (by simp [State.accessChecks])
  simpa using this

/-- A command answers the retirement of what it performs, or a fault of one of its checks. -/
theorem command_performed {i : Instr} {checks : List Check} {perform : State → State} {s : State}
    (hc : ∀ k ∈ checks, k.cause ≠ .none) (hp : firstFault checks = none → Performed i s (perform s)) :
    Answers i s (command checks perform s) := by
  rcases command_cases checks perform s with ⟨h, h'⟩ | ⟨c, info, h, h'⟩
  · exact .inl ⟨_, h', hp h⟩
  · obtain ⟨b, k, a, rfl, -, -, rfl, rfl⟩ := firstFault_eq_some h
    exact .inr ⟨_, _, s.draws, hc k (by simp), h'⟩

/-- A shuffle answers likewise (R166, R167). -/
theorem shuffle_performed {i : Instr} {es : Nat} (s : State) (k : Check) (hk : k.cause ≠ .none) (vd : VReg) (n r : Nat)
    (c : List (BitVec (8 * es))) (mask : List (BitVec (8 * 2))) :
    Answers i s (.next (match firstFault [k] with
      | some (c, info) => raise c info s
      | none => shuffleFrom vd n r c mask s)) := by
  cases h : k.fails with
  | true =>
    simp only [firstFault_cons, h, if_true]
    exact .inr ⟨_, _, s.draws, hk, rfl⟩
  | false =>
    simp only [firstFault_cons, h, firstFault_nil, shuffleFrom]
    cases badEntry n mask with
    | some j => exact .inr ⟨.range, _, _, by decide, rfl⟩
    | none => exact .inl ⟨_, rfl, .ofRegs rfl fun h => regsSized_lanesWr h vd _⟩

/-- Everything a command can do: it performs its writes and retires, or it faults. -/
theorem exec_cases (i : Instr) (s : State) : Answers i s (exec i s) := by
  cases i
  case nop =>
    unfold exec execNop
    refine command_performed ?_ ?_
    · simp
    · exact fun _ => .ofRegs rfl fun h => h
  case signal sig =>
    unfold exec execSignal
    refine command_performed ?_ ?_
    · simp
    · exact fun _ => ⟨rfl, fun h => h, fun h => h, fun _ => rfl, fun h => absurd rfl (h sig)⟩
  case vzero vd =>
    unfold exec execVzero
    refine command_performed ?_ ?_
    · simp
    · exact fun _ => .ofRegs rfl fun h => regsSized_setReg h vd _
  case vld vd t n a =>
    unfold exec execVld
    refine command_performed ?_ ?_
    · simp [State.accessChecks, widthCheck]
    · exact fun _ => .ofRegs rfl fun h => regsSized_setReg h vd _
  case vldBe vd t n a =>
    unfold exec execVldBe
    refine command_performed ?_ ?_
    · simp [State.accessChecks, widthCheck]
    · exact fun _ => .ofRegs rfl fun h => regsSized_setReg h vd _
  case vst vs t n a =>
    unfold exec execVst
    refine command_performed ?_ ?_
    · simp [State.accessChecks, widthCheck]
    · exact fun h => .ofStore ⟨vs, t, n, a, .inl rfl⟩ (accessChecks_bound h)
  case vstBe vs t n a =>
    unfold exec execVstBe
    refine command_performed ?_ ?_
    · simp [State.accessChecks, widthCheck]
    · exact fun h => .ofStore ⟨vs, t, n, a, .inr rfl⟩ (accessChecks_bound h)
  case split vd vd2 vs t n =>
    unfold exec execSplit
    refine command_performed ?_ ?_
    · simp [splitChecks, sameDestCheck, widthCheck]
    · exact fun _ => .ofRegs rfl fun h => regsSized_lanesWr (regsSized_lanesWr h vd _) vd2 _
  case dilv vd vd2 vs t n =>
    unfold exec execDilv
    refine command_performed ?_ ?_
    · simp [splitChecks, sameDestCheck, widthCheck]
    · exact fun _ => .ofRegs rfl fun h => regsSized_lanesWr (regsSized_lanesWr h vd _) vd2 _
  case shuf1 vd vs vm t n m =>
    exact shuffle_performed s (shuffleCheck s t n m) (by simp [shuffleCheck, widthCheck]) vd _ 2 _ _
  case shuf2 vd vs vo vm t n m =>
    exact shuffle_performed s (shuffleCheck s t n m) (by simp [shuffleCheck, widthCheck]) vd _ 3 _ _
  all_goals
    simp only [exec, convert, reduction, lanewise,
      execVsplat, execCvtF32E4m3, execCvtF32E5m2, execCvtF32Bf16, execCvtF64E4m3, execCvtF64E5m2,
      execCvtF64Bf16, execCvtE4m3F32, execCvtE5m2F32, execCvtBf16F32, execCvtE4m3F64,
      execCvtE5m2F64, execCvtBf16F64, execRedadd, execRedmul, execRedmin, execRedmax, execRedand,
      execRedor, execRedpopc, execSlice, execInsert, execJoin, execIlv, execRotl, execRotr,
      execShll, execShrl, execRev]
    refine command_performed ?_ ?_
    · simp [widthCheck, rangeCheck, typeCheck, sliceChecks, joinCheck]
    · exact fun _ => .ofRegs rfl fun h => regsSized_lanesWr h _ _

end Sys2Proof.Machine
end

