-- ==== Sys2Proof/Laws/PerInstr.lean ====
section
/-!
SUPPORT. One lemma per command: the fields a well-formed command encodes to decode to that command.
-/
namespace Sys2Proof

/-- The fields of SPLIT and DILV name two destinations when the command is well formed (R76). -/
theorem sameDest_pair {vd vd2 : VReg} (h : (vd != vd2) = true) :
    (vd.toField == (immReg vd2).extractLsb' 0 5) = false := by
  rw [beq_eq_false_iff_ne]
  intro e
  have := congrArg VReg.ofField e
  rw [VReg.ofField_toField, immReg_low] at this
  simp [this] at h

end Sys2Proof

namespace Sys2Proof.Laws.FieldsRoundTrip

/-- The fields of a well-formed command pass the decoder's checks and give the command back (R71, R74, R77, R216). -/
def Statement (i : Instr) : Prop := i.wf = true → decodeFields (encodeFields i) = .ok i

/-! ## CORE -/

theorem nop : Statement .nop := fun _ => rfl

theorem signal (sig : Word) : Statement (.signal sig) := fun _ =>
  decodeFields_ok (op := .signal) (t := .u8) rfl (by simp [Fields.unusedNonzero, Opcode.uses, encodeFields]) rfl rfl rfl

theorem vzero (vd : VReg) : Statement (.vzero vd) := fun _ =>
  decodeFields_ok (op := .vzero) (t := .u8) rfl (by simp [Fields.unusedNonzero, Opcode.uses, encodeFields]) rfl rfl rfl

theorem vsplat (vd vs : VReg) (t : EType) (n : LogCount) (lane : BitVec 16) : Statement (.vsplat vd vs t n lane) :=
  fun _ => (unary_ok (op := .vsplat) rfl (immHalf_rest lane) rfl rfl).trans (by
    simp [Opcode.build, Fields.unary, immHalf_low])

theorem vld (vd : VReg) (t : EType) (n : LogCount) (a : Word) : Statement (.vld vd t n a) := fun _ =>
  decodeFields_ok (op := .vld) rfl (by simp [Fields.unusedNonzero, Opcode.uses, encodeFields]) rfl (EType.ofCode_code t) rfl

theorem vldBe (vd : VReg) (t : EType) (n : LogCount) (a : Word) : Statement (.vldBe vd t n a) := fun _ =>
  decodeFields_ok (op := .vldBe) rfl (by simp [Fields.unusedNonzero, Opcode.uses, encodeFields]) rfl (EType.ofCode_code t) rfl

theorem vst (vs : VReg) (t : EType) (n : LogCount) (a : Word) : Statement (.vst vs t n a) := fun _ =>
  decodeFields_ok (op := .vst) rfl (by simp [Fields.unusedNonzero, Opcode.uses, encodeFields]) rfl (EType.ofCode_code t) rfl

theorem vstBe (vs : VReg) (t : EType) (n : LogCount) (a : Word) : Statement (.vstBe vs t n a) := fun _ =>
  decodeFields_ok (op := .vstBe) rfl (by simp [Fields.unusedNonzero, Opcode.uses, encodeFields]) rfl (EType.ofCode_code t) rfl

/-! ## CVT -/

theorem cvtF32E4m3 (vd vs : VReg) (n : LogCount) : Statement (.cvtF32E4m3 vd vs n) := fun _ =>
  unary_ok (op := .cvtF32E4m3) rfl rfl rfl rfl

theorem cvtF32E5m2 (vd vs : VReg) (n : LogCount) : Statement (.cvtF32E5m2 vd vs n) := fun _ =>
  unary_ok (op := .cvtF32E5m2) rfl rfl rfl rfl

theorem cvtF32Bf16 (vd vs : VReg) (n : LogCount) : Statement (.cvtF32Bf16 vd vs n) := fun _ =>
  unary_ok (op := .cvtF32Bf16) rfl rfl rfl rfl

theorem cvtF64E4m3 (vd vs : VReg) (n : LogCount) : Statement (.cvtF64E4m3 vd vs n) := fun _ =>
  unary_ok (op := .cvtF64E4m3) rfl rfl rfl rfl

theorem cvtF64E5m2 (vd vs : VReg) (n : LogCount) : Statement (.cvtF64E5m2 vd vs n) := fun _ =>
  unary_ok (op := .cvtF64E5m2) rfl rfl rfl rfl

theorem cvtF64Bf16 (vd vs : VReg) (n : LogCount) : Statement (.cvtF64Bf16 vd vs n) := fun _ =>
  unary_ok (op := .cvtF64Bf16) rfl rfl rfl rfl

theorem cvtE4m3F32 (vd vs : VReg) (n : LogCount) : Statement (.cvtE4m3F32 vd vs n) := fun _ =>
  unary_ok (op := .cvtE4m3F32) rfl rfl rfl rfl

theorem cvtE5m2F32 (vd vs : VReg) (n : LogCount) : Statement (.cvtE5m2F32 vd vs n) := fun _ =>
  unary_ok (op := .cvtE5m2F32) rfl rfl rfl rfl

theorem cvtBf16F32 (vd vs : VReg) (n : LogCount) : Statement (.cvtBf16F32 vd vs n) := fun _ =>
  unary_ok (op := .cvtBf16F32) rfl rfl rfl rfl

theorem cvtE4m3F64 (vd vs : VReg) (n : LogCount) : Statement (.cvtE4m3F64 vd vs n) := fun _ =>
  unary_ok (op := .cvtE4m3F64) rfl rfl rfl rfl

theorem cvtE5m2F64 (vd vs : VReg) (n : LogCount) : Statement (.cvtE5m2F64 vd vs n) := fun _ =>
  unary_ok (op := .cvtE5m2F64) rfl rfl rfl rfl

theorem cvtBf16F64 (vd vs : VReg) (n : LogCount) : Statement (.cvtBf16F64 vd vs n) := fun _ =>
  unary_ok (op := .cvtBf16F64) rfl rfl rfl rfl

/-! ## RED -/

theorem redadd (vd vs : VReg) (t : EType) (n o : LogCount) : Statement (.redadd vd vs t n o) := fun h =>
  (unary_ok (op := .redadd) rfl (immLog_rest o) rfl h).trans (by simp [Opcode.build, Fields.unary, immLog_low])

theorem redmul (vd vs : VReg) (t : EType) (n o : LogCount) : Statement (.redmul vd vs t n o) := fun h =>
  (unary_ok (op := .redmul) rfl (immLog_rest o) rfl h).trans (by simp [Opcode.build, Fields.unary, immLog_low])

theorem redmin (vd vs : VReg) (t : EType) (n o : LogCount) : Statement (.redmin vd vs t n o) := fun h =>
  (unary_ok (op := .redmin) rfl (immLog_rest o) rfl h).trans (by simp [Opcode.build, Fields.unary, immLog_low])

theorem redmax (vd vs : VReg) (t : EType) (n o : LogCount) : Statement (.redmax vd vs t n o) := fun h =>
  (unary_ok (op := .redmax) rfl (immLog_rest o) rfl h).trans (by simp [Opcode.build, Fields.unary, immLog_low])

theorem redand (vd vs : VReg) (t : EType) (n o : LogCount) : Statement (.redand vd vs t n o) := fun h =>
  (unary_ok (op := .redand) rfl (immLog_rest o) rfl h).trans (by simp [Opcode.build, Fields.unary, immLog_low])

theorem redor (vd vs : VReg) (t : EType) (n o : LogCount) : Statement (.redor vd vs t n o) := fun h =>
  (unary_ok (op := .redor) rfl (immLog_rest o) rfl h).trans (by simp [Opcode.build, Fields.unary, immLog_low])

theorem redpopc (vd vs : VReg) (t : EType) (n o : LogCount) : Statement (.redpopc vd vs t n o) := fun h =>
  (unary_ok (op := .redpopc) rfl (immLog_rest o) rfl h).trans (by simp [Opcode.build, Fields.unary, immLog_low])

/-! ## PERM -/

theorem slice (vd vs : VReg) (t : EType) (n : LogCount) (off : BitVec 16) (w : LogCount) :
    Statement (.slice vd vs t n off w) := fun _ =>
  (unary_ok (op := .slice) rfl (immOffLog_rest off w) rfl rfl).trans (by
    simp [Opcode.build, Fields.unary, immOffLog_low, immOffLog_high])

theorem insert (vd vs vv : VReg) (t : EType) (n : LogCount) (off : BitVec 16) (w : LogCount) :
    Statement (.insert vd vs vv t n off w) := fun _ =>
  (binary_ok (op := .insert) rfl (immOffLog_rest off w) rfl rfl).trans (by
    simp [Opcode.build, Fields.binary, Fields.unary, immOffLog_low, immOffLog_high])

theorem join (vd va vb : VReg) (t : EType) (n : LogCount) : Statement (.join vd va vb t n) := fun _ =>
  binary_ok (op := .join) rfl rfl rfl rfl

theorem ilv (vd va vb : VReg) (t : EType) (n : LogCount) : Statement (.ilv vd va vb t n) := fun _ =>
  binary_ok (op := .ilv) rfl rfl rfl rfl

theorem split (vd vd2 vs : VReg) (t : EType) (n : LogCount) : Statement (.split vd vd2 vs t n) := fun h =>
  (unary_ok (op := .split) rfl (immReg_rest vd2) (sameDest_pair h) rfl).trans (by
    simp [Opcode.build, Fields.unary, Fields.vd2, immReg_low])

theorem dilv (vd vd2 vs : VReg) (t : EType) (n : LogCount) : Statement (.dilv vd vd2 vs t n) := fun h =>
  (unary_ok (op := .dilv) rfl (immReg_rest vd2) (sameDest_pair h) rfl).trans (by
    simp [Opcode.build, Fields.unary, Fields.vd2, immReg_low])

theorem shuf1 (vd vs vm : VReg) (t : EType) (n m : LogCount) : Statement (.shuf1 vd vs vm t n m) := fun _ =>
  (binary_ok (op := .shuf1) rfl (immLog_rest m) rfl rfl).trans (by
    simp [Opcode.build, Fields.binary, Fields.unary, immLog_low])

theorem shuf2 (vd vs vo vm : VReg) (t : EType) (n m : LogCount) : Statement (.shuf2 vd vs vo vm t n m) := fun _ =>
  (binary_ok (op := .shuf2) rfl (immLogReg_rest m vm) rfl rfl).trans (by
    simp [Opcode.build, Fields.binary, Fields.unary, immLogReg_log, immLogReg_reg])

theorem rotl (vd vs : VReg) (t : EType) (n : LogCount) (sh : BitVec 16) : Statement (.rotl vd vs t n sh) :=
  fun _ => (unary_ok (op := .rotl) rfl (immHalf_rest sh) rfl rfl).trans (by
    simp [Opcode.build, Fields.unary, immHalf_low])

theorem rotr (vd vs : VReg) (t : EType) (n : LogCount) (sh : BitVec 16) : Statement (.rotr vd vs t n sh) :=
  fun _ => (unary_ok (op := .rotr) rfl (immHalf_rest sh) rfl rfl).trans (by
    simp [Opcode.build, Fields.unary, immHalf_low])

theorem shll (vd vs : VReg) (t : EType) (n : LogCount) (sh : BitVec 16) : Statement (.shll vd vs t n sh) :=
  fun _ => (unary_ok (op := .shll) rfl (immHalf_rest sh) rfl rfl).trans (by
    simp [Opcode.build, Fields.unary, immHalf_low])

theorem shrl (vd vs : VReg) (t : EType) (n : LogCount) (sh : BitVec 16) : Statement (.shrl vd vs t n sh) :=
  fun _ => (unary_ok (op := .shrl) rfl (immHalf_rest sh) rfl rfl).trans (by
    simp [Opcode.build, Fields.unary, immHalf_low])

theorem rev (vd vs : VReg) (t : EType) (n : LogCount) : Statement (.rev vd vs t n) := fun _ =>
  unary_ok (op := .rev) rfl rfl rfl rfl

end Sys2Proof.Laws.FieldsRoundTrip
end

