-- ==== Sys2Proof/Tests/Slice0.lean ====
section
/-!
SUPPORT. Tests. Every expected value is one that spec/95_test_vectors.md or the cited rule gives; "row" is a row of the
named section of spec/95_test_vectors.md. The witnesses at the end show concrete states and operands that meet the
hypotheses of the statements of Certificates/Slice0/Obligations.lean, at the edges of their ranges.
-/
namespace Sys2Proof.Tests

open Sys2Proof.Machine

/-! ## Ill-formed terms, refused by WellFormed and by the decoder (R75, R76, R78) -/

theorem test_wf_refuses_reduction_types :
    (Instr.redadd 2 1 .bool 2 0).wf = false ∧ (Instr.redmul 2 1 .e4m3 2 0).wf = false ∧
    (Instr.redmin 2 1 .bf16 2 0).wf = false ∧ (Instr.redmax 2 1 .f16 2 0).wf = false ∧
    (Instr.redand 2 1 .f32 2 0).wf = false ∧ (Instr.redor 2 1 .f64 2 0).wf = false ∧
    (Instr.redpopc 2 1 .e5m2 2 0).wf = false := by decide

theorem test_wf_refuses_one_destination :
    (Instr.split 3 3 1 .u8 2).wf = false ∧ (Instr.dilv 3 3 1 .u8 2).wf = false := by decide

theorem test_wf_admits :
    (Instr.redadd 2 1 .f64 2 0).wf = true ∧ (Instr.redpopc 2 1 .bool 2 0).wf = true ∧
    (Instr.split 3 4 1 .u8 2).wf = true ∧ (Instr.vld 1 .e4m3 15 0xFFFFFFFF).wf = true := by decide

/-! ## Decoding: words written out from R71, R74 and R77 -/

/-- One word of each family, field by field: IMM, LOGN, ET, VS2, VS1, VD, OPC (R71). -/
theorem test_decode_field_by_field :
    decode (0x00000001#32 ++ 0b0010#4 ++ 0b00001#5 ++ 0b00000#5 ++ 0b00001#5 ++ 0b00010#5 ++ 0x03#8) =
      .ok (.vsplat 2 1 .u16 2 1) ∧
    decode (0x00000000#32 ++ 0b0011#4 ++ 0b11000#5 ++ 0b00000#5 ++ 0b00001#5 ++ 0b00010#5 ++ 0x18#8) =
      .ok (.cvtE4m3F32 2 1 3) ∧
    decode (0x00000001#32 ++ 0b0011#4 ++ 0b11000#5 ++ 0b00000#5 ++ 0b00001#5 ++ 0b00010#5 ++ 0x20#8) =
      .ok (.redadd 2 1 .f32 3 1) ∧
    decode (0b000000000000#12 ++ 0b0001#4 ++ 0x0002#16 ++ 0b0010#4 ++ 0b00000#5 ++ 0b00010#5 ++ 0b00001#5 ++
      0b00011#5 ++ 0x31#8) = .ok (.insert 3 1 2 .u8 2 2 1) := by decide

/-- Section 3, and R143, R146 to R149. -/
theorem test_decode_core :
    decode 0x0000000000000000 = .ok .nop ∧ decode 0x0000123400000001 = .ok (.signal 0x1234) ∧
    decode 0x0000000000000302 = .ok (.vzero 3) ∧ decode 0x0000000120802203 = .ok (.vsplat 2 1 .u16 2 1) ∧
    decode 0x0000010010800104 = .ok (.vld 1 .u16 1 0x100) ∧ decode 0x0000010010800105 = .ok (.vldBe 1 .u16 1 0x100) ∧
    decode 0x0000FFF80C802006 = .ok (.vst 1 .f64 0 0xFFF8) ∧ decode 0x0000000320002007 = .ok (.vstBe 1 .u8 2 3) := by
  decide

/-- Section 2.5. -/
theorem test_decode_convert :
    decode 0x000000002A002210 = .ok (.cvtF32E4m3 2 1 2) ∧ decode 0x000000002A802211 = .ok (.cvtF32E5m2 2 1 2) ∧
    decode 0x000000001B002212 = .ok (.cvtF32Bf16 2 1 1) ∧ decode 0x000000001A002214 = .ok (.cvtF64E4m3 2 1 1) ∧
    decode 0x000000001A802215 = .ok (.cvtF64E5m2 2 1 1) ∧ decode 0x000000001B002216 = .ok (.cvtF64Bf16 2 1 1) ∧
    decode 0x000000003C002118 = .ok (.cvtE4m3F32 1 1 3) ∧ decode 0x000000002C002219 = .ok (.cvtE5m2F32 2 1 2) ∧
    decode 0x000000002C00221A = .ok (.cvtBf16F32 2 1 2) ∧ decode 0x000000001C80221C = .ok (.cvtE4m3F64 2 1 1) ∧
    decode 0x000000001C80221D = .ok (.cvtE5m2F64 2 1 1) ∧ decode 0x000000001C80221E = .ok (.cvtBf16F64 2 1 1) := by
  decide

/-- Section 5. -/
theorem test_decode_reduce :
    decode 0x000000013C002220 = .ok (.redadd 2 1 .f32 3 1) ∧ decode 0x0000000024802221 = .ok (.redmul 2 1 .i16 2 0) ∧
    decode 0x0000000024002222 = .ok (.redmin 2 1 .i8 2 0) ∧ decode 0x0000000011802223 = .ok (.redmax 2 1 .u64 1 0) ∧
    decode 0x0000000028002224 = .ok (.redand 2 1 .bool 2 0) ∧ decode 0x0000000020002225 = .ok (.redor 2 1 .u8 2 0) ∧
    decode 0x0000000110002226 = .ok (.redpopc 2 1 .u8 1 1) := by decide

/-- Section 4. -/
theorem test_decode_structural :
    decode 0x0001000120002330 = .ok (.slice 3 1 .u8 2 1 1) ∧ decode 0x0001000220082331 = .ok (.insert 3 1 2 .u8 2 2 1) ∧
    decode 0x0000000010082332 = .ok (.join 3 1 2 .u8 1) ∧ decode 0x0000000420002333 = .ok (.split 3 4 1 .u8 2) ∧
    decode 0x0000000010082334 = .ok (.ilv 3 1 2 .u8 1) ∧ decode 0x0000000420002335 = .ok (.dilv 3 4 1 .u8 2) ∧
    decode 0x0000000320082336 = .ok (.shuf1 3 1 2 .u8 2 3) ∧ decode 0x0000050210082337 = .ok (.shuf2 3 1 2 5 .u8 1 2) ∧
    decode 0x0000FFFF20002338 = .ok (.rotl 3 1 .u8 2 0xFFFF) ∧ decode 0x0000000220002339 = .ok (.rotr 3 1 .u8 2 2) ∧
    decode 0x000000022000233A = .ok (.shll 3 1 .u8 2 2) ∧ decode 0x000000012000233B = .ok (.shrl 3 1 .u8 2 1) ∧
    decode 0x000000001C00233C = .ok (.rev 3 1 .f32 1) := by decide

/-- Section 6, rows 1 to 13, and the check order below it. -/
theorem test_decode_rejects :
    decode 0x0000000000000008 = .error .illegalOpcode ∧ decode 0x0000000000000013 = .error .illegalOpcode ∧
    decode 0x00000000000000FF = .error .illegalOpcode ∧ decode 0x0000000000000113 = .error .illegalOpcode ∧
    decode 0x0000000000000100 = .error .illegalField ∧ decode 0x0000000100000000 = .error .illegalField ∧
    decode 0x0000000000002002 = .error .illegalField ∧ decode 0x0000000320002333 = .error .illegalField ∧
    decode 0x0011000120002330 = .error .illegalField ∧ decode 0x0000000003002103 = .error .illegalType ∧
    decode 0x000000000C802118 = .error .illegalType ∧ decode 0x000000002A002220 = .error .illegalType ∧
    decode 0x000000002C002224 = .error .illegalType ∧ decode 0x0000000028002220 = .error .illegalType := by decide

/-- R88's worked examples, by the encoder. -/
theorem test_encode :
    encode (.cvtE4m3F32 2 1 3) = 0x000000003C002218 ∧ encode (.vld 1 .f32 3 0x100) = 0x000001003C000104 ∧
    encode (.shuf2 5 1 2 3 .u16 2 2) = 0x0000030220882537 ∧ encode (.rotl 4 3 .i32 2 0xFFFF) = 0x0000FFFF25006438 := by
  decide

/-- The decoder on the host's numbering of a row of the table. -/
theorem test_decode_table_word :
    decodeTableWord 64 0x0000000801002006 = some (.vst 1 .u32 0 8) ∧ decodeTableWord 64 0x33 = none := by decide

/-! ## One command on a small state -/

/-- The bytes of lanes of `es` bytes, least significant first (R22). -/
def bytesOf (es : Nat) (lanes : List Nat) : List Byte :=
  lanes.flatMap fun x => (List.range es).map fun k => BitVec.ofNat 8 (x / 256 ^ k)

/-- Register `r` holding lanes of `es` bytes and unwritten bytes after them: a command that read one of those would
give a free value, and the test of its result could not be evaluated. -/
def hold (r : VReg) (es : Nat) (lanes : List Nat) (s : State) : State :=
  let bytes := bytesOf es lanes
  s.setReg r (bytes.map .written ++ List.replicate (64 - bytes.length) .unwritten)

/-- The scratchpad holding bytes from an address on. -/
def spmFrom (a : Nat) (bytes : List Byte) (s : State) : State :=
  { s with spm := bytes.mapIdx fun k b => (a + k, b) }

/-- The state after the command word `w` runs, if it retires. -/
def after (w : Nat) (s : State) : Option State :=
  match step (s.withFetchWord 64 w) with
  | .next u => if u.err then none else some u
  | .fault _ | .refused _ => none

/-- The command retires and leaves those lanes in `r`, zeros after them (R23). -/
def leaves (w : Nat) (s : State) (r : VReg) (es : Nat) (lanes : List Nat) : Bool :=
  let bytes := bytesOf es lanes
  (after w s).map (·.reg r) == some ((bytes ++ List.replicate (64 - bytes.length) 0).map .written)

/-- The command retires and leaves that scratchpad. -/
def leavesSpm (w : Nat) (s : State) (m : Memory) : Bool := (after w s).map (·.spm) == some m

/-- The command faults with that cause code and FAULTINFO and leaves the report of R213 and the registers. -/
def faultsWith (w : Nat) (s : State) (cause : Cause) (info : Word) : Bool :=
  match step (s.withFetchWord 64 w) with
  | .next u => u.err && u.cause == cause && u.faultInfo == info && u.faultCmd == BitVec.ofNat 64 w &&
      u.faultIdx == s.cseq && u.cseq == s.cseq && u.queue == [] && u.regs == s.regs && u.spm == s.spm
  | .fault _ | .refused _ => false

/-! ### CORE (section 3) -/

/-- Row 1. -/
theorem test_nop : (after 0x0 { State.reset with cseq := 5 }).map (·.cseq) = some 6 := by decide

/-- Rows 2 and 3. -/
theorem test_signal :
    ((after 0x0000123400000001 State.reset).map fun u => (u.sigVal, u.done)) = some (0x1234, true) ∧
    ((after 0x1 { State.reset with done := true, sigVal := 0x1234 }).map fun u => (u.sigVal, u.done)) =
      some (0, true) := by decide

/-- CSEQ counts modulo 2^32 (R25). -/
theorem test_cseq_wraps : (after 0x1 { State.reset with cseq := 0xFFFFFFFF }).map (·.cseq) = some 0 := by decide

/-- Row 4. -/
theorem test_vzero : leaves 0x302 (hold 3 1 [1, 2, 3] State.reset) 3 1 [0] = true := by decide

/-- Rows 5 and 7. -/
theorem test_vsplat :
    leaves 0x0000000120802203 (hold 1 2 [7, 9, 11, 13] State.reset) 2 2 [9, 9, 9, 9] = true ∧
    leaves 0x0000000000002103 (hold 1 1 [5] State.reset) 1 1 [5] = true := by decide

/-- Rows 8 and 10. -/
theorem test_vld :
    leaves 0x0000010010800104 (spmFrom 0x100 [1, 2, 3, 4] State.reset) 1 2 [0x0201, 0x0403] = true ∧
    leaves 0x0000010001000104 (spmFrom 0x100 [1, 2, 3, 4] State.reset) 1 4 [0x04030201] = true := by decide

/-- R42, R146: an unwritten byte stays unwritten, and the tail is zero. -/
theorem test_vld_unwritten :
    ((after 0x0000010010800104 (spmFrom 0x100 [1] State.reset)).map fun u => (u.reg 1).take 5) =
      some [.written 1, .unwritten, .unwritten, .unwritten, .written 0] := by decide

/-- Rows 9 and 11. -/
theorem test_vld_be :
    leaves 0x0000010010800105 (spmFrom 0x100 [1, 2, 3, 4] State.reset) 1 2 [0x0102, 0x0304] = true ∧
    leaves 0x0000010001000105 (spmFrom 0x100 [1, 2, 3, 4] State.reset) 1 4 [0x01020304] = true := by decide

/-- Rows 12 and 15. -/
theorem test_vst :
    leavesSpm 0x0000000801002006 (hold 1 4 [0x11223344] State.reset) [(8, 0x44), (9, 0x33), (10, 0x22), (11, 0x11)] =
      true ∧
    leavesSpm 0x0000FFF80C802006 (hold 1 8 [0x3FF0000000000000] State.reset)
      [(0xFFF8, 0), (0xFFF9, 0), (0xFFFA, 0), (0xFFFB, 0), (0xFFFC, 0), (0xFFFD, 0), (0xFFFE, 0xF0), (0xFFFF, 0x3F)] =
      true := by decide

/-- R148: storing an unwritten byte makes the address unwritten. -/
theorem test_vst_unwritten :
    leavesSpm 0x0000000801002006 (spmFrom 8 [1, 2, 3, 4, 5] (hold 1 1 [7] State.reset)) [(8, 7), (12, 5)] = true := by
  decide

/-- Rows 13 and 14. -/
theorem test_vst_be :
    leavesSpm 0x0000000801002007 (hold 1 4 [0x11223344] State.reset) [(8, 0x11), (9, 0x22), (10, 0x33), (11, 0x44)] =
      true ∧
    leavesSpm 0x0000000320002007 (hold 1 1 [1, 2, 3, 4] State.reset) [(3, 1), (4, 2), (5, 3), (6, 4)] = true := by
  decide

/-! ### CVT (section 2.5) -/

theorem test_cvt_e4m3_f32 :
    leaves 0x000000002C002218 (hold 1 4 [0x3F800000, 0x43E00000, 0xC47A0000, 0x7FC00001] State.reset) 2 1
      [0x38, 0x7E, 0xFE, 0x7F] = true := by decide

/-- The last row: VD = VS1. -/
theorem test_cvt_e4m3_f32_in_place :
    leaves 0x000000003C002118 (hold 1 4 [0x00000000, 0x80000000, 0x3F000000, 0x3FC00000, 0x3B000000, 0x3A800000,
      0x43960000, 0xC3E00000] State.reset) 1 1 [0x00, 0x80, 0x30, 0x3C, 0x01, 0x00, 0x79, 0xFE] = true := by decide

theorem test_cvt_e5m2_f32 :
    leaves 0x000000002C002219 (hold 1 4 [0x3F800000, 0x7F800000, 0xB7000000, 0x40400000] State.reset) 2 1
      [0x3C, 0x7B, 0x80, 0x42] = true := by decide

theorem test_cvt_bf16_f32 :
    leaves 0x000000002C00221A (hold 1 4 [0x3F800000, 0x3F808000, 0x3F818000, 0x7F7FFFFF] State.reset) 2 2
      [0x3F80, 0x3F80, 0x3F82, 0x7F80] = true := by decide

theorem test_cvt_f32_e4m3 :
    leaves 0x000000002A002210 (hold 1 1 [0x38, 0x7E, 0xFF, 0x80] State.reset) 2 4
      [0x3F800000, 0x43E00000, 0x7FC00000, 0x80000000] = true := by decide

theorem test_cvt_f32_e5m2 :
    leaves 0x000000002A802211 (hold 1 1 [0x3C, 0x7C, 0xFC, 0x01] State.reset) 2 4
      [0x3F800000, 0x7F800000, 0xFF800000, 0x37800000] = true := by decide

theorem test_cvt_f32_bf16 :
    leaves 0x000000001B002212 (hold 1 2 [0x3F80, 0xFFC1] State.reset) 2 4 [0x3F800000, 0x7FC00000] = true := by decide

theorem test_cvt_f64_e4m3 :
    leaves 0x000000001A002214 (hold 1 1 [0x38, 0x7F] State.reset) 2 8 [0x3FF0000000000000, 0x7FF8000000000000] =
      true := by decide

theorem test_cvt_f64_e5m2 :
    leaves 0x000000001A802215 (hold 1 1 [0x7B, 0x83] State.reset) 2 8 [0x40EC000000000000, 0xBF08000000000000] =
      true := by decide

theorem test_cvt_f64_bf16 :
    leaves 0x000000001B002216 (hold 1 2 [0x3F80, 0x0001] State.reset) 2 8 [0x3FF0000000000000, 0x37A0000000000000] =
      true := by decide

theorem test_cvt_e4m3_f64 :
    leaves 0x000000001C80221C (hold 1 8 [0x3FF1000000400000, 0xC07F400000000000] State.reset) 2 1 [0x38, 0xFE] =
      true := by decide

theorem test_cvt_e5m2_f64 :
    leaves 0x000000001C80221D (hold 1 8 [0x3FD5555555555555, 0xB58DEE7A4AD4B81F] State.reset) 2 1 [0x35, 0x80] =
      true := by decide

theorem test_cvt_bf16_f64 :
    leaves 0x000000001C80221E (hold 1 8 [0x7E37E43C8800759C, 0xC004000000000000] State.reset) 2 2 [0x7F80, 0xC020] =
      true := by decide

/-- Section 2.1: the corners of the two decode tables. -/
theorem test_narrow_decode :
    ([(0x00, 0x00000000), (0x01, 0x3B000000), (0x07, 0x3C600000), (0x08, 0x3C800000), (0x5A, 0x41A00000),
      (0x78, 0x43800000), (0x79, 0x43900000), (0x7E, 0x43E00000), (0x7F, 0x7FC00000), (0x85, 0xBC200000),
      (0xFE, 0xC3E00000), (0xFF, 0x7FC00000)] : List (BitVec 8 × BitVec 32)).all
      (fun p => dec8 Config.reference .e4m3 p.1 == p.2) = true ∧
    ([(0x01, 0x37800000), (0x02, 0x38000000), (0x03, 0x38400000), (0x04, 0x38800000), (0x5A, 0x43400000),
      (0x7B, 0x47600000), (0x7C, 0x7F800000), (0x7D, 0x7FC00000), (0x83, 0xB8400000), (0xFB, 0xC7600000),
      (0xFC, 0xFF800000), (0xFE, 0x7FC00000)] : List (BitVec 8 × BitVec 32)).all
      (fun p => dec8 Config.reference .e5m2 p.1 == p.2) = true := by decide

/-- Section 2.2. -/
theorem test_narrow_encode :
    ([(0x3F880000, 0x38, 0x3C, 0x3F88), (0x3F980000, 0x3A, 0x3D, 0x3F98), (0x3F880001, 0x39, 0x3C, 0x3F88),
      (0x3F808000, 0x38, 0x3C, 0x3F80), (0x3F818000, 0x38, 0x3C, 0x3F82), (0x3DCCCCCD, 0x1D, 0x2E, 0x3DCD),
      (0xBE99999A, 0xAA, 0xB5, 0xBE9A), (0x43800000, 0x78, 0x5C, 0x4380), (0x43E80000, 0x7E, 0x5F, 0x43E8)] :
      List (BitVec 32 × BitVec 8 × BitVec 8 × BitVec 16)).all
      (fun p => enc8 Config.reference .e4m3 p.1 == p.2.1 && enc8 Config.reference .e5m2 p.1 == p.2.2.1 &&
        encBf16 Config.reference p.1 == p.2.2.2) = true ∧
    ([(0x43E88000, 0x7E, 0x5F, 0x43E8), (0x43F00000, 0x7E, 0x60, 0x43F0), (0xC4000000, 0xFE, 0xE0, 0xC400),
      (0x47600000, 0x7E, 0x7B, 0x4760), (0x476FFF00, 0x7E, 0x7B, 0x4770), (0x47700000, 0x7E, 0x7B, 0x4770),
      (0x47800000, 0x7E, 0x7B, 0x4780), (0x7F7FFFFF, 0x7E, 0x7B, 0x7F80)] :
      List (BitVec 32 × BitVec 8 × BitVec 8 × BitVec 16)).all
      (fun p => enc8 Config.reference .e4m3 p.1 == p.2.1 && enc8 Config.reference .e5m2 p.1 == p.2.2.1 &&
        encBf16 Config.reference p.1 == p.2.2.2) = true := by decide

/-- Section 2.4: f64 to f32. -/
theorem test_f64_to_f32 :
    ([(0x3FF1000000400000, 0x3F880000), (0x3FD5555555555555, 0x3EAAAAAB), (0x7E37E43C8800759C, 0x7F800000),
      (0xB58DEE7A4AD4B81F, 0x80000000), (0x36A0000000000000, 0x00000001), (0xFFF8000000000001, 0x7FC00000),
      (0x3FF0100000001000, 0x3F808000)] : List (BitVec 64 × BitVec 32)).all
      (fun p => f64ToF32 Config.reference p.1 == p.2) = true := by decide

/-! ### RED (section 5) -/

/-- Rows 1, 8 and 26. -/
theorem test_redadd :
    leaves 0x0000000020002220 (hold 1 1 [0xC8, 0x64, 0x32, 0x0A] State.reset) 2 1 [0x68] = true ∧
    leaves 0x000000001C002220 (hold 1 4 [0x80000000, 0x00000000] State.reset) 2 4 [0] = true ∧
    leaves 0x0000000012802220 (hold 1 32 [2 ^ 256 - 1, 1] State.reset) 2 32 [0] = true := by decide

/-- Rows 2, 3, 6 and 10: the order of the tree, its lanes, a NaN. -/
theorem test_redadd_tree :
    leaves 0x000000002C002220 (hold 1 4 [0x4B800000, 0x3F800000, 0x3F800000, 0xCB800000] State.reset) 2 4
      [0x3F800000] = true ∧
    leaves 0x000000013C002220 (hold 1 4 [0x3F800000, 0x40000000, 0x40400000, 0x40800000, 0x40A00000, 0x40C00000,
      0x40E00000, 0x41000000] State.reset) 2 4 [0x41800000, 0x41A00000] = true ∧
    leaves 0x000000002C002220 (hold 1 4 [0x7F800000, 0xFF800000, 0, 0] State.reset) 2 4 [0x7FC00000] = true ∧
    leaves 0x000000002C802220 (hold 1 8 [0x3FB999999999999A, 0x3FC999999999999A, 0x3FD3333333333333,
      0x3FD999999999999A] State.reset) 2 8 [0x3FF0000000000000] = true := by decide

/-- Rows 11 and 12. -/
theorem test_redmul :
    leaves 0x0000000020802221 (hold 1 2 [0x012C, 0x012C, 1, 1] State.reset) 2 2 [0x5F90] = true ∧
    leaves 0x0000000024802221 (hold 1 2 [0xFFFF, 2, 3, 4] State.reset) 2 2 [0xFFE8] = true := by decide

/-- Rows 13 to 15. -/
theorem test_redmul_float :
    leaves 0x000000002C002221 (hold 1 4 [0x7F800000, 0, 0x3F800000, 0x3F800000] State.reset) 2 4 [0x7FC00000] = true ∧
    leaves 0x000000001C002221 (hold 1 4 [0x7F7FFFFF, 0x40000000] State.reset) 2 4 [0x7F800000] = true ∧
    leaves 0x000000001C002221 (hold 1 4 [0x0D800000, 0x8D800000] State.reset) 2 4 [0x80000000] = true := by decide

/-- Rows 16, 17 and 20. -/
theorem test_redmin :
    leaves 0x0000000024002222 (hold 1 1 [0xFF, 0x05, 0x80, 0x03] State.reset) 2 1 [0x80] = true ∧
    leaves 0x0000000020002222 (hold 1 1 [0xFF, 0x05, 0x80, 0x03] State.reset) 2 1 [0x03] = true ∧
    leaves 0x000000002C002222 (hold 1 4 [0, 0x80000000, 0x3F800000, 0x40000000] State.reset) 2 4 [0x80000000] =
      true := by decide

/-- Rows 18, 19, 21 and 24. -/
theorem test_redmax :
    leaves 0x0000000024002223 (hold 1 1 [0xFF, 0x05, 0x80, 0x03] State.reset) 2 1 [0x05] = true ∧
    leaves 0x0000000020002223 (hold 1 1 [0xFF, 0x05, 0x80, 0x03] State.reset) 2 1 [0xFF] = true ∧
    leaves 0x000000002C002223 (hold 1 4 [0, 0x80000000, 0xBF800000, 0xC0000000] State.reset) 2 4 [0] = true ∧
    leaves 0x000000002C002223 (hold 1 4 [0x3F800000, 0xFFC00001, 0x40400000, 0x40800000] State.reset) 2 4
      [0x7FC00000] = true := by decide

/-- Rows 27 and 29. -/
theorem test_redand :
    leaves 0x0000000020002224 (hold 1 1 [0xF0, 0x3C, 0xFF, 0x0F] State.reset) 2 1 [0x00] = true ∧
    leaves 0x0000000028002224 (hold 1 1 [1, 1, 0, 1] State.reset) 2 1 [0] = true := by decide

/-- Rows 28 and 30. -/
theorem test_redor :
    leaves 0x0000000020002225 (hold 1 1 [1, 2, 4, 8] State.reset) 2 1 [0x0F] = true ∧
    leaves 0x0000000028002225 (hold 1 1 [0, 0, 0, 1] State.reset) 2 1 [1] = true := by decide

/-- Rows 31, 32 and 33. -/
theorem test_redpopc :
    leaves 0x0000000010002226 (hold 1 1 [0xFF, 0xFF] State.reset) 2 1 [0x10] = true ∧
    leaves 0x0000000110002226 (hold 1 1 [0xFF, 0xFF] State.reset) 2 1 [8, 8] = true ∧
    leaves 0x0000000021002226 (hold 1 4 [0xFFFFFFFF, 1, 3, 0] State.reset) 2 4 [0x23] = true := by decide

/-! ### PERM (section 4) -/

/-- Rows 1 and 2. -/
theorem test_slice :
    leaves 0x0001000120002330 (hold 1 1 [10, 20, 30, 40] State.reset) 3 1 [20, 30] = true ∧
    leaves 0x0000000320002330 (hold 1 1 [10, 20, 30, 40] State.reset) 3 1 [40] = true := by decide

/-- Rows 4 and 5. -/
theorem test_insert :
    leaves 0x0001000220082331 (hold 2 1 [8, 9] (hold 1 1 [1, 2, 3, 4] State.reset)) 3 1 [1, 2, 8, 9] = true ∧
    leaves 0x0001000120082331 (hold 2 1 [8, 9] (hold 1 1 [1, 2, 3, 4] State.reset)) 3 1 [1, 8, 9, 4] = true := by decide

/-- Row 6. -/
theorem test_join :
    leaves 0x0000000010082332 (hold 2 1 [3, 4] (hold 1 1 [1, 2] State.reset)) 3 1 [1, 2, 3, 4] = true := by decide

/-- Row 7. -/
theorem test_split :
    leaves 0x0000000420002333 (hold 1 1 [1, 2, 3, 4] State.reset) 3 1 [1, 2] = true ∧
    leaves 0x0000000420002333 (hold 1 1 [1, 2, 3, 4] State.reset) 4 1 [3, 4] = true := by decide

/-- Row 8. -/
theorem test_ilv :
    leaves 0x0000000010082334 (hold 2 1 [3, 4] (hold 1 1 [1, 2] State.reset)) 3 1 [1, 3, 2, 4] = true := by decide

/-- Row 9. -/
theorem test_dilv :
    leaves 0x0000000420002335 (hold 1 1 [1, 3, 2, 4] State.reset) 3 1 [1, 2] = true ∧
    leaves 0x0000000420002335 (hold 1 1 [1, 3, 2, 4] State.reset) 4 1 [3, 4] = true := by decide

/-- Rows 11 and 12. -/
theorem test_shuf1 :
    leaves 0x0000000320082336 (hold 2 2 [7, 0, 4, 4, 1, 1, 2, 3] (hold 1 1 [10, 20, 30, 40] State.reset)) 3 1
      [40, 10, 10, 10, 20, 20, 30, 40] = true ∧
    leaves 0x0000000120082336 (hold 2 2 [2, 0] (hold 1 1 [10, 20, 30, 40] State.reset)) 3 1 [30, 10] = true := by decide

/-- Row 13. -/
theorem test_shuf2 :
    leaves 0x0000050210082337 (hold 5 2 [3, 0, 2, 1] (hold 2 1 [3, 4] (hold 1 1 [1, 2] State.reset))) 3 1
      [4, 1, 3, 2] = true := by decide

/-- Rows 15, 16 and 25. -/
theorem test_rotl :
    leaves 0x0000FFFF20002338 (hold 1 1 [1, 2, 3, 4] State.reset) 3 1 [4, 1, 2, 3] = true ∧
    leaves 0x0000FFFC20002338 (hold 1 1 [1, 2, 3, 4] State.reset) 3 1 [1, 2, 3, 4] = true ∧
    leaves 0x0000000121002138 (hold 1 4 [0x11111111, 0x22222222, 0x33333333, 0x44444444] State.reset) 1 4
      [0x22222222, 0x33333333, 0x44444444, 0x11111111] = true := by decide

/-- Rows 17 to 19. -/
theorem test_rotr :
    leaves 0x0000000220002339 (hold 1 1 [3, 4, 1, 2] State.reset) 3 1 [1, 2, 3, 4] = true ∧
    leaves 0x0000000420002339 (hold 1 1 [1, 2, 3, 4] State.reset) 3 1 [1, 2, 3, 4] = true ∧
    leaves 0x0000FFFF20002339 (hold 1 1 [1, 2, 3, 4] State.reset) 3 1 [2, 3, 4, 1] = true := by decide

/-- Rows 20 and 21. -/
theorem test_shll :
    leaves 0x000000022000233A (hold 1 1 [1, 2, 3, 4] State.reset) 3 1 [3, 4, 0, 0] = true ∧
    leaves 0x000000042000233A (hold 1 1 [1, 2, 3, 4] State.reset) 3 1 [0, 0, 0, 0] = true := by decide

/-- Rows 22 and 23. -/
theorem test_shrl :
    leaves 0x000000012000233B (hold 1 1 [1, 2, 3, 4] State.reset) 3 1 [0, 1, 2, 3] = true ∧
    leaves 0x000000002000233B (hold 1 1 [1, 2, 3, 4] State.reset) 3 1 [1, 2, 3, 4] = true := by decide

/-- Rows 24 and 26. -/
theorem test_rev :
    leaves 0x000000002000233C (hold 1 1 [10, 20, 30, 40] State.reset) 3 1 [40, 30, 20, 10] = true ∧
    leaves 0x000000001C00233C (hold 1 4 [0x7FC00001, 0xFF800000] State.reset) 3 4 [0xFF800000, 0x7FC00001] = true := by
  decide

/-! ## Faults (section 6) -/

/-- Rows 1, 5 and 11: the decoder's causes as a step reports them. -/
theorem test_fault_illegal :
    faultsWith 0x0000000000000008 State.reset .illegalOpcode 0 = true ∧
    faultsWith 0x0000000100000000 State.reset .illegalField 0 = true ∧
    faultsWith 0x000000002A002220 State.reset .illegalType 0 = true := by decide

/-- Rows 14 to 19, and WIDTH before MISALIGN and ADDR. -/
theorem test_fault_width :
    ([0x000000005C000104, 0x000000004A004114, 0x0000000320002220, 0x0000000060082332, 0x0000000400002333,
      0x0000000620082336, 0x0000FFFE51000104] : List Nat).all
      (fun w => faultsWith w State.reset .width 0) = true := by decide

/-- Rows 20 to 27. -/
theorem test_fault_range :
    ([0x0000000420002203, 0x0001000320002330, 0x0003000020082331, 0x0000000420002338, 0x0000FFFC20002339,
      0x0000FFFF00002338, 0x000000052000233A, 0x0000FFFF2000233B] : List Nat).all
      (fun w => faultsWith w State.reset .range 0) = true := by decide

/-- Rows 28 to 31. -/
theorem test_fault_access :
    faultsWith 0x0000010201000104 State.reset .misalign 0x102 = true ∧
    faultsWith 0x0000FFFC0C802006 State.reset .misalign 0xFFFC = true ∧
    faultsWith 0x0000FFFC11000104 State.reset .addr 0xFFFC = true ∧
    faultsWith 0xFFFFFFFF00002006 State.reset .addr 0xFFFFFFFF = true := by decide

/-- Rows 32 and 33: the lowest bad lane of a mask. -/
theorem test_fault_mask :
    faultsWith 0x0000000220082336 (hold 2 2 [0, 7, 8, 9] (hold 1 1 [1, 2, 3, 4] State.reset)) .range 0x80000002 =
      true ∧
    faultsWith 0x0000050210082337 (hold 5 2 [3, 0, 2, 4] (hold 2 1 [3, 4] (hold 1 1 [1, 2] State.reset))) .range
      0x80000003 = true := by decide

/-! ## The host (section 7) -/

/-- The state after one event. -/
def afterEvent (s : State) (e : Event) : State :=
  match step (s.awaiting e) with
  | .next u => u
  | .fault _ | .refused _ => s

/-- What a 32-bit read of the offset returns. -/
def reads (s : State) (off : Nat) : HostResponse := (afterEvent s (s.hostRead off)).response

/-- Rows 1 and 2. -/
theorem test_host_constants :
    reads State.reset 0x000 = .data 0x4D560100 ∧ reads State.reset 0x004 = .data 0x00FC4206 ∧
    reads State.reset 0x02C = .data 0 ∧ reads State.reset 0x030 = .data 0 := by decide

/-- Row 3: read data 0. -/
theorem test_host_bus_error :
    (afterEvent State.reset (.host (.read 2 0x00C))).response = .busError 0 ∧ reads State.reset 0x00E = .busError 0 := by
  decide

/-- Rows 4 and 5. -/
theorem test_host_ctrl :
    reads (afterEvent State.reset (State.reset.hostWrite 0x008 0x7FFFFFFF)) 0x008 = .data 7 ∧
    reads (afterEvent State.reset (State.reset.hostWrite 0x008 0xFFFFFFF7)) 0x008 = .data 0 := by decide

/-- Rows 6 and 8: STATUS with 3 and with 16 words in the queue. -/
theorem test_host_status :
    reads { State.reset with queue := List.replicate 3 0 } 0x00C = .data 0x00000301 ∧
    reads { State.reset with queue := List.replicate 16 0 } 0x00C = .data 0x00001011 := by decide

/-- Row 9: the 17th push. -/
theorem test_host_overflow :
    let s := { State.reset with queue := List.replicate 16 0, cmdLo := 0x00000001 }
    let u := afterEvent s (s.hostWrite 0x034 0x0000ABCD)
    reads u 0x00C = .data 4 ∧ reads u 0x010 = .data 8 ∧ reads u 0x01C = .data 1 ∧ reads u 0x020 = .data 0xABCD := by
  decide

/-- Rows 10 and 11: a dropped push, and clearing ERR alone. -/
theorem test_host_dropped :
    let s := { takeFault .cmdqOverflow 0 0x0000ABCD00000001 State.reset with cmdLo := 0 }
    let u := afterEvent s (s.hostWrite 0x034 0)
    let v := afterEvent u (u.hostWrite 0x00C 4)
    reads u 0x00C = .data 0xC ∧ reads u 0x010 = .data 8 ∧ reads v 0x00C = .data 8 ∧ reads v 0x010 = .data 0 ∧
    reads v 0x01C = .data 1 := by decide

/-- Rows 13 and 15: the interrupt line. -/
theorem test_host_irq :
    (afterEvent { State.reset with en := true, ieDone := true, queue := [0x0000000700000001] } .block).irq = true ∧
    (afterEvent { State.reset with en := true, ieErr := true, queue := [0x08] } .block).irq = true := by decide

/-- Row 16: CMD_LO keeps its value over a push. -/
theorem test_host_push_twice :
    let s := { State.reset with cmdLo := 0x00000001 }
    let u := afterEvent s (s.hostWrite 0x034 5)
    (afterEvent u (u.hostWrite 0x034 6)).queue = [0x0000000500000001, 0x0000000600000001] := by decide

/-- Row 17, R53 and R55: the scratchpad window. -/
theorem test_host_spm :
    (afterEvent State.reset (State.reset.hostWrite 0x10000 0x04030201)).spm = [(0, 1), (1, 2), (2, 3), (3, 4)] ∧
    reads (spmFrom 4 [4, 3, 2, 1] State.reset) 0x10004 = .data 0x01020304 := by decide

/-- R240, R241: both resets, from a state with every field written. -/
theorem test_resets :
    let s := takeFault .range 5 0x1234 { hold 1 1 [1] (spmFrom 0 [1] State.reset) with
      en := true, ieDone := true, done := true, dropped := true, cseq := 9, sigVal := 7, cmdLo := 3 }
    afterEvent s .hardReset = State.reset ∧
    afterEvent s (s.hostWrite 0x008 0x80000000) = { State.reset with response := .done } := by decide

/-! ## Witnesses: each clause of a statement has operands that meet its hypotheses -/

/-- An enabled block with the words `ws` in its queue. -/
def queued (ws : List CmdWord) : State := { State.reset with en := true, queue := ws }

/-- A block with a fault pending. -/
def faulted : State := { takeFault .range 5 0x1234 (queued [0]) with done := true }

theorem reset_inv : State.reset.Inv where
  regsSized := by unfold State.regsSized; decide
  spmSound := ⟨by decide, by decide⟩
  queueBounded := by unfold State.queueBounded; decide
  faultSound := by unfold State.faultSound; decide

theorem faulted_inv : faulted.Inv where
  regsSized := by unfold State.regsSized; decide
  spmSound := ⟨by decide, by decide⟩
  queueBounded := by unfold State.queueBounded; decide
  faultSound := by unfold State.faultSound; decide

theorem witness_DecodeEncodeRoundTrip :
    (Instr.split 31 0 31 .f64 15).wf = true ∧ (Instr.redadd 0 31 .u256 15 0).wf = true := by decide

theorem witness_EncodeDecodeRoundTrip :
    decode 0xFFFFFFFFFCFE2007 = .error .illegalField ∧ decode 0xFFFFFFFFFC83E007 = .ok (.vstBe 31 .f64 15 0xFFFFFFFF) :=
  by decide

/-- The rows of SHUF2, CVT.BF16.F64, SPLIT and REDADD, and for each clause a word of one of them. -/
theorem witness_OpcodeTableMasks :
    (⟨.shuf2, 0xFFFFE0F0000000FF, 0x37⟩ : OpcodeRow) ∈ opcodeRows ∧
    (Fields.unpack 0x0000200000000037).opc = Opcode.shuf2.code ∧
    (0x0000200000000037 ^^^ 0x37) &&& (0xFFFFE0F0000000FF : CmdWord) &&& ~~~0 ≠ 0 ∧
    (⟨.cvtBf16F64, 0xFFFFFFFF0FFC00FF, 0x0C80001E⟩ : OpcodeRow) ∈ opcodeRows ∧
    (Fields.unpack 0x0C00001E).opc = Opcode.cvtBf16F64.code ∧
    ((0x0C00001E ^^^ 0x0C80001E) &&& (0xFFFFFFFF0FFC00FF : CmdWord)) &&& ~~~etBits = 0 ∧
    (0x0C00001E ^^^ 0x0C80001E) &&& (0xFFFFFFFF0FFC00FF : CmdWord) ≠ 0 ∧
    (⟨.split, 0xFFFFFFE0007C00FF, 0x33⟩ : OpcodeRow) ∈ opcodeRows ∧
    (0x0000001F20003F33 ^^^ 0x33) &&& (0xFFFFFFE0007C00FF : CmdWord) = 0 ∧ Opcode.split.isPair = true ∧
    (Fields.unpack 0x0000001F20003F33).vd = (Fields.unpack 0x0000001F20003F33).vd2 ∧
    (⟨.redadd, 0xFFFFFFF0007C00FF, 0x20⟩ : OpcodeRow) ∈ opcodeRows ∧
    (0x0000000028002220 ^^^ 0x20) &&& (0xFFFFFFF0007C00FF : CmdWord) = 0 ∧ Opcode.redadd.isPair = false := by decide

theorem witness_AdmittedElementTypes :
    ((Fields.unpack 0x00800002).opc = Opcode.vzero.code ∧ Opcode.vzero.untyped = true ∧
      (Fields.unpack 0x00800002).et ≠ 0) ∧
    ((Fields.unpack 0x000000002C802220).opc = Opcode.redadd.code ∧ Opcode.redadd.untyped = false ∧
      decode 0x000000002C802220 ≠ .error .illegalField ∧ 25 ∈ Opcode.redadd.admittedCodes) ∧
    ((Fields.unpack 0x000000002D002220).opc = Opcode.redadd.code ∧ decode 0x000000002D002220 ≠ .error .illegalField ∧
      (Fields.unpack 0x000000002D002220).et.toNat ∉ Opcode.redadd.admittedCodes ∧
      (queued [0x000000002D002220]).en = true ∧ (queued [0x000000002D002220]).err = false ∧
      (queued [0x000000002D002220]).queue = [0x000000002D002220]) := by decide

/-- The edges of R86's opcode ranges, and reserved ET codes in a used and in an unused ET field. -/
theorem witness_IllegalEncodings :
    (unassignedOpc 0x08 ∧ unassignedOpc 0x0F ∧ unassignedOpc 0x27 ∧ unassignedOpc 0x2F ∧ unassignedOpc 0x3D ∧
      unassignedOpc 0xFF ∧ ¬unassignedOpc 0x07 ∧ ¬unassignedOpc 0x10 ∧ ¬unassignedOpc 0x26 ∧ ¬unassignedOpc 0x30 ∧
      ¬unassignedOpc 0x3C) ∧
    ((Fields.unpack 0x0F800001).opc = Opcode.signal.code ∧ (Fields.unpack 0x0F800001).et.toNat = 31 ∧
      Opcode.signal.untyped = true) ∧
    ((Fields.unpack 0x03000003).opc = Opcode.vsplat.code ∧ (Fields.unpack 0x03000003).et.toNat = 6 ∧
      Opcode.vsplat.untyped = false ∧ decode 0x03000003 ≠ .error .illegalField) ∧
    (Fields.unpack 0x8000000000000000).opc = 0 ∧
    (decode 0x13 = .error .illegalOpcode ∧ (queued [0x13]).en = true ∧ (queued [0x13]).err = false ∧
      (queued [0x13]).queue = [0x13]) := by
  refine ⟨?_, by decide⟩
  norm_num [unassignedOpc]

theorem witness_StepRunsDecodedCommand :
    (queued [0x1, 0x0]).en = true ∧ (queued [0x1, 0x0]).err = false ∧ (queued [0x1, 0x0]).queue = [0x1, 0x0] ∧
    decode 0x1 = .ok (.signal 0) ∧ (queued [0x1, 0x0]).agenda = [] := by decide

/-- Each way to be idle, a word that retires and one that faults. -/
theorem witness_BlockTurnRetiresOrFaults :
    State.reset.en = false ∧ faulted.err = true ∧ (queued []).queue = [] ∧
    ((queued [0x0]).en = true ∧ (queued [0x0]).err = false ∧ (queued [0x0]).queue = [0x0]) ∧
    ((queued [0x8]).en = true ∧ (queued [0x8]).err = false ∧ (queued [0x8]).queue = [0x8]) := by decide

theorem witness_FaultEntry :
    (queued [0x8, 0x0]).en = true ∧ (queued [0x8, 0x0]).err = false ∧ (queued [0x8, 0x0]).queue = [0x8, 0x0] ∧
    (∃ u, step ((queued [0x8, 0x0]).awaiting .block) = .next u ∧ u.err = true) ∧ faulted.err = true :=
  ⟨by decide, by decide, by decide, ⟨_, rfl, by decide⟩, by decide⟩

/-- A word for each clause; every one stands at the head of the queue of an enabled block with no fault pending. -/
theorem witness_ChecksInOrder :
    ((queued [0x8]).en = true ∧ (queued [0x8]).err = false ∧ ∀ op ∈ Opcode.all, (Fields.unpack 0x8).opc ≠ op.code) ∧
    (Fields.unpack 0x100).unusedNonzero Opcode.nop.uses = true ∧
    (Opcode.split.isPair = true ∧ (Fields.unpack 0x0000000320002333).vd = (Fields.unpack 0x0000000320002333).vd2) ∧
    ((Fields.unpack 0x000000002A002220).unusedNonzero Opcode.redadd.uses = false ∧ Opcode.redadd.isPair = false ∧
      Opcode.redadd.untyped = false ∧ (Fields.unpack 0x000000002A002220).et.toNat ∉ Opcode.redadd.admittedCodes) := by
  decide

/-- The clauses of ChecksInOrder from the width check on, at their edges, in the default configuration. -/
theorem witness_ChecksInOrder_operands :
    (64 < count 5 * EType.u32.esize ∧ ¬64 < count 4 * EType.u32.esize) ∧
    (count 2 ≤ (4 : BitVec 16).toNat ∧ ¬count 2 ≤ (3 : BitVec 16).toNat) ∧
    ((0xFFFC : Word).toNat % EType.f64.esize ≠ 0 ∧ (0xFFFC : Word).toNat % EType.u32.esize = 0 ∧
      (queued []).cfg.spmBytes < (0xFFFC : Word).toNat + count 1 * EType.u32.esize ∧
      (0xFFFC : Word).toNat + count 0 * EType.u32.esize ≤ (queued []).cfg.spmBytes) ∧
    (let s := hold 2 2 [0, 7, 8, 9] (queued [0x0000000220082336]);
      2 * count 2 ≤ (s.lane 1 2 2 2).toNat ∧ ∀ j < 2, (s.lane 1 2 2 j).toNat < 2 * count 2) ∧
    (let s := hold 2 2 [0, 7, 4, 3] (queued [0x0000000220082336]);
      ∀ j < count 2, (s.lane 1 2 2 j).toNat < 2 * count 2) := by decide

/-- For each shape of row of R218, a command that just fits and one that just does not. -/
theorem witness_WidthChecks :
    (Instr.vld 1 .u32 4 0).wf = true ∧ ¬widthFaults Config.reference (.vld 1 .u32 4 0) ∧
    widthFaults Config.reference (.vld 1 .u32 5 0) ∧
    ¬widthFaults Config.reference (.cvtE4m3F32 2 1 4) ∧ widthFaults Config.reference (.cvtE4m3F32 2 1 5) ∧
    ¬widthFaults Config.reference (.cvtF64Bf16 2 1 3) ∧ widthFaults Config.reference (.cvtF64Bf16 2 1 4) ∧
    ¬widthFaults Config.reference (.redadd 2 1 .u8 2 2) ∧ widthFaults Config.reference (.redadd 2 1 .u8 2 3) ∧
    ¬widthFaults Config.reference (.join 3 1 2 .u8 5) ∧ widthFaults Config.reference (.join 3 1 2 .u8 6) ∧
    ¬widthFaults Config.reference (.split 3 4 1 .u8 1) ∧ widthFaults Config.reference (.split 3 4 1 .u8 0) ∧
    ¬widthFaults Config.reference (.shuf1 3 1 2 .u8 6 5) ∧ widthFaults Config.reference (.shuf1 3 1 2 .u8 2 6) := by
  unfold widthFaults; decide

/-- For each row of R219, an amount at the edge of its range and one just beyond it. -/
theorem witness_ImmediateRangeChecks :
    (Instr.vsplat 2 1 .u8 2 4).wf = true ∧ ¬widthFaults Config.reference (.vsplat 2 1 .u8 2 4) ∧
    rangeFaults (.vsplat 2 1 .u8 2 4) ∧ ¬rangeFaults (.vsplat 2 1 .u8 2 3) ∧
    rangeFaults (.slice 3 1 .u8 2 3 1) ∧ ¬rangeFaults (.slice 3 1 .u8 2 2 1) ∧
    rangeFaults (.insert 3 1 2 .u8 2 1 2) ∧ ¬rangeFaults (.insert 3 1 2 .u8 2 0 2) ∧
    rangeFaults (.rotl 3 1 .u8 2 4) ∧ ¬rangeFaults (.rotl 3 1 .u8 2 0xFFFC) ∧ rangeFaults (.rotl 3 1 .u8 2 0xFFFB) ∧
    rangeFaults (.rotr 3 1 .u8 2 0xFFFC) ∧ ¬rangeFaults (.rotr 3 1 .u8 2 4) ∧ rangeFaults (.rotr 3 1 .u8 2 5) ∧
    rangeFaults (.rotl 3 1 .u8 0 0xFFFF) ∧ rangeFaults (.rotr 3 1 .u8 0 1) ∧ ¬rangeFaults (.rotr 3 1 .u8 0 0) ∧
    rangeFaults (.shll 3 1 .u8 2 5) ∧ ¬rangeFaults (.shrl 3 1 .u8 2 4) := by
  unfold rangeFaults widthFaults; decide

/-- A turn of the block, a write to STATUS that clears all but ERR, and one to CTRL that is no reset. -/
theorem witness_FaultsDoNotNest :
    faulted.err = true ∧ Event.block ≠ .hardReset ∧
    (∀ off v, Event.block ≠ faulted.hostWrite off v) ∧
    (∀ v : Word, faulted.hostWrite 0x00C 0xFFFFFFFB = faulted.hostWrite 0x00C v → v.getLsbD 2 = false) ∧
    (∀ v : Word, faulted.hostWrite 0x008 0x7FFFFFFF = faulted.hostWrite 0x008 v → v.getLsbD 31 = false) := by
  refine ⟨by decide, by decide, fun off v h => by simp [State.hostWrite] at h, fun v h => ?_, fun v h => ?_⟩ <;>
    · simp only [State.hostWrite, Event.host.injEq, HostAccess.write.injEq, true_and] at h
      subst h
      decide

theorem witness_StepKeepsInvariant :
    State.reset.Inv ∧ step State.reset = .next State.reset ∧ faulted.Inv := ⟨reset_inv, rfl, faulted_inv⟩

theorem witness_ResetsLeaveResetValues : (0xFFFFFFF7 : Word).getLsbD 31 = true := by decide

/-- One event for each clause: a retirement at the wrap of CSEQ, a fault, an idle turn, the host's accesses. -/
theorem witness_CseqCountsRetirements :
    (let s := { queued [0x0] with cseq := 0xFFFFFFFF };
      s.canExecute = true ∧ (afterEvent s .block).err = false ∧ (afterEvent s .block).cseq = 0) ∧
    ((queued [0x8]).canExecute = true ∧ (afterEvent (queued [0x8]) .block).err = true) ∧
    State.reset.canExecute = false ∧ (0x80000000 : Word).getLsbD 31 = true ∧
    (∀ v : Word, State.reset.hostRead 0x024 ≠ State.reset.hostWrite 0x008 v) := by
  refine ⟨by decide, by decide, by decide, by decide, fun v h => by simp [State.hostRead, State.hostWrite] at h⟩

theorem witness_CommandsTouchOnly :
    (∃ u, exec .nop (queued [0x0]) = .next u ∧ (queued [0x0]).err = false ∧ u.err = false) ∧
    (∃ u, exec (.vld 1 .u32 5 0) (queued [0x0]) = .next u ∧ u.err = true) ∧
    (∀ sig, Instr.nop ≠ .signal sig) ∧ ∀ vs t n a, Instr.nop ≠ .vst vs t n a ∧ Instr.nop ≠ .vstBe vs t n a := by
  refine ⟨⟨_, rfl, by decide⟩, ⟨_, rfl, by decide⟩, by simp, by simp⟩

/-- A CTRL write that is no reset, and a STATUS write, which is in no scratchpad window. -/
theorem witness_HostAccessesKeepRegisters :
    (∀ v : Word, faulted.hostWrite 0x008 0x7FFFFFFF = faulted.hostWrite 0x008 v → v.getLsbD 31 = false) ∧
    (∀ (off : Nat) (v : Word), 0x10000 ≤ off → faulted.hostWrite 0x00C 4 ≠ faulted.hostWrite off v) := by
  constructor
  · intro v h
    simp only [State.hostWrite, Event.host.injEq, HostAccess.write.injEq, true_and] at h
    subst h
    decide
  · intro off v ho h
    simp only [State.hostWrite, Event.host.injEq, HostAccess.write.injEq, true_and, Nat.add_left_cancel_iff] at h
    omega

theorem witness_PermutationsIgnoreLaneType :
    EType.esize .u32 = EType.esize .f32 ∧ EType.esize .bool = EType.esize .e5m2 ∧
    EType.esize .f16 = EType.esize .bf16 := by decide

theorem witness_NopOnlyCounts : (Fields.unpack 0x0).opc = 0x00 ∧ (Fields.unpack 0x100).opc = 0x00 := by decide

/-- The whole register, and its last lane. -/
theorem witness_VsplatCompletes :
    count 5 * EType.u16.esize ≤ State.reset.cfg.vlenb ∧ (31 : BitVec 16).toNat < count 5 := by decide

/-- An access that ends exactly at SPM_BYTES; it meets the hypotheses of all four statements on memory commands. -/
theorem witness_LoadsComplete :
    count 1 * EType.u256.esize ≤ State.reset.cfg.vlenb ∧ (0xFFC0 : Word).toNat % EType.u256.esize = 0 ∧
    (0xFFC0 : Word).toNat + count 1 * EType.u256.esize ≤ State.reset.cfg.spmBytes := by decide

theorem witness_StoresComplete :
    State.reset.spmSound ∧ count 0 * EType.f64.esize ≤ State.reset.cfg.vlenb ∧
    (0xFFF8 : Word).toNat % EType.f64.esize = 0 ∧
    (0xFFF8 : Word).toNat + count 0 * EType.f64.esize ≤ State.reset.cfg.spmBytes := ⟨reset_inv.spmSound, by decide⟩

theorem witness_LoadAfterStore :
    (spmFrom 0 [1, 2] State.reset).spmSound ∧ count 4 * EType.i32.esize ≤ State.reset.cfg.vlenb ∧
    (0 : Word).toNat % EType.i32.esize = 0 ∧
    (0 : Word).toNat + count 4 * EType.i32.esize ≤ State.reset.cfg.spmBytes := ⟨⟨by decide, by decide⟩, by decide⟩

theorem witness_AccessChecks :
    count 1 * EType.u32.esize ≤ State.reset.cfg.vlenb ∧ (0xFFFD : Word).toNat % EType.u32.esize ≠ 0 ∧
    (0xFFFC : Word).toNat % EType.u32.esize = 0 ∧
    State.reset.cfg.spmBytes < (0xFFFC : Word).toNat + count 1 * EType.u32.esize ∧
    (0xFFFC : Word).toNat + count 0 * EType.u32.esize ≤ State.reset.cfg.spmBytes := by decide

/-- Both bounds, for the decodes and the encodes, met with equality. -/
theorem witness_ConvertsComplete :
    count 4 * 4 ≤ State.reset.cfg.vlenb ∧ count 3 * 8 ≤ State.reset.cfg.vlenb := by decide

/-- A largest finite pattern of each format, a NaN of each, and an infinity. -/
theorem witness_NarrowDecodeIsExact :
    Fmt8.isFinite .e4m3 0x7E = true ∧ Fmt8.isFinite .e5m2 0xFB = true ∧ Fmt8.isFinite .e4m3 0xFF = false ∧
    Fmt8.isFinite .e5m2 0x7D = false ∧ (0x7D : BitVec 8).toNat % 4 ≠ 0 ∧ Fmt8.isFinite .e5m2 0x7C = false := by decide

/-- An infinity, a finite input, and a finite pattern with another of another value. -/
theorem witness_NarrowEncodeIsNearestEven :
    fmtF32.isNaNPattern (0x7F800000 : BitVec 32) = false ∧ fmtF32.isFinite (0x7F800000 : BitVec 32) = false ∧
    fmtF32.isNaNPattern (0x7F7FFFFF : BitVec 32) = false ∧ fmtF32.isFinite (0x7F7FFFFF : BitVec 32) = true ∧
    Fmt8.isFinite .e4m3 0x7E = true := by decide

/-- The first NaN, the infinity, half the smallest subnormal and the patterns next to it, and that subnormal. -/
theorem witness_NarrowEncodeCorners :
    0x7F800000 < (0x7F800001 : BitVec 32).toNat % 2 ^ 31 ∧ (0xFF800000 : BitVec 32).toNat % 2 ^ 31 = 0x7F800000 ∧
    (0xBA800000 : BitVec 32).toNat % 2 ^ 31 ≤ 0x3A800000 ∧ 0x3A800000 < (0x3A800001 : BitVec 32).toNat % 2 ^ 31 ∧
    (0x3B000000 : BitVec 32).toNat % 2 ^ 31 ≤ 0x3B000000 ∧
    (enc8 Config.reference .e4m3 0x3A800000 = 0 ∧ enc8 Config.reference .e4m3 0x3A800001 = 1 ∧
      enc8 Config.reference .e5m2 0x37000000 = 0 ∧ enc8 Config.reference .e5m2 0x37800000 = 1) := by decide

theorem witness_Bf16DecodeIsExact :
    fmtBf16.isFinite (0x7F7F : BitVec 16) = true ∧ (0x807F : BitVec 16).toNat / 2 ^ 7 % 2 ^ 8 = 0 ∧
    fmtBf16.isNaNPattern (0xFF81 : BitVec 16) = true := by decide

theorem witness_Bf16EncodeIsNearestEven :
    fmtF32.isFinite (0x7F7FFFFF : BitVec 32) = true ∧ fmtF32.isNaNPattern (0xFF800000 : BitVec 32) = false ∧
    fmtF32.isNaNPattern (0x7F800001 : BitVec 32) = true := by decide

theorem witness_F32ToF64IsExact :
    fmtF32.isNaNPattern (0xFFFFFFFF : BitVec 32) = true ∧ fmtF32.isFinite (0x00000001 : BitVec 32) = true := by decide

theorem witness_F64ToF32IsNearestEven :
    fmtF64.isNaNPattern (0x7FF0000000000001 : BitVec 64) = true ∧
    fmtF64.isFinite (0x7FEFFFFFFFFFFFFF : BitVec 64) = true := by decide

/-- No halving (LOGO = LOGN), and a numeric type that fills the register; a bitwise type. -/
theorem witness_ReductionsComplete :
    (3 : LogCount).val ≤ (3 : LogCount).val ∧ count 3 * EType.f64.esize ≤ State.reset.cfg.vlenb ∧
    EType.isNumeric .f64 = true ∧ count 3 * EType.bool.esize ≤ State.reset.cfg.vlenb ∧ EType.isBitwise .bool = true := by
  decide

/-- Eight lanes reduced to two: j = 1 depends on lanes 1, 3, 5 and 7 alone. -/
theorem witness_ReductionTreePairsHalves :
    [1, 2, 3, 4, 5, 6, 7, 8].length = 2 ^ (2 + 1) ∧ [0, 2, 0, 4, 0, 6, 0, 8].length = 2 ^ (2 + 1) ∧ 1 < 2 ^ 1 ∧
    ∀ i < 2 ^ 2, [1, 2, 3, 4, 5, 6, 7, 8].getD (1 + i * 2 ^ 1) 0 = [0, 2, 0, 4, 0, 6, 0, 8].getD (1 + i * 2 ^ 1) 0 := by
  decide

theorem witness_IntegerReductionTotals :
    ([1, 2, 3, 4] : List (BitVec (8 * EType.i256.esize))).length = 2 ^ (1 + 1) ∧ 1 < 2 ^ 1 ∧
    EType.isInteger .i256 = true ∧ 255 < 8 * EType.i256.esize := by decide

theorem witness_IntegerCombiners :
    EType.isInteger .u8 = true ∧ EType.u8 ∈ [EType.u8, .u16, .u32, .u64, .u128, .u256] ∧
    EType.isInteger .i256 = true ∧ EType.i256 ∈ [EType.i8, .i16, .i32, .i64, .i128, .i256] := by decide

theorem witness_CombinersCommute : EType.isNumeric .f32 = true ∧ EType.isNumeric .u128 = true := by decide

/-- The premises of the rules of R193 to R195: a NaN, finite patterns, a value and its negative, the two zeros. -/
theorem witness_FloatArithmetic :
    fmtF32.isNaNPattern (0x7F800001 : BitVec 32) = true ∧ fmtF32.isFinite (0x3F800000 : BitVec 32) = true ∧
    fmtF32.isFinite (0xBF800000 : BitVec 32) = true ∧ fmtF32.isNaNPattern (0x80000000 : BitVec 32) = false ∧
    fmtF32.zero 32 true = 0x80000000 ∧ fmtF32.infinity 32 true = 0xFF800000 := by decide

/-- A pair of finite patterns with sum 0, one with another sum, and a finite pattern that is not zero. -/
theorem witness_FloatAddition_sums :
    fmtF32.realValue (0x3F800000 : BitVec 32) + fmtF32.realValue (0xBF800000 : BitVec 32) = 0 ∧
    fmtF32.realValue (0x3F800000 : BitVec 32) + fmtF32.realValue (0x3F800000 : BitVec 32) ≠ 0 ∧
    fmtF32.realValue (0x3F800000 : BitVec 32) ≠ 0 := by decide +kernel

/-- The last lanes: OFF + W = N. -/
theorem witness_SliceAndInsertComplete :
    count 6 * EType.u8.esize ≤ State.reset.cfg.vlenb ∧ (32 : BitVec 16).toNat + count 5 ≤ count 6 := by decide

/-- JOIN and ILV to a whole register; SPLIT and DILV of two lanes and of a whole register. -/
theorem witness_JoinAndSplitComplete :
    ((5 : LogCount).val ≤ 14 ∧ 2 * count 5 * EType.u8.esize ≤ State.reset.cfg.vlenb) ∧
    ((3 : VReg) ≠ 4 ∧ count 1 * EType.u256.esize ≤ State.reset.cfg.vlenb ∧ 2 ≤ count 1) := by decide

/-- A mask whose entries are the largest good one and 0, and masks that reach 2N in their last and first lane. -/
theorem witness_ShufflesCompleteOrFault :
    (count 2 * EType.u8.esize ≤ State.reset.cfg.vlenb ∧ 2 * count 2 ≤ State.reset.cfg.vlenb) ∧
    (let s := hold 2 2 [7, 0, 4, 3] State.reset;
      ∀ i < count 2, (s.lane 1 2 2 i).toNat < 2 * count 2 ∧ (s.lane 2 2 2 i).toNat < 2 * count 2) ∧
    (let s := hold 2 2 [7, 0, 4, 8] State.reset;
      2 * count 2 ≤ (s.lane 1 2 2 3).toNat ∧ (∀ i < 3, (s.lane 1 2 2 i).toNat < 2 * count 2) ∧
      2 * count 2 ≤ (s.lane 2 2 2 3).toNat ∧ ∀ i < 3, (s.lane 2 2 2 i).toNat < 2 * count 2) ∧
    (let s := hold 2 2 [8, 0, 4, 3] State.reset;
      2 * count 2 ≤ (s.lane 1 2 2 0).toNat ∧ ∀ i < 0, (s.lane 1 2 2 i).toNat < 2 * count 2) := by decide

/-- Amounts at the ends of the ranges of ROTL, ROTR, SHLL and SHRL, and the one lane that only 0 rotates. -/
theorem witness_RotatesShiftsReverseComplete :
    count 6 * EType.u8.esize ≤ State.reset.cfg.vlenb ∧
    (-(count 6 : Int) ≤ (0xFFC0 : BitVec 16).toInt ∧ (0xFFC0 : BitVec 16).toInt < count 6 ∧ count 6 ≠ 1) ∧
    (-(count 6 : Int) < (64 : BitVec 16).toInt ∧ (64 : BitVec 16).toInt ≤ count 6) ∧
    (64 : BitVec 16).toNat ≤ count 6 ∧
    (count 0 = 1 ∧ (0 : BitVec 16).toInt = 0 ∧ -(count 0 : Int) ≤ (0 : BitVec 16).toInt ∧
      (0 : BitVec 16).toInt < count 0) := by decide

/-- The premises of the six identities of R174. -/
theorem witness_StructuralIdentities :
    ((6 : LogCount).val = (5 : LogCount).val + 1 ∧ 2 * count 5 * EType.u8.esize ≤ State.reset.cfg.vlenb ∧
      (3 : VReg) ≠ 4 ∧ (32 : BitVec 16).toNat = count 5) ∧
    (-(count 2 : Int) < (0xFFFD : BitVec 16).toInt ∧ (0xFFFD : BitVec 16).toInt < count 2) ∧
    (let s := hold 2 2 [3, 2, 1, 0] State.reset;
      2 * count 2 ≤ s.cfg.vlenb ∧ ∀ i < count 2, (s.lane 1 2 2 i).toNat = count 2 - 1 - i) ∧
    (4 : BitVec 16).toNat ≤ count 2 := by decide

theorem witness_PushEnqueuesFaultsOrDrops :
    faulted.err = true ∧
    (let s := { State.reset with queue := List.replicate 16 0 };
      s.err = false ∧ s.queue.length = s.cfg.cmdqDepth) ∧
    (let s := { State.reset with queue := List.replicate 15 0 };
      s.err = false ∧ s.queue.length ≠ s.cfg.cmdqDepth) := by decide

theorem witness_IdAndCapConstants : State.reset.cfg = .reference := by decide

theorem witness_CtrlRegister :
    (0x7FFFFFFF : Word).getLsbD 31 = false ∧ (0x80000000 : Word).getLsbD 31 = true := by decide

theorem witness_StatusRegister :
    State.queueBounded State.reset ∧ State.queueBounded { State.reset with queue := List.replicate 16 0 } := by
  unfold State.queueBounded; decide

theorem witness_FaultReturn :
    faulted.Inv ∧ State.reset.Inv ∧ (0x00000004 : Word).getLsbD 1 = false ∧ (0x00000004 : Word).getLsbD 2 = true ∧
    (0x00000004 : Word).getLsbD 3 = false ∧ faulted.err = true ∧ State.reset.err = false :=
  ⟨faulted_inv, reset_inv, by decide⟩

/-- The ends of the reserved ranges, with a scratchpad that leaves one after it, and bad sizes and alignments. -/
theorem witness_BusErrorsAndReservedOffsets :
    (∀ off ∈ [0x02C, 0x038, 0xFFFC], off % 4 = 0 ∧ (off = 0x02C ∨ (0x038 ≤ off ∧ off < 0x10000))) ∧
    (let c := { Config.reference with spmExp := 0 };
      0x10000 + c.spmBytes ≤ 0x11000 ∧ 0x10000 + c.spmBytes ≤ 0x1FFFC ∧ 0x1FFFC < 0x20000) ∧
    (0x00E < 0x20000 ∧ 0x00E % 4 ≠ 0) ∧ (2 : Nat) ≠ 4 ∧
    (0x7FFFFFFF : Word) &&& 0x80000007 = 0x00000007 &&& 0x80000007 ∧ (0xFFFFFFF1 : Word) &&& 0xE = 0 &&& 0xE := by
  decide

/-- The last word of the scratchpad, and the first one after a smaller scratchpad. -/
theorem witness_ScratchpadWindow :
    (State.reset.spmSound ∧ 0xFFFC % 4 = 0 ∧ 0xFFFC + 4 ≤ State.reset.cfg.spmBytes) ∧
    (let s := State.resetWith { Config.reference with spmExp := 0 };
      s.spmSound ∧ s.cfg.spmBytes ≤ 0x1000 ∧ 0x1000 < 0x10000) :=
  ⟨⟨reset_inv.spmSound, by decide⟩, ⟨by decide, by decide⟩, by decide⟩

/-- SIGNAL, a fault of a command, the overflow of a push, and a CTRL write each raise the line. -/
theorem witness_InterruptSources :
    (let s := { queued [0x1] with ieDone := true };
      s.irq = false ∧ (afterEvent s .block).irq = true) ∧
    (let s := { queued [0x8] with ieErr := true };
      s.irq = false ∧ (afterEvent s .block).irq = true) ∧
    (let s := { queued (List.replicate 16 0) with ieErr := true };
      s.irq = false ∧ (afterEvent s (s.hostWrite 0x034 0)).irq = true) ∧
    (faulted.irq = false ∧ (afterEvent faulted (faulted.hostWrite 0x008 4)).irq = true) := by decide

end Sys2Proof.Tests
end

section
/-!
SUPPORT. Rounding to nearest, ties to even (R12), of every exact value. The finite patterns of one sign are ordered by
their magnitude field (exponent and mantissa together), and the values they denote increase with it. So a magnitude
rounds a value to nearest, ties to even, when the value lies between the two midpoints around it, and on one of them
only if the magnitude is even. The magnitude the model rounds to is shown to be of that kind, and the pattern made of
it to be the one R12 names.
-/
namespace Sys2Proof.Machine

/-! ## The value of a magnitude field (R11) -/

/-- The exponent and mantissa fields of a pattern, together as one number. -/
def FloatFmt.magnitude (f : FloatFmt) {w : Nat} (x : BitVec w) : Nat := x.toNat % 2 ^ (f.E + f.M)

/-- The value of a magnitude field in units of the lowest subnormal bit. -/
def FloatFmt.magnitudeUnits (f : FloatFmt) (n : Nat) : Nat :=
  if n / 2 ^ f.M = 0 then n else (2 ^ f.M + n % 2 ^ f.M) * 2 ^ (n / 2 ^ f.M - 1)

/-- The value of a magnitude field (R11), had the exponent field no largest value. -/
def FloatFmt.magnitudeValue (f : FloatFmt) (n : Nat) : ℚ := f.magnitudeUnits n * (2 : ℚ) ^ f.ulpMin

/-- The sign of a pattern as a factor (R11). -/
def signFactor (neg : Bool) : ℚ := if neg then -1 else 1

theorem FloatFmt.magnitudeUnits_subnormal {f : FloatFmt} {n : Nat} (h : n < 2 ^ f.M) : f.magnitudeUnits n = n := by
  simp [magnitudeUnits, Nat.div_eq_of_lt h]

theorem FloatFmt.magnitudeUnits_normal (f : FloatFmt) (k : Nat) {m : Nat} (h : m < 2 ^ f.M) :
    f.magnitudeUnits ((k + 1) * 2 ^ f.M + m) = (2 ^ f.M + m) * 2 ^ k := by
  have hdiv : ((k + 1) * 2 ^ f.M + m) / 2 ^ f.M = k + 1 := by
    rw [Nat.mul_comm, Nat.mul_add_div (Nat.two_pow_pos _), Nat.div_eq_of_lt h, Nat.add_zero]
  have hmod : ((k + 1) * 2 ^ f.M + m) % 2 ^ f.M = m := by
    rw [Nat.mul_comm, Nat.mul_add_mod, Nat.mod_eq_of_lt h]
  simp [magnitudeUnits, hdiv, hmod]

/-- `q` lies in binade `k` (counted from that of the subnormals, and with the upper end). -/
def FloatFmt.InBinade (f : FloatFmt) (k q : Nat) : Prop := (k = 0 ∨ 2 ^ f.M ≤ q) ∧ q ≤ 2 ^ (f.M + 1)

/-- In a binade the magnitudes count the value in steps of one unit of its last place, carries included. -/
theorem FloatFmt.magnitudeUnits_binade {f : FloatFmt} {k q : Nat} (h : f.InBinade k q) :
    f.magnitudeUnits (k * 2 ^ f.M + q) = q * 2 ^ k := by
  obtain ⟨hlo, hhi⟩ := h
  rw [pow_succ] at hhi
  rcases Nat.lt_or_ge q (2 ^ f.M) with hsub | hnorm
  · obtain rfl : k = 0 := by omega
    simpa using magnitudeUnits_subnormal hsub
  obtain ⟨m, rfl⟩ := Nat.exists_eq_add_of_le hnorm
  rcases Nat.lt_or_ge m (2 ^ f.M) with hm | hm
  · rw [← magnitudeUnits_normal f k hm]
    ring_nf
  · obtain rfl : m = 2 ^ f.M := by omega
    have hcarry := magnitudeUnits_normal f (k + 1) (Nat.two_pow_pos f.M)
    rw [show k * 2 ^ f.M + (2 ^ f.M + 2 ^ f.M) = (k + 1 + 1) * 2 ^ f.M + 0 by ring, hcarry]
    ring

theorem FloatFmt.magnitudeValue_binade {f : FloatFmt} {k q : Nat} (h : f.InBinade k q) :
    f.magnitudeValue (k * 2 ^ f.M + q) = q * (2 : ℚ) ^ (k + f.ulpMin) := by
  rw [magnitudeValue, magnitudeUnits_binade h, zpow_add₀ two_ne_zero]
  push_cast
  rw [zpow_natCast, mul_assoc]

/-- Every magnitude lies in a binade, below its upper end. -/
theorem FloatFmt.exists_binade (f : FloatFmt) (n : Nat) :
    ∃ k q, n = k * 2 ^ f.M + q ∧ f.InBinade k q ∧ q < 2 ^ (f.M + 1) := by
  have hn := Nat.div_add_mod' n (2 ^ f.M)
  have hm : n % 2 ^ f.M < 2 ^ f.M := Nat.mod_lt _ (Nat.two_pow_pos _)
  have htop : 2 ^ (f.M + 1) = 2 ^ f.M + 2 ^ f.M := by rw [pow_succ, mul_two]
  cases hk : n / 2 ^ f.M with
  | zero =>
    rw [hk] at hn
    exact ⟨0, n % 2 ^ f.M, hn.symm, ⟨.inl rfl, by omega⟩, by omega⟩
  | succ k =>
    rw [hk, Nat.succ_mul, Nat.add_assoc] at hn
    exact ⟨k, 2 ^ f.M + n % 2 ^ f.M, hn.symm, ⟨.inr (Nat.le_add_right _ _), by omega⟩, by omega⟩

theorem FloatFmt.magnitudeValue_strictMono (f : FloatFmt) : StrictMono f.magnitudeValue := by
  refine strictMono_nat_of_lt_succ fun n => ?_
  obtain ⟨k, q, rfl, hq, hlt⟩ := f.exists_binade n
  have hq' : f.InBinade k (q + 1) := ⟨hq.1.imp_right Nat.le_succ_of_le, hlt⟩
  rw [magnitudeValue_binade hq, Nat.add_assoc, magnitudeValue_binade hq']
  gcongr
  exact Nat.lt_succ_self q

theorem FloatFmt.magnitudeValue_zero (f : FloatFmt) : f.magnitudeValue 0 = 0 := by
  simp [magnitudeValue, magnitudeUnits]

theorem FloatFmt.magnitudeValue_nonneg (f : FloatFmt) (n : Nat) : 0 ≤ f.magnitudeValue n :=
  f.magnitudeValue_zero ▸ f.magnitudeValue_strictMono.monotone (Nat.zero_le n)

/-! ## Nearest, ties to even -/

/-- `q` is the natural number nearest to `y`, the even one on a tie (R12). -/
structure NearestNat (q : Nat) (y : ℚ) : Prop where
  near : |y - q| ≤ 1 / 2
  tie : |y - q| = 1 / 2 → Even q

theorem NearestNat.natCast (q : Nat) : NearestNat q (q : ℚ) := ⟨by norm_num, by norm_num⟩

/-- A number nearest to a value of at least `a` is at least `a`. -/
theorem NearestNat.le {q a : Nat} {y : ℚ} (h : NearestNat q y) (hy : (a : ℚ) ≤ y) : a ≤ q := by
  obtain ⟨-, hnear⟩ := abs_le.mp h.near
  have : (a : ℚ) < q + 1 := by linarith
  exact_mod_cast Order.le_of_lt_add_one (by exact_mod_cast this)

/-- A number nearest to a value of at most `b` is at most `b`. -/
theorem NearestNat.ge {q b : Nat} {y : ℚ} (h : NearestNat q y) (hy : y ≤ b) : q ≤ b := by
  obtain ⟨hnear, -⟩ := abs_le.mp h.near
  have : (q : ℚ) < b + 1 := by linarith
  exact_mod_cast Order.le_of_lt_add_one (by exact_mod_cast this)

theorem roundShift_nearest (mant k : Nat) : NearestNat (roundShift mant k) (mant / 2 ^ k) := by
  have hp : (0 : ℚ) < 2 ^ k := by positivity
  have hmant := Nat.div_add_mod' mant (2 ^ k)
  have hr : mant % 2 ^ k < 2 ^ k := Nat.mod_lt _ (Nat.two_pow_pos _)
  simp only [roundShift]
  generalize mant / 2 ^ k = q at hmant ⊢
  generalize mant % 2 ^ k = r at hmant hr ⊢
  have hy : (mant : ℚ) / 2 ^ k = q + r / 2 ^ k := by
    rw [← hmant]; push_cast; field_simp
  have hhalf : ∀ c : ℚ, (r : ℚ) / 2 ^ k = c ↔ (r : ℚ) = c * 2 ^ k := fun c => div_eq_iff hp.ne'
  rw [hy]
  split
  case isTrue hup =>
    have hge : (1 : ℚ) / 2 ≤ r / 2 ^ k := by
      rw [le_div_iff₀ hp]
      have : (2 ^ k : ℚ) ≤ 2 * r := by exact_mod_cast (by omega : 2 ^ k ≤ 2 * r)
      linarith
    have hlt : (r : ℚ) / 2 ^ k ≤ 1 := by
      rw [div_le_one hp]; exact_mod_cast hr.le
    have habs : |(q : ℚ) + r / 2 ^ k - (q + 1 : ℕ)| = 1 - r / 2 ^ k := by
      push_cast
      rw [abs_of_nonpos (by linarith)]; ring
    refine ⟨by rw [habs]; linarith, fun h => ?_⟩
    have htie : (r : ℚ) = 1 / 2 * 2 ^ k := (hhalf _).mp (by rw [habs] at h; linarith)
    have : 2 * r = 2 ^ k := by exact_mod_cast (by linarith : (2 * r : ℚ) = 2 ^ k)
    rw [Nat.even_iff]; omega
  case isFalse hdown =>
    have hle : (r : ℚ) / 2 ^ k ≤ 1 / 2 := by
      rw [div_le_iff₀ hp]
      have : (2 * r : ℚ) ≤ 2 ^ k := by exact_mod_cast (by omega : 2 * r ≤ 2 ^ k)
      linarith
    have habs : |(q : ℚ) + r / 2 ^ k - q| = r / 2 ^ k := by
      rw [add_sub_cancel_left, abs_of_nonneg (by positivity)]
    refine ⟨by rw [habs]; exact hle, fun h => ?_⟩
    have htie : (r : ℚ) = 1 / 2 * 2 ^ k := (hhalf _).mp (habs ▸ h)
    have : 2 * r = 2 ^ k := by exact_mod_cast (by linarith : (2 * r : ℚ) = 2 ^ k)
    rw [Nat.even_iff]; omega
/-- `n` is the magnitude nearest to `v`, an even one on a tie: `v` lies on the right side of the midpoint between the
values of `n` and of any other magnitude. -/
structure FloatFmt.NearestMagnitude (f : FloatFmt) (n : Nat) (v : ℚ) : Prop where
  below : ∀ a < n, f.magnitudeValue a + f.magnitudeValue n ≤ 2 * v ∧
    (f.magnitudeValue a + f.magnitudeValue n = 2 * v → Even n)
  above : ∀ b, n < b → 2 * v ≤ f.magnitudeValue n + f.magnitudeValue b ∧
    (2 * v = f.magnitudeValue n + f.magnitudeValue b → Even n)

theorem FloatFmt.nearestMagnitude_zero (f : FloatFmt) : f.NearestMagnitude 0 0 where
  below a ha := absurd ha (Nat.not_lt_zero a)
  above b _ := by simpa [f.magnitudeValue_zero] using f.magnitudeValue_nonneg b

/-- Rounding the multiple of the binade's last place to a natural number gives the nearest magnitude, also where it
carries into the next binade. -/
theorem FloatFmt.nearestMagnitude_of_binade {f : FloatFmt} (hM : 1 ≤ f.M) {k q : Nat} {y : ℚ} (hq : NearestNat q y)
    (hlo : k = 0 ∨ (2 ^ f.M : ℕ) ≤ y) (hhi : y < (2 ^ (f.M + 1) : ℕ)) :
    f.NearestMagnitude (k * 2 ^ f.M + q) (y * (2 : ℚ) ^ (k + f.ulpMin)) := by
  have hbin : f.InBinade k q := ⟨hlo.imp_right hq.le, hq.ge hhi.le⟩
  have hmono := f.magnitudeValue_strictMono
  have hparity : Even q → Even (k * 2 ^ f.M + q) :=
    fun h => ((Nat.even_pow.mpr ⟨even_two, by omega⟩).mul_left k).add h
  obtain ⟨hnear, hnear'⟩ := abs_le.mp hq.near
  have hu : (0 : ℚ) < (2 : ℚ) ^ (k + f.ulpMin) := by positivity
  constructor
  case below =>
    intro a ha
    have hstep := hmono ha
    rw [magnitudeValue_binade hbin] at hstep ⊢
    rcases le_or_gt (q : ℚ) y with hle | hgt
    · have := mul_le_mul_of_nonneg_right hle hu.le
      exact ⟨by linarith, fun h => absurd h (by linarith)⟩
    · have hpos : k = 0 ∨ 2 ^ f.M < q := hlo.imp_right fun h => by exact_mod_cast h.trans_lt hgt
      have hq0 : q ≠ 0 := by
        rintro rfl
        obtain rfl := hpos.resolve_right (Nat.not_lt_zero _)
        simp at ha
      obtain ⟨p, rfl⟩ := Nat.exists_eq_succ_of_ne_zero hq0
      have hp : f.InBinade k p := ⟨hpos.imp_right Nat.le_of_lt_succ, Nat.le_of_succ_le hbin.2⟩
      have hprev : f.magnitudeValue a ≤ p * (2 : ℚ) ^ (k + f.ulpMin) :=
        magnitudeValue_binade hp ▸ hmono.monotone (by omega)
      push_cast at *
      have hmid : (2 * p + 1) * (2 : ℚ) ^ (k + f.ulpMin) ≤ 2 * y * (2 : ℚ) ^ (k + f.ulpMin) :=
        mul_le_mul_of_nonneg_right (by linarith) hu.le
      refine ⟨by linarith, fun h => hparity (hq.tie ?_)⟩
      have : 2 * y ≤ 2 * p + 1 := le_of_mul_le_mul_right (by linarith) hu
      push_cast
      rw [abs_of_nonpos (by linarith)]; linarith
  case above =>
    intro b hb
    have hstep := hmono hb
    rw [magnitudeValue_binade hbin] at hstep ⊢
    rcases le_or_gt y q with hle | hgt
    · have := mul_le_mul_of_nonneg_right hle hu.le
      exact ⟨by linarith, fun h => absurd h (by linarith)⟩
    · have hn : f.InBinade k (q + 1) :=
        ⟨hbin.1.imp_right Nat.le_succ_of_le, Nat.succ_le_of_lt (by exact_mod_cast hgt.trans hhi)⟩
      have hnext : (q + 1 : ℕ) * (2 : ℚ) ^ (k + f.ulpMin) ≤ f.magnitudeValue b :=
        magnitudeValue_binade hn ▸ hmono.monotone (by omega)
      push_cast at hnext
      have hmid : 2 * y * (2 : ℚ) ^ (k + f.ulpMin) ≤ (2 * q + 1) * (2 : ℚ) ^ (k + f.ulpMin) :=
        mul_le_mul_of_nonneg_right (by linarith) hu.le
      refine ⟨by linarith, fun h => hparity (hq.tie ?_)⟩
      have : 2 * q + 1 ≤ 2 * y := le_of_mul_le_mul_right (by linarith) hu
      rw [abs_of_nonneg (by linarith)]; linarith

/-! ## The model's rounding -/

/-- The exponent of the last place the model rounds `mant * 2^exp` at. -/
def FloatFmt.roundUlp (f : FloatFmt) (mant : Nat) (exp : Int) : Int := max (exp + (Nat.log2 mant : Nat) - f.M) f.ulpMin

/-- The multiple of the last place the model rounds `mant * 2^exp` to. -/
def FloatFmt.roundQuotient (f : FloatFmt) (mant : Nat) (exp : Int) : Nat :=
  if f.roundUlp mant exp ≤ exp then mant * 2 ^ (exp - f.roundUlp mant exp).toNat
  else roundShift mant (f.roundUlp mant exp - exp).toNat

theorem FloatFmt.roundUnbounded_eq (f : FloatFmt) (mant : Nat) (exp : Int) :
    f.roundUnbounded mant exp = (f.roundUlp mant exp - f.ulpMin).toNat * 2 ^ f.M + f.roundQuotient mant exp := rfl

theorem FloatFmt.roundQuotient_nearest (f : FloatFmt) (mant : Nat) (exp : Int) :
    NearestNat (f.roundQuotient mant exp) (mant * (2 : ℚ) ^ (exp - f.roundUlp mant exp)) := by
  rw [roundQuotient]
  generalize f.roundUlp mant exp = ulp
  split
  case isTrue h =>
    obtain ⟨k, hk⟩ := Int.eq_ofNat_of_zero_le (Int.sub_nonneg.mpr h)
    simpa [hk] using NearestNat.natCast (mant * 2 ^ k)
  case isFalse h =>
    obtain ⟨k, hk⟩ := Int.eq_ofNat_of_zero_le (by omega : 0 ≤ ulp - exp)
    rw [show exp - ulp = -(k : Int) by omega, hk, zpow_neg, zpow_natCast, ← div_eq_mul_inv]
    exact roundShift_nearest mant k

/-- The last place is low enough: the value is less than 2^(M+1) of its units. -/
theorem FloatFmt.lt_of_roundUlp (f : FloatFmt) (mant : Nat) (exp : Int) :
    (mant : ℚ) * (2 : ℚ) ^ (exp - f.roundUlp mant exp) < (2 ^ (f.M + 1) : ℕ) := by
  have hlog : (mant : ℚ) < (2 : ℚ) ^ (mant.log2 + 1 : ℤ) := by exact_mod_cast Nat.lt_log2_self
  have hulp : exp + (mant.log2 : ℤ) - f.M ≤ f.roundUlp mant exp := le_max_left _ _
  calc (mant : ℚ) * (2 : ℚ) ^ (exp - f.roundUlp mant exp)
      < (2 : ℚ) ^ (mant.log2 + 1 : ℤ) * (2 : ℚ) ^ (exp - f.roundUlp mant exp) := by gcongr
    _ = (2 : ℚ) ^ (mant.log2 + 1 + (exp - f.roundUlp mant exp) : ℤ) := (zpow_add₀ two_ne_zero _ _).symm
    _ ≤ (2 : ℚ) ^ ((f.M + 1 : ℕ) : ℤ) := zpow_le_zpow_right₀ one_le_two (by push_cast; omega)
    _ = (2 ^ (f.M + 1) : ℕ) := by push_cast; rw [← zpow_natCast]; push_cast; rfl

/-- Above the subnormals' last place the value is at least 2^M of its units. -/
theorem FloatFmt.le_of_roundUlp {f : FloatFmt} {mant : Nat} {exp : Int} (hmant : mant ≠ 0)
    (h : f.roundUlp mant exp ≠ f.ulpMin) : (2 ^ f.M : ℕ) ≤ (mant : ℚ) * (2 : ℚ) ^ (exp - f.roundUlp mant exp) := by
  have hlog : (2 : ℚ) ^ (mant.log2 : ℤ) ≤ mant := by exact_mod_cast Nat.log2_self_le hmant
  have hulp : f.roundUlp mant exp = exp + (mant.log2 : ℤ) - f.M := (max_choice _ _).resolve_right h
  calc ((2 ^ f.M : ℕ) : ℚ) = (2 : ℚ) ^ (mant.log2 : ℤ) * (2 : ℚ) ^ (exp - f.roundUlp mant exp) := by
        rw [← zpow_add₀ two_ne_zero, hulp, show (mant.log2 : ℤ) + (exp - (exp + mant.log2 - f.M)) = f.M by ring]
        norm_cast
    _ ≤ (mant : ℚ) * (2 : ℚ) ^ (exp - f.roundUlp mant exp) := by gcongr

theorem FloatFmt.roundUnbounded_nearest {f : FloatFmt} (hM : 1 ≤ f.M) {mant : Nat} (hmant : mant ≠ 0) (exp : Int) :
    f.NearestMagnitude (f.roundUnbounded mant exp) (mant * (2 : ℚ) ^ exp) := by
  have hmin : f.ulpMin ≤ f.roundUlp mant exp := le_max_right _ _
  have hlo : (f.roundUlp mant exp - f.ulpMin).toNat = 0 ∨
      (2 ^ f.M : ℕ) ≤ (mant : ℚ) * (2 : ℚ) ^ (exp - f.roundUlp mant exp) := by
    rcases eq_or_ne (f.roundUlp mant exp) f.ulpMin with h | h
    · exact .inl (by omega)
    · exact .inr (le_of_roundUlp hmant h)
  have := nearestMagnitude_of_binade hM (f.roundQuotient_nearest mant exp) hlo (f.lt_of_roundUlp mant exp)
  rwa [Int.toNat_of_nonneg (by omega), Int.sub_add_cancel, mul_assoc, ← zpow_add₀ two_ne_zero, Int.sub_add_cancel] at this

/-! ## The distance to another value -/

/-- The nearest magnitude is at least as near as any other, and even if another one is as near. -/
theorem FloatFmt.NearestMagnitude.dist_le {f : FloatFmt} {n : Nat} {v : ℚ} (h : f.NearestMagnitude n v) (m : Nat) :
    |v - f.magnitudeValue n| ≤ |v - f.magnitudeValue m| ∧
      (|v - f.magnitudeValue n| = |v - f.magnitudeValue m| → m ≠ n → Even n) := by
  rcases lt_trichotomy m n with hlt | rfl | hgt
  · obtain ⟨hmid, htie⟩ := h.below m hlt
    have hstep := f.magnitudeValue_strictMono hlt
    rw [abs_of_pos (by linarith : 0 < v - f.magnitudeValue m)]
    refine ⟨abs_le.mpr ⟨by linarith, by linarith⟩, fun heq _ => htie ?_⟩
    rcases abs_choice (v - f.magnitudeValue n) with habs | habs <;> linarith
  · exact ⟨le_rfl, fun _ hne => absurd rfl hne⟩
  · obtain ⟨hmid, htie⟩ := h.above m hgt
    have hstep := f.magnitudeValue_strictMono hgt
    rw [abs_of_neg (by linarith : v - f.magnitudeValue m < 0)]
    refine ⟨abs_le.mpr ⟨by linarith, by linarith⟩, fun heq _ => htie ?_⟩
    rcases abs_choice (v - f.magnitudeValue n) with habs | habs <;> linarith

theorem abs_signFactor_mul_sub (neg : Bool) (a b : ℚ) :
    |signFactor neg * a - signFactor neg * b| = |a - b| := by
  cases neg <;> simp [signFactor, abs_sub_comm, ← sub_eq_neg_add]

theorem abs_signFactor_mul_add (neg : Bool) (a b : ℚ) :
    |signFactor neg * a - signFactor (!neg) * b| = |a + b| := by
  cases neg
  · simp [signFactor]
  · rw [← abs_neg]; simp [signFactor, add_comm]

/-- The values of the other sign are no nearer than the zero is. -/
theorem FloatFmt.NearestMagnitude.signed_dist_le {f : FloatFmt} {n : Nat} {v : ℚ} (h : f.NearestMagnitude n v)
    (hv : 0 ≤ v) (neg neg' : Bool) (m : Nat) :
    |signFactor neg * v - signFactor neg * f.magnitudeValue n| ≤
        |signFactor neg * v - signFactor neg' * f.magnitudeValue m| ∧
      (|signFactor neg * v - signFactor neg * f.magnitudeValue n| =
          |signFactor neg * v - signFactor neg' * f.magnitudeValue m| →
        signFactor neg' * f.magnitudeValue m ≠ signFactor neg * f.magnitudeValue n → Even n) := by
  rw [abs_signFactor_mul_sub]
  rcases Bool.eq_or_eq_not neg' neg with rfl | rfl
  · rw [abs_signFactor_mul_sub]
    exact (h.dist_le m).imp_right fun htie heq hne => htie heq (by rintro rfl; exact hne rfl)
  · obtain ⟨hle, htie⟩ := h.dist_le 0
    have hm := f.magnitudeValue_nonneg m
    rw [f.magnitudeValue_zero, sub_zero, abs_of_nonneg hv] at hle htie
    rw [abs_signFactor_mul_add, abs_of_nonneg (add_nonneg hv hm)]
    refine ⟨by linarith, fun heq hne => htie (by linarith) fun h0 => hne ?_⟩
    rw [← h0, f.magnitudeValue_zero, mul_zero, (by linarith : f.magnitudeValue m = 0), mul_zero]

/-! ## The overflow threshold (log 8) -/

/-- A pattern of `w` bits is one of the format, which has infinities and a mantissa (R11). -/
structure FloatFmt.Fits (f : FloatFmt) (w : Nat) : Prop where
  two_le_E : 2 ≤ f.E
  one_le_M : 1 ≤ f.M
  width : w = f.E + f.M + 1

theorem fmtF32_fits : fmtF32.Fits 32 := ⟨by decide, by decide, rfl⟩

theorem fmtF64_fits : fmtF64.Fits 64 := ⟨by decide, by decide, rfl⟩

theorem fmtBf16_fits : fmtBf16.Fits 16 := ⟨by decide, by decide, rfl⟩

/-- The threshold of R12 is the midpoint between the largest finite magnitude and the one of the infinity. -/
theorem FloatFmt.overflowBound_midpoint {f : FloatFmt} (hE : 2 ≤ f.E) :
    f.magnitudeValue (f.infMagnitude - 1) + f.magnitudeValue f.infMagnitude = 2 * f.overflowBound := by
  obtain ⟨k, hk⟩ : ∃ k, 2 ^ f.E = k + 3 := Nat.exists_eq_add_of_le' (by
    have := Nat.pow_le_pow_right Nat.two_pos hE
    omega)
  have hM := Nat.two_pow_pos f.M
  have htop : f.infMagnitude = k * 2 ^ f.M + 2 ^ (f.M + 1) := by
    rw [infMagnitude, hk, Nat.add_sub_assoc (by omega), Nat.add_mul, pow_succ']
  have hlast : f.infMagnitude - 1 = k * 2 ^ f.M + (2 ^ (f.M + 1) - 1) := by
    rw [htop, pow_succ]; omega
  have hulp : (k : ℤ) + f.ulpMin = f.bias - f.M := by
    have hE' : (2 : ℤ) ^ f.E = 2 * 2 ^ (f.E - 1) := by rw [← pow_succ', Nat.sub_add_cancel (by omega)]
    have hk' : (2 : ℤ) ^ f.E = k + 3 := by exact_mod_cast hk
    rw [ulpMin, bias]; omega
  rw [hlast, htop, magnitudeValue_binade ⟨.inr (by rw [pow_succ]; omega), by omega⟩,
    magnitudeValue_binade ⟨.inr (by rw [pow_succ]; omega), le_rfl⟩, hulp, overflowBound,
    Nat.cast_sub Nat.one_le_two_pow, zpow_sub₀ two_ne_zero, zpow_neg, zpow_natCast, zpow_natCast]
  push_cast
  field_simp
  ring

theorem FloatFmt.infMagnitude_pos {f : FloatFmt} (hE : 2 ≤ f.E) : 0 < f.infMagnitude :=
  Nat.mul_pos (Nat.sub_pos_of_lt (Nat.one_lt_two_pow (by omega))) (Nat.two_pow_pos _)

theorem FloatFmt.infMagnitude_even {f : FloatFmt} (hM : 1 ≤ f.M) : Even f.infMagnitude :=
  (Nat.even_pow.mpr ⟨even_two, by omega⟩).mul_left _

/-- A value is at or above the threshold exactly when its nearest magnitude is that of the infinity or more: on the
threshold itself the largest finite magnitude, an odd one, gives way. -/
theorem FloatFmt.NearestMagnitude.overflow_iff {f : FloatFmt} {w n : Nat} {v : ℚ} (hf : f.Fits w)
    (h : f.NearestMagnitude n v) : f.overflowBound ≤ v ↔ f.infMagnitude ≤ n := by
  have hmid := overflowBound_midpoint hf.two_le_E
  have hpos := infMagnitude_pos hf.two_le_E
  have hmono := f.magnitudeValue_strictMono
  constructor
  · intro hv
    by_contra! hn
    obtain ⟨hle, htie⟩ := h.above _ hn
    have hlast : f.magnitudeValue n ≤ f.magnitudeValue (f.infMagnitude - 1) := hmono.monotone (by omega)
    have hn' : n = f.infMagnitude - 1 := hmono.injective (by linarith)
    have hodd := htie (by linarith)
    have heven := infMagnitude_even hf.one_le_M
    rw [Nat.even_iff] at hodd heven
    omega
  · intro hn
    obtain ⟨hle, -⟩ := h.below (f.infMagnitude - 1) (by omega)
    have := hmono.monotone hn
    linarith

/-! ## Patterns -/

theorem FloatFmt.magnitude_div (f : FloatFmt) {w : Nat} (x : BitVec w) :
    f.magnitude x / 2 ^ f.M = x.toNat / 2 ^ f.M % 2 ^ f.E := by
  rw [magnitude, Nat.add_comm, pow_add, Nat.mod_mul_right_div_self]

theorem FloatFmt.magnitude_mod (f : FloatFmt) {w : Nat} (x : BitVec w) :
    f.magnitude x % 2 ^ f.M = x.toNat % 2 ^ f.M :=
  Nat.mod_mod_of_dvd _ (Nat.pow_dvd_pow 2 (Nat.le_add_left _ _))

/-- The real value of a pattern (R11) is its sign times the value of its magnitude. -/
theorem FloatFmt.realValue_eq (f : FloatFmt) {w : Nat} (x : BitVec w) :
    f.realValue x = signFactor (f.sign x) * f.magnitudeValue (f.magnitude x) := by
  have hulp : (2 : ℚ) ^ f.ulpMin = 2 ^ (1 - f.bias) / 2 ^ f.M := by
    rw [ulpMin, zpow_sub₀ two_ne_zero, zpow_natCast]
  have hsplit := Nat.div_add_mod' (f.magnitude x) (2 ^ f.M)
  simp only [realValue, ← f.magnitude_div, ← f.magnitude_mod, magnitudeValue, magnitudeUnits, hulp]
  change (if _ then signFactor (f.sign x) * _ * _ else signFactor (f.sign x) * _ * _) = _
  split
  case isTrue hsub =>
    rw [hsub, Nat.zero_mul, Nat.zero_add] at hsplit
    rw [hsplit]
    ring
  case isFalse hnorm =>
    obtain ⟨e, he⟩ := Nat.exists_eq_succ_of_ne_zero hnorm
    have hexp : ((e + 1 : ℕ) : ℤ) - f.bias = e + (1 - f.bias) := by push_cast; ring
    rw [he, Nat.succ_eq_add_one, hexp, zpow_add₀ two_ne_zero, zpow_natCast, Nat.add_sub_cancel]
    push_cast
    field_simp

theorem FloatFmt.isFinite_iff (f : FloatFmt) {w : Nat} (x : BitVec w) :
    f.isFinite x = true ↔ f.magnitude x < f.infMagnitude := by
  have hlt : x.toNat / 2 ^ f.M % 2 ^ f.E < 2 ^ f.E := Nat.mod_lt _ (Nat.two_pow_pos _)
  rw [isFinite, bne_iff_ne, infMagnitude, ← Nat.div_lt_iff_lt_mul (Nat.two_pow_pos _), magnitude_div]
  omega

theorem FloatFmt.infMagnitude_lt (f : FloatFmt) : f.infMagnitude < 2 ^ (f.E + f.M) := by
  rw [infMagnitude, pow_add]
  exact Nat.mul_lt_mul_of_pos_right (Nat.sub_lt (Nat.two_pow_pos _) Nat.one_pos) (Nat.two_pow_pos _)

theorem FloatFmt.signed_infMagnitude (f : FloatFmt) (w : Nat) (neg : Bool) :
    f.signed w neg f.infMagnitude = f.infinity w neg := rfl

section Signed
variable {f : FloatFmt} {w n : Nat} (hf : f.Fits w) (hn : n < 2 ^ (f.E + f.M)) (neg : Bool)
include hf hn

theorem FloatFmt.signed_toNat : (f.signed w neg n).toNat = (if neg then 2 ^ (f.E + f.M) else 0) + n := by
  rw [signed, BitVec.toNat_ofNat, hf.width, Nat.mod_eq_of_lt]
  rw [pow_succ]
  split <;> omega

theorem FloatFmt.magnitude_signed : f.magnitude (f.signed w neg n) = n := by
  rw [magnitude, signed_toNat hf hn]
  cases neg <;> simp [Nat.mod_eq_of_lt hn]

theorem FloatFmt.sign_signed : f.sign (f.signed w neg n) = neg := by
  rw [sign, BitVec.getLsbD, signed_toNat hf hn]
  cases neg
  · simpa using Nat.testBit_lt_two_pow hn
  · simp [Nat.testBit_two_pow_add_eq, Nat.testBit_lt_two_pow hn]

/-- The low bit of a pattern is that of its magnitude. -/
theorem FloatFmt.lowBit_signed (heven : Even n) : (f.signed w neg n).getLsbD 0 = false := by
  have hE := hf.two_le_E
  have hsign : Even (2 ^ (f.E + f.M)) := Nat.even_pow.mpr ⟨even_two, by omega⟩
  have hx : Even (f.signed w neg n).toNat := by
    rw [signed_toNat hf hn]
    split
    · exact hsign.add heven
    · simpa using heven
  rw [BitVec.getLsbD, Nat.testBit_zero, Nat.even_iff.mp hx]
  rfl

end Signed

/-! ## RNE (R12) -/

/-- The pattern of the nearest magnitude, or the infinity from the threshold on, is `RNE_f` of the signed value. -/
theorem FloatFmt.NearestMagnitude.roundsTo {f : FloatFmt} {w n : Nat} {v : ℚ} (hf : f.Fits w)
    (h : f.NearestMagnitude n v) (hv : 0 ≤ v) (neg : Bool) :
    f.RoundsTo (f.signed w neg (min n f.infMagnitude)) neg (signFactor neg * v) := by
  have hlt : min n f.infMagnitude < 2 ^ (f.E + f.M) := (min_le_right _ _).trans_lt f.infMagnitude_lt
  have habs : |signFactor neg * v| = v := by
    simpa [abs_of_nonneg hv] using abs_signFactor_mul_sub neg v 0
  refine ⟨sign_signed hf hlt neg, ?_⟩
  rw [habs]
  split
  case isTrue hover =>
    rw [min_eq_right ((h.overflow_iff hf).mp hover), signed_infMagnitude]
  case isFalse hfin =>
    rw [h.overflow_iff hf, not_le] at hfin
    rw [min_eq_left hfin.le] at hlt ⊢
    have hreal : f.realValue (f.signed w neg n) = signFactor neg * f.magnitudeValue n := by
      rw [realValue_eq, sign_signed hf hlt, magnitude_signed hf hlt]
    refine ⟨by rwa [isFinite_iff, magnitude_signed hf hlt], fun z _ => ?_⟩
    rw [hreal, f.realValue_eq z]
    exact (h.signed_dist_le hv neg (f.sign z) (f.magnitude z)).imp_right
      fun htie heq hne => lowBit_signed hf hlt neg (htie heq hne)

/-- The model's rounding is `RNE_f` in every format of R11 that fits the pattern's width. -/
theorem FloatFmt.round_roundsTo {f : FloatFmt} {w : Nat} (hf : f.Fits w) (neg : Bool) (mant : Nat) (exp : Int) :
    f.RoundsTo (f.round w neg mant exp) neg (signFactor neg * mant * (2 : ℚ) ^ exp) := by
  rw [mul_assoc, round]
  split
  case isTrue hzero =>
    simpa [hzero] using f.nearestMagnitude_zero.roundsTo hf le_rfl neg
  case isFalse hmant =>
    exact (roundUnbounded_nearest hf.one_le_M hmant exp).roundsTo hf (by positivity) neg

/-- Settles O38: the exact value lies between the midpoints around the magnitude the model rounds it to, whatever the
format. -/
theorem roundingIsNearestEven : Obligations.RoundingIsNearestEven := fun neg mant exp =>
  ⟨FloatFmt.round_roundsTo fmtF32_fits neg mant exp, FloatFmt.round_roundsTo fmtF64_fits neg mant exp,
    FloatFmt.round_roundsTo fmtBf16_fits neg mant exp⟩

end Sys2Proof.Machine
end

section
/-!
SUPPORT. The host's window, port by port: the registers' offsets (R29), what a read returns (R31 to R39), what a write
to CTRL, STATUS and CMD_HI does (R33, R40, R222), and the accesses without effect (R30).
-/
namespace Sys2Proof.Machine

/-! ## The register map (R29) -/

/-- A register of the map stands at its offset, which is aligned and below the scratchpad window, and reading it draws
nothing. -/
theorem portAt_register_eq {off : Nat} {p : Port} (h : (off, p) ∈ registerMap) :
    off < 0x10000 ∧ off % 4 = 0 ∧ portDraws p = 0 ∧ ∀ c, portAt c off = p := by
  have hmap : ∀ e ∈ registerMap, e.1 < 0x10000 ∧ e.1 % 4 = 0 ∧ portDraws e.2 = 0 ∧
      registerMap.find? (fun d => d.1 == e.1) = some e := by decide
  obtain ⟨hlt, h4, hd, hfind⟩ := hmap _ h
  exact ⟨hlt, h4, hd, fun c => portAt_of hlt (by rw [hfind])⟩

theorem step_readRegister (s : State) {off : Nat} {p : Port} (h : (off, p) ∈ registerMap) :
    step (s.awaiting (s.hostRead off)) = .next { s with response := .data (s.readPort p) } := by
  obtain ⟨hlt, h4, hd, hp⟩ := portAt_register_eq h
  rw [step_hostRead s (by omega) h4, hp, hd, Nat.add_zero]

theorem step_writeRegister (s : State) {off : Nat} {p : Port} (h : (off, p) ∈ registerMap) (v : Word) :
    step (s.awaiting (s.hostWrite off v)) = .next { writePort v s p with response := .done } := by
  obtain ⟨hlt, h4, -, hp⟩ := portAt_register_eq h
  rw [step_hostWrite s v (by omega) h4, hp]

/-- CTRL stands at its own offset alone. -/
theorem portAt_eq_ctrl {c : Config} {off : Nat} (h : portAt c off = .ctrl) : off = 0x008 := by
  simpa [registerMap] using portAt_mem h (by simp) (by simp)

/-- An offset that no register has, outside the scratchpad's bytes, is reserved (R30, R55). -/
theorem portAt_reserved {c : Config} {off : Nat} (hreg : ∀ e ∈ registerMap, e.1 ≠ off)
    (hspm : off < 0x10000 ∨ 0x10000 + c.spmBytes ≤ off) : portAt c off = .reserved := by
  have hfind : registerMap.find? (fun e => e.1 == off) = none :=
    List.find?_eq_none.mpr fun e he => by simpa using hreg e he
  rw [portAt, if_neg (by omega), hfind]

/-! ## Writes to CTRL (R33) -/

theorem writeCtrl_of_srst {v : Word} (s : State) (h : v.getLsbD 31 = true) : writeCtrl v s = resetBlock s := if_pos h

theorem writeCtrl_of_not_srst {v : Word} (s : State) (h : v.getLsbD 31 = false) :
    writeCtrl v s = { s with en := v.getLsbD 0, ieDone := v.getLsbD 1, ieErr := v.getLsbD 2 } :=
  if_neg (Bool.eq_false_iff.mp h)

/-! ## Writes to STATUS (R34, R222) -/

theorem writeStatus_eq (v : Word) (s : State) :
    writeStatus v s = { s with
      done := s.done && !v.getLsbD 1
      err := s.err && !v.getLsbD 2
      cause := if v.getLsbD 2 then .none else s.cause
      dropped := s.dropped && !v.getLsbD 3 } := by
  rw [writeStatus]
  cases v.getLsbD 2 <;> simp [clearErr]

/-! ## The push (R40) -/

theorem qfull_iff {s : State} : s.qfull = true ↔ s.queue.length = s.cfg.cmdqDepth := by
  simp [State.qfull, State.qcount]

/-- Everything a push can do: it is dropped (R221), overflows (R220) or enters the queue. -/
theorem push_cases (h : Word) (s : State) :
    (s.err = true ∧ push h s = { s with dropped := true }) ∨
    (s.err = false ∧ s.queue.length = s.cfg.cmdqDepth ∧ push h s = takeFault .cmdqOverflow 0 (h ++ s.cmdLo) s) ∨
    (s.err = false ∧ s.queue.length ≠ s.cfg.cmdqDepth ∧ push h s = { s with queue := s.queue ++ [h ++ s.cmdLo] }) := by
  rw [push]
  cases s.err with
  | true => exact .inl ⟨rfl, rfl⟩
  | false =>
    cases hfull : s.qfull with
    | true => exact .inr (.inl ⟨rfl, qfull_iff.mp hfull, rfl⟩)
    | false => exact .inr (.inr ⟨rfl, fun h => by simp [qfull_iff.mpr h] at hfull, rfl⟩)

/-! ## The words read (R32 to R38) -/

/-- The fields of CAP (R32). -/
theorem capWord_fields (c : Config) :
    (capWord c).extractLsb' 0 5 = BitVec.ofNat 5 (5 + c.vlenbExp.val) ∧
    (capWord c).extractLsb' 5 5 = BitVec.ofNat 5 (12 + c.spmExp.val) ∧
    (capWord c).extractLsb' 10 8 = BitVec.ofNat 8 c.cmdqDepth ∧
    (capWord c).extractLsb' 18 6 = 0x3F ∧ (capWord c).extractLsb' 24 8 = 0 := by
  simp (disch := decide) only [capWord, BitVec.extractLsb'_append_eq_of_le, BitVec.extractLsb'_append_eq_of_add_le]
  simp

/-- The fields of STATUS (R34). -/
theorem statusWord_fields (s : State) :
    (s.statusWord.getLsbD 0 = s.busy ∧ s.statusWord.getLsbD 1 = s.done ∧ s.statusWord.getLsbD 2 = s.err ∧
      s.statusWord.getLsbD 3 = s.dropped ∧ s.statusWord.getLsbD 4 = s.qfull) ∧
    s.statusWord.extractLsb' 5 3 = 0 ∧ s.statusWord.extractLsb' 8 8 = BitVec.ofNat 8 s.qcount ∧
    s.statusWord.extractLsb' 16 16 = 0 := by
  constructor
  · simp only [State.statusWord, BitVec.getLsbD_append]
    simp
  · simp (disch := decide) only [State.statusWord, BitVec.extractLsb'_append_eq_of_le,
      BitVec.extractLsb'_append_eq_of_add_le]
    simp

/-- The bits of CTRL (R33). -/
theorem ctrlWord_bits (s : State) :
    s.ctrlWord.getLsbD 0 = s.en ∧ s.ctrlWord.getLsbD 1 = s.ieDone ∧ s.ctrlWord.getLsbD 2 = s.ieErr ∧
    ∀ i, 3 ≤ i → s.ctrlWord.getLsbD i = false := by
  simp only [State.ctrlWord, BitVec.getLsbD_append]
  refine ⟨by simp, by simp, by simp, fun i hi => ?_⟩
  rw [if_neg (by omega), if_neg (by omega), if_neg (by omega), BitVec.getLsbD_zero]

/-! ### Reserved bits (R30): the mask of the reserved bits, cut at the borders of the word's fields -/

theorem ctrlWord_reserved (s : State) : s.ctrlWord &&& ~~~0x7 = 0 := by
  change s.ctrlWord &&& (0x1FFFFFFF#29 ++ 0#1 ++ 0#1 ++ 0#1) = 0
  rw [State.ctrlWord]
  iterate 3 rw [BitVec.and_append]
  simp

theorem statusWord_reserved (s : State) : s.statusWord &&& ~~~0xFF1F = 0 := by
  change s.statusWord &&& (0xFFFF#16 ++ 0#8 ++ 0x7#3 ++ 0#1 ++ 0#1 ++ 0#1 ++ 0#1 ++ 0#1) = 0
  rw [State.statusWord]
  iterate 7 rw [BitVec.and_append]
  simp

theorem causeWord_reserved (s : State) : s.causeWord &&& ~~~0xFF = 0 := by
  change s.causeWord &&& (0xFFFFFF#24 ++ 0#8) = 0
  rw [State.causeWord, BitVec.and_append]
  simp

theorem capWord_reserved (c : Config) : capWord c &&& ~~~0xFFFFFF = 0 := by
  change capWord c &&& (0xFF#8 ++ 0#6 ++ 0#8 ++ 0#5 ++ 0#5) = 0
  rw [capWord]
  iterate 4 rw [BitVec.and_append]
  simp

/-! ### Reserved bits of a write -/

/-- Two words that agree under a mask agree in every bit of it. -/
theorem getLsbD_eq_of_and_eq {v v' m : Word} (h : v &&& m = v' &&& m) {i : Nat} (hi : m.getLsbD i = true) :
    v.getLsbD i = v'.getLsbD i := by
  have hbit := congrArg (·.getLsbD i) h
  simpa only [BitVec.getLsbD_and, hi, Bool.and_true] using hbit

/-- A write to CTRL reads SRST, IE_ERR, IE_DONE and EN alone (R33). -/
theorem writeCtrl_congr {v v' : Word} (h : v &&& 0x80000007 = v' &&& 0x80000007) (s : State) :
    writeCtrl v s = writeCtrl v' s := by
  have hbit : ∀ i ∈ [0, 1, 2, 31], v.getLsbD i = v'.getLsbD i := fun i hi =>
    getLsbD_eq_of_and_eq h ((by decide : ∀ i ∈ [0, 1, 2, 31], (0x80000007 : Word).getLsbD i = true) i hi)
  rw [writeCtrl, writeCtrl, hbit 0 (by decide), hbit 1 (by decide), hbit 2 (by decide), hbit 31 (by decide)]

/-- A write to STATUS reads the bits of DONE, ERR and DROPPED alone (R34). -/
theorem writeStatus_congr {v v' : Word} (h : v &&& 0xE = v' &&& 0xE) (s : State) :
    writeStatus v s = writeStatus v' s := by
  have hbit : ∀ i ∈ [1, 2, 3], v.getLsbD i = v'.getLsbD i := fun i hi =>
    getLsbD_eq_of_and_eq h ((by decide : ∀ i ∈ [1, 2, 3], (0xE : Word).getLsbD i = true) i hi)
  rw [writeStatus, writeStatus, hbit 1 (by decide), hbit 2 (by decide), hbit 3 (by decide)]

/-! ## Accesses without effect (R30) -/

/-- The registers whose writes are ignored (R30). -/
def readOnlyPorts : List Port :=
  [.id, .cap, .cause, .faultIdx, .faultInfo, .faultCmdLo, .faultCmdHi, .cseq, .sigVal]

theorem writePort_readOnly {p : Port} (h : p ∈ readOnlyPorts) (v : Word) (s : State) : writePort v s p = s := by
  cases p with
  | ctrl | status | cmdLo | cmdHi | spm => simp [readOnlyPorts] at h
  | _ => rfl

theorem step_reserved (s : State) {off : Nat} (v : Word) (hoff : off < 0x20000) (h4 : off % 4 = 0)
    (hp : portAt s.cfg off = .reserved) :
    step (s.awaiting (s.hostRead off)) = .next { s with response := .data 0 } ∧
    step (s.awaiting (s.hostWrite off v)) = .next { s with response := .done } := by
  rw [step_hostRead s hoff h4, step_hostWrite s v hoff h4, hp]
  exact ⟨rfl, rfl⟩

/-! ## The statements -/

/-- Settles O52, by the three things a push can do. -/
theorem pushEnqueuesFaultsOrDrops : Obligations.PushEnqueuesFaultsOrDrops := by
  intro s h
  simp only [step_writeRegister s (show (0x034, .cmdHi) ∈ registerMap by decide), writePort]
  rcases push_cases h s with ⟨herr, hpush⟩ | ⟨herr, hfull, hpush⟩ | ⟨herr, hfull, hpush⟩
  · simp [hpush, herr]
  · simp [hpush, herr, hfull, takeFault, State.afterFault]
  · simp [hpush, herr, hfull]

/-- Settles O53: the fields of CAP, each within its width for every legal configuration. -/
theorem idAndCapConstants : Obligations.IdAndCapConstants := by
  refine ⟨fun s => step_readRegister s (p := .id) (by decide), fun s =>
    ⟨capWord s.cfg, step_readRegister s (p := .cap) (by decide), ?_⟩⟩
  obtain ⟨hvlenb, hspm, hdepth, hpresent, hzero⟩ := capWord_fields s.cfg
  have hv := s.cfg.vlenbExp.isLt
  have hs := s.cfg.spmExp.isLt
  have hd := s.cfg.cmdqDepth_bounds
  refine ⟨?_, ?_, ?_, hpresent, hzero, fun h => ?_⟩
  · rw [hvlenb, BitVec.toNat_ofNat, Nat.mod_eq_of_lt (by omega), Config.vlenb]
  · rw [hspm, BitVec.toNat_ofNat, Nat.mod_eq_of_lt (by omega), Config.spmBytes]
  · rw [hdepth, BitVec.toNat_ofNat, Nat.mod_eq_of_lt (by omega)]
  · rw [h]; decide

/-- Settles O54: the bits of CTRL, and a write to it with and without SRST. -/
theorem ctrlRegister : Obligations.CtrlRegister := by
  intro s
  refine ⟨⟨s.ctrlWord, step_readRegister s (p := .ctrl) (by decide), ctrlWord_bits s⟩, fun v => ?_⟩
  simp only [step_writeRegister s (show (0x008, .ctrl) ∈ registerMap by decide), writePort]
  refine ⟨fun h => by rw [writeCtrl_of_not_srst s h], fun h => ?_⟩
  rw [writeCtrl_of_srst s h, writeCtrl_of_srst s (by decide)]

/-- Settles O55: the fields of STATUS, QCOUNT fitting its eight bits by the queue's bound, and a write to it. -/
theorem statusRegister : Obligations.StatusRegister := by
  intro s
  refine ⟨fun hbound => ⟨s.statusWord, step_readRegister s (p := .status) (by decide), ?_⟩, fun v => ?_⟩
  · obtain ⟨⟨hbusy, hdone, herr, hdropped, hfull⟩, hlow, hcount, hhigh⟩ := statusWord_fields s
    have hlen : s.queue.length < 2 ^ 8 := by
      have hq : s.queue.length ≤ s.cfg.cmdqDepth := hbound
      have hd := s.cfg.cmdqDepth_bounds
      omega
    refine ⟨?_, hdone, herr, hdropped, ?_, hlow, ?_, hhigh⟩
    · rw [hbusy]
      simp [State.busy, State.qcount]
    · rw [hfull, qfull_iff]
    · rw [hcount, BitVec.toNat_ofNat, State.qcount, Nat.mod_eq_of_lt hlen]
  · rw [step_writeRegister s (p := .status) (by decide), writePort, writeStatus_eq]

/-- Settles O57, part by part: bus errors, reserved offsets, read-only and write-only registers, reserved bits. -/
theorem busErrorsAndReservedOffsets : Obligations.BusErrorsAndReservedOffsets := by
  intro s
  refine ⟨fun size off v hoff hbad => ?_, fun off v h4 hoff => ?_, fun off hoff v => ?_, fun off hoff => ?_,
    ctrlWord_reserved s, statusWord_reserved s, causeWord_reserved s, capWord_reserved s.cfg,
    fun v v' => ⟨fun h => ?_, fun h => ?_⟩⟩
  · obtain ⟨hread, hwrite⟩ := hostAccess_busError (s := s) v hoff hbad
    rw [step_access, step_access, hread, hwrite]
    exact ⟨rfl, rfl⟩
  · have hreg : ∀ e ∈ registerMap, e.1 ≠ 0x02C ∧ e.1 < 0x038 := by decide
    refine step_reserved s v (by omega) h4 (portAt_reserved (fun e he => ?_) (by omega))
    have := hreg e he
    omega
  · have hreg : ∀ off ∈ [0x000, 0x004, 0x010, 0x014, 0x018, 0x01C, 0x020, 0x024, 0x028],
        ∃ e ∈ registerMap, e.1 = off ∧ e.2 ∈ readOnlyPorts := by decide
    obtain ⟨⟨_, p⟩, he, rfl, hp⟩ := hreg off hoff
    rw [step_writeRegister s he, writePort_readOnly hp]
  · simp only [List.mem_cons, List.not_mem_nil, or_false] at hoff
    rcases hoff with rfl | rfl
    · exact step_readRegister s (p := .cmdLo) (by decide)
    · exact step_readRegister s (p := .cmdHi) (by decide)
  · rw [step_writeRegister s (p := .ctrl) (by decide), step_writeRegister s (p := .ctrl) (by decide), writePort,
      writePort, writeCtrl_congr h]
  · rw [step_writeRegister s (p := .status) (by decide), step_writeRegister s (p := .status) (by decide), writePort,
      writePort, writeStatus_congr h]

/-- Settles O58, register by register. -/
theorem hostReadsReportRegisters : Obligations.HostReadsReportRegisters := by
  intro s
  refine ⟨⟨s.causeWord, step_readRegister s (p := .cause) (by decide), ?_⟩,
    step_readRegister s (p := .faultIdx) (by decide), step_readRegister s (p := .faultInfo) (by decide),
    ⟨_, _, step_readRegister s (p := .faultCmdLo) (by decide), step_readRegister s (p := .faultCmdHi) (by decide), ?_⟩,
    step_readRegister s (p := .cseq) (by decide), step_readRegister s (p := .sigVal) (by decide),
    step_writeRegister s (p := .cmdLo) (by decide)⟩
  · rw [State.causeWord]
    cases s.cause <;> rfl
  · exact (BitVec.extractLsb'_append_extractLsb'_eq_extractLsb' rfl).trans BitVec.extractLsb'_eq_self

end Sys2Proof.Machine
end

section
/-!
SUPPORT. What one step leaves, over every event: the block's turn said once (`blockStep_turn`), the host's accesses, the
resets; and from that the invariant of the state (R20, R26, R28, R35, R213), the parameters (R6) and CSEQ (R25).
-/
namespace Sys2Proof.Machine

/-! ## The next event (R59) -/

/-- A step is the block's turn, a host access or a reset, in the state with that event taken off the agenda. -/
theorem step_cases (s : State) : ∃ rest : List Event,
    step s = blockStep { s with agenda := rest } ∨
    (∃ a, step s = .next (hostAccess a { s with agenda := rest })) ∨
    step s = .next (resetBlock { s with agenda := rest }) := by
  cases h : s.agenda with
  | nil => exact ⟨[], .inl (by rw [step_nil h, ← h])⟩
  | cons e rest =>
    refine ⟨rest, ?_⟩
    cases e with
    | block => exact .inl (step_block h)
    | host a => exact .inr (.inl ⟨a, step_host h⟩)
    | hardReset => exact .inr (.inr (step_hardReset h))

/-! ## What a command performs -/

section Performed
variable {i : Instr} {s t : State} (h : Performed i s t)
include h

theorem Performed.cfg : t.cfg = s.cfg := by rw [h.rest]
theorem Performed.queue : t.queue = s.queue := by rw [h.rest]
theorem Performed.cseq : t.cseq = s.cseq := by rw [h.rest]
theorem Performed.err : t.err = s.err := by rw [h.rest]
theorem Performed.cause : t.cause = s.cause := by rw [h.rest]

theorem Performed.inv (hs : s.Inv) : t.Inv where
  regsSized := h.sized hs.regsSized
  spmSound := h.sound hs.spmSound
  queueBounded := by rw [State.queueBounded, h.queue, h.cfg]; exact hs.queueBounded
  faultSound := by rw [State.faultSound, h.err, h.cause, h.queue]; exact hs.faultSound

end Performed

/-! ## The block's turn (R140) -/

/-- What the block's turn leaves: the same state where no execution step is possible; else a command's writes and its
retirement, or a fault, whatever was drawn before it. -/
inductive BlockTurn (s : State) : State → Prop
  | idle (h : s.canExecute = false) : BlockTurn s s
  | retired (h : s.canExecute = true) {i : Instr} {t : State} (ht : Performed i s t) : BlockTurn s (retire t)
  | faulted (h : s.canExecute = true) {c : Cause} (hc : c ≠ .none) (info : Word) (d : Nat) :
      BlockTurn s { raise c info s with draws := d }

/-- The block's turn always answers a next state, and it is one of those. -/
theorem blockStep_turn (s : State) : ∃ u, blockStep s = .next u ∧ BlockTurn s u := by
  rcases blockStep_cases s with ⟨h, hs⟩ | ⟨w, q, h, -, ⟨i, -, hs⟩ | ⟨c, hc, hs⟩⟩
  · exact ⟨s, hs, .idle h⟩
  · rcases exec_cases i s with ⟨t, he, ht⟩ | ⟨c, info, d, hc, he⟩
    · exact ⟨_, hs.trans he, .retired h ht⟩
    · exact ⟨_, hs.trans he, .faulted h hc info d⟩
  · exact ⟨_, hs, .faulted h (decode_error_ne_none hc) 0 s.draws⟩

theorem blockTurn_of_blockStep {s u : State} (h : blockStep s = .next u) : BlockTurn s u := by
  obtain ⟨u', hu', hturn⟩ := blockStep_turn s
  obtain rfl : u' = u := by simpa [hu'] using h
  exact hturn

theorem BlockTurn.cfg {s u : State} (h : BlockTurn s u) : u.cfg = s.cfg := by
  cases h with
  | idle => rfl
  | retired _ ht => exact ht.cfg
  | faulted => rfl

/-- Where a step is possible, ERR after the turn tells a retirement from a fault, and CSEQ counts the first (R25). -/
theorem BlockTurn.cseq {s u : State} (h : BlockTurn s u) (hx : s.canExecute = true) :
    u.cseq = if u.err then s.cseq else s.cseq + 1 := by
  cases h with
  | idle hidle => simp [hx] at hidle
  | retired _ ht =>
    have herr : s.err = false := (canExecute_iff.mp hx).2.1
    simp [ht.err, herr, ht.cseq]
  | faulted => simp

/-! ## The host's accesses (R30) -/

theorem writePort_cfg (v : Word) (s : State) (p : Port) : (writePort v s p).cfg = s.cfg := by
  cases p with
  | ctrl => rw [writePort, writeCtrl]; split <;> rfl
  | status => rw [writePort, writeStatus_eq]
  | cmdHi => rcases push_cases v s with ⟨-, h⟩ | ⟨-, -, h⟩ | ⟨-, -, h⟩ <;> simp [writePort, h]
  | _ => rfl

/-- A write that is no soft reset reaches neither the register file nor CSEQ, and the scratchpad through its window
alone. -/
theorem writePort_frame {v : Word} {p : Port} (s : State) (h : p = .ctrl → v.getLsbD 31 = false) :
    (writePort v s p).regs = s.regs ∧ (writePort v s p).cseq = s.cseq ∧
      ((∀ a, p ≠ .spm a) → (writePort v s p).spm = s.spm) := by
  cases p with
  | ctrl => rw [writePort, writeCtrl_of_not_srst s (h rfl)]; exact ⟨rfl, rfl, fun _ => rfl⟩
  | status => rw [writePort, writeStatus_eq]; exact ⟨rfl, rfl, fun _ => rfl⟩
  | cmdHi =>
    rcases push_cases v s with ⟨-, h⟩ | ⟨-, -, h⟩ | ⟨-, -, h⟩ <;> simp [writePort, h]
  | spm a => exact ⟨rfl, rfl, fun hne => absurd rfl (hne a)⟩
  | _ => exact ⟨rfl, rfl, fun _ => rfl⟩

theorem hostAccess_cfg (a : HostAccess) (s : State) : (hostAccess a s).cfg = s.cfg := by
  rcases hostAccess_cases s a with ⟨r, d, h⟩ | ⟨off, v, -, -, -, h⟩
  · rw [h]
  · rw [h]; exact writePort_cfg v s _

/-- As `writePort_frame`, for every host access. -/
theorem hostAccess_frame {s : State} {a : HostAccess}
    (hctrl : ∀ v : Word, Event.host a = s.hostWrite 0x008 v → v.getLsbD 31 = false) :
    (hostAccess a s).regs = s.regs ∧ (hostAccess a s).cseq = s.cseq ∧
      ((∀ (off : Nat) (v : Word), 0x10000 ≤ off → Event.host a ≠ s.hostWrite off v) →
        (hostAccess a s).spm = s.spm) := by
  rcases hostAccess_cases s a with ⟨r, d, h⟩ | ⟨off, v, -, -, ha, h⟩
  · simp [h]
  · obtain ⟨hregs, hcseq, hspm⟩ := writePort_frame (v := v) (p := portAt s.cfg off) s
      fun hp => hctrl v (portAt_eq_ctrl hp ▸ ha)
    rw [h]
    refine ⟨hregs, hcseq, fun hout => hspm fun x hx => ?_⟩
    have hoff := (portAt_eq_spm hx).1
    exact hout off v (by omega) ha

/-! ## The invariant -/

section Inv
variable {s : State} (h : s.Inv)
include h

/-- The invariant reads six fields alone. -/
theorem State.Inv.congr {u : State} (hcfg : u.cfg = s.cfg) (hregs : u.regs = s.regs) (hspm : u.spm = s.spm)
    (hqueue : u.queue = s.queue) (herr : u.err = s.err) (hcause : u.cause = s.cause) : u.Inv where
  regsSized := regsSized_of_regs h.regsSized hregs hcfg
  spmSound := by rw [State.spmSound, hspm, hcfg]; exact h.spmSound
  queueBounded := by rw [State.queueBounded, hqueue, hcfg]; exact h.queueBounded
  faultSound := by rw [State.faultSound, herr, hcause, hqueue]; exact h.faultSound

theorem retire_inv : (retire s).Inv where
  regsSized := h.regsSized
  spmSound := h.spmSound
  queueBounded := by
    have hq : s.queue.length ≤ s.cfg.cmdqDepth := h.queueBounded
    simp only [State.queueBounded, retire_queue, retire_cfg, List.length_tail]
    omega
  faultSound := by
    obtain ⟨hclear, hset⟩ := h.faultSound
    exact ⟨hclear, fun he => ⟨(hset he).1, by simp [(hset he).2]⟩⟩

theorem takeFault_inv {c : Cause} (hc : c ≠ .none) (info : Word) (w : CmdWord) : (takeFault c info w s).Inv where
  regsSized := h.regsSized
  spmSound := h.spmSound
  queueBounded := Nat.zero_le _
  faultSound := ⟨fun he => by simp at he, fun _ => ⟨hc, rfl⟩⟩

theorem clearErr_inv : (clearErr s).Inv where
  regsSized := h.regsSized
  spmSound := h.spmSound
  queueBounded := h.queueBounded
  faultSound := ⟨fun _ => rfl, fun he => by simp at he⟩

/-- A push enters the queue only below its bound (R40, R220). -/
theorem push_inv (v : Word) : (push v s).Inv := by
  rcases push_cases v s with ⟨-, hp⟩ | ⟨-, -, hp⟩ | ⟨herr, hne, hp⟩ <;> rw [hp]
  · exact h.congr rfl rfl rfl rfl rfl rfl
  · exact takeFault_inv h (by decide) 0 _
  · refine ⟨h.regsSized, h.spmSound, ?_, h.faultSound.1, fun he => ?_⟩
    · have hq : s.queue.length ≤ s.cfg.cmdqDepth := h.queueBounded
      simp only [State.queueBounded, List.length_append, List.length_singleton]
      omega
    · simp [herr] at he

theorem writeStatus_inv (v : Word) : (writeStatus v s).Inv := by
  have hcleared : (if v.getLsbD 2 then clearErr s else s).Inv := by
    split
    · exact clearErr_inv h
    · exact h
  exact hcleared.congr rfl rfl rfl rfl rfl rfl

theorem writeSpmWord_inv {a : Nat} (ha : a + 4 ≤ s.cfg.spmBytes) (v : Word) : (writeSpmWord a v s).Inv :=
  ⟨h.regsSized, spmSound_writeBytes h.spmSound a 4 _ ha, h.queueBounded, h.faultSound⟩

end Inv

theorem BlockTurn.inv {s u : State} (h : BlockTurn s u) (hs : s.Inv) : u.Inv := by
  cases h with
  | idle => exact hs
  | retired _ ht => exact retire_inv (ht.inv hs)
  | faulted _ hc info d => exact (takeFault_inv hs hc info s.headWord).congr rfl rfl rfl rfl rfl rfl

theorem resetWith_inv (c : Config) : (State.resetWith c).Inv where
  regsSized r := by rw [resetWith_reg, List.length_replicate]; rfl
  spmSound := ⟨List.Pairwise.nil, by simp⟩
  queueBounded := Nat.zero_le _
  faultSound := ⟨fun _ => rfl, fun he => by cases he⟩

theorem resetBlock_inv (s : State) : (resetBlock s).Inv := (resetWith_inv s.cfg).congr rfl rfl rfl rfl rfl rfl

theorem writeCtrl_inv {s : State} (h : s.Inv) (v : Word) : (writeCtrl v s).Inv := by
  rw [writeCtrl]
  split
  · exact resetBlock_inv s
  · exact h.congr rfl rfl rfl rfl rfl rfl

theorem writePort_inv {s : State} (h : s.Inv) (v : Word) {p : Port} (hp : ∀ a, p = .spm a → a + 4 ≤ s.cfg.spmBytes) :
    (writePort v s p).Inv := by
  cases p with
  | ctrl => exact writeCtrl_inv h v
  | status => exact writeStatus_inv h v
  | cmdLo => exact h.congr rfl rfl rfl rfl rfl rfl
  | cmdHi => exact push_inv h v
  | spm a => exact writeSpmWord_inv h (hp a rfl) v
  | _ => exact h

theorem hostAccess_inv {s : State} (h : s.Inv) (a : HostAccess) : (hostAccess a s).Inv := by
  rcases hostAccess_cases s a with ⟨r, d, ha⟩ | ⟨off, v, -, -, -, ha⟩
  · rw [ha]
    exact h.congr rfl rfl rfl rfl rfl rfl
  · rw [ha]
    exact (writePort_inv h v fun x hx => (portAt_eq_spm hx).2).congr rfl rfl rfl rfl rfl rfl

/-! ## The statements -/

/-- Settles O15, for every configuration at once. -/
theorem resetHoldsInvariant : Obligations.ResetHoldsInvariant := ⟨resetWith_inv, rfl⟩

/-- Settles O16, event by event. -/
theorem stepKeepsInvariant : Obligations.StepKeepsInvariant := by
  intro s u h hu
  obtain ⟨rest, hs⟩ := step_cases s
  have h' : { s with agenda := rest }.Inv := h.congr rfl rfl rfl rfl rfl rfl
  rcases hs with hs | ⟨a, hs⟩ | hs <;> rw [hs] at hu
  · exact (blockTurn_of_blockStep hu).inv h'
  · cases hu
    exact hostAccess_inv h' a
  · cases hu
    exact resetBlock_inv _

/-- Settles O14, event by event. -/
theorem everyStepAnswers : Obligations.EveryStepAnswers := by
  intro s
  obtain ⟨rest, hs | ⟨a, hs⟩ | hs⟩ := step_cases s
  · obtain ⟨u, hu, hturn⟩ := blockStep_turn { s with agenda := rest }
    exact ⟨u, hs.trans hu, hturn.cfg⟩
  · exact ⟨_, hs, hostAccess_cfg a _⟩
  · exact ⟨_, hs, rfl⟩

/-- Settles O20: the frame of a host access that is no soft reset. -/
theorem hostAccessesKeepRegisters : Obligations.HostAccessesKeepRegisters := by
  intro s u a hctrl hu
  rw [step_access] at hu
  cases hu
  obtain ⟨hregs, -, hspm⟩ := hostAccess_frame hctrl
  exact ⟨hregs, hspm⟩

/-- Settles O18: the block's turn by what it leaves, the host's access by its frame. -/
theorem cseqCountsRetirements : Obligations.CseqCountsRetirements := by
  intro s u e hu
  refine ⟨fun he hx herr => ?_, fun he hx herr => ?_, fun he hx => ?_, fun he => ?_, fun v he hv => ?_,
    fun a he hctrl => ?_, fun he => ?_⟩ <;> subst he
  · rw [step_turn] at hu
    simp [(blockTurn_of_blockStep hu).cseq hx, herr, BitVec.toNat_add]
  · rw [step_turn] at hu
    simp [(blockTurn_of_blockStep hu).cseq hx, herr]
  · rw [step_turn, blockStep_idle hx] at hu
    cases hu
    rfl
  · rw [step_reset] at hu
    cases hu
    rfl
  · rw [step_writeRegister s (p := .ctrl) (by decide), writePort, writeCtrl_of_srst s hv] at hu
    cases hu
    rfl
  · rw [step_access] at hu
    cases hu
    obtain ⟨-, hcseq, -⟩ := hostAccess_frame hctrl
    exact hcseq
  · rw [step_readRegister s (p := .cseq) (by decide)] at hu
    cases hu
    rfl

end Sys2Proof.Machine
end

section
/-!
SUPPORT. The scratchpad as the commands and the host reach it: what VLD, VLD.BE, VST and VST.BE do under the checks of
R54, a vector loaded after it was stored (R146 to R149), and the host's window (R55).
-/
namespace Sys2Proof.Machine

/-! ## Bytes of a vector (R22, R53) -/

/-- Byte k of lane i lies among the bytes of the vector. -/
theorem laneByte_lt {es n i k : Nat} (hi : i < n) (hk : k < es) : i * es + k < n * es :=
  calc i * es + k < (i + 1) * es := by rw [Nat.add_one_mul]; omega
    _ ≤ n * es := Nat.mul_le_mul_right es hi

/-- The big-endian index of byte k of lane i is the mirrored byte of the same lane (R53). -/
theorem beIndex_laneByte {es k : Nat} (i : Nat) (hk : k < es) : beIndex es (i * es + k) = i * es + (es - 1 - k) := by
  have hdiv : (i * es + k) / es = i := by
    rw [Nat.mul_comm, Nat.mul_add_div (Nat.zero_lt_of_lt hk), Nat.div_eq_of_lt hk, Nat.add_zero]
  rw [beIndex, hdiv, Nat.mul_add_mod', Nat.mod_eq_of_lt hk]

/-! ## The checks of an access (R54) -/

section Checks
variable {s : State} {t : EType} {n : LogCount} {a : Word} (hw : count n * t.esize ≤ s.cfg.vlenb)
include hw

/-- Of a vector that fits, a misaligned address is what the first failing check reports. -/
theorem accessChecks_misalign (ha : a.toNat % t.esize ≠ 0) :
    firstFault (s.accessChecks t n a) = some (.misalign, a) := by
  simp [State.accessChecks, firstFault_cons, tooWide_eq_false.mpr hw, ha]

/-- Aligned, it is a range that passes the end of the scratchpad. -/
theorem accessChecks_addr (ha : a.toNat % t.esize = 0) (hb : s.cfg.spmBytes < a.toNat + count n * t.esize) :
    firstFault (s.accessChecks t n a) = some (.addr, a) := by
  simp [State.accessChecks, firstFault_cons, tooWide_eq_false.mpr hw, ha, hb]

end Checks

/-- Retiring after the writes a command may make (`Performed.rest`). -/
theorem retiredFrom_retire {s u : State} (h : u = { s with
    regs := u.regs, draws := u.draws, spm := u.spm, sigVal := u.sigVal, done := u.done }) :
    s.RetiredFrom (retire u) := by
  rw [h]
  exact ⟨rfl, rfl, rfl, rfl, rfl, rfl, rfl, rfl, rfl, rfl, rfl, rfl, rfl, rfl, rfl⟩

/-- A scratchpad access is a command under the checks of R54 and no others. -/
theorem exec_scratchpadAccess {i : Instr} {t : EType} {n : LogCount} {a : Word}
    (h : scratchpadAccess i = some (t, n, a)) (s : State) :
    ∃ perform, exec i s = command (s.accessChecks t n a) perform s ∧ s.RetiredFrom (retire (perform s)) := by
  cases i with
  | vld | vldBe | vst | vstBe => cases h; exact ⟨_, rfl, retiredFrom_retire rfl⟩
  | _ => cases h

/-! ## The four commands when their checks pass (R146 to R149) -/

section Passing
variable {s : State} {t : EType} {n : LogCount} {a : Word} (hw : count n * t.esize ≤ s.cfg.vlenb)
  (ha : a.toNat % t.esize = 0) (hb : a.toNat + count n * t.esize ≤ s.cfg.spmBytes)
include hw ha hb

theorem exec_vld_ok (vd : VReg) :
    exec (.vld vd t n a) s = .next (retire (loadBytes vd a.toNat (count n * t.esize) (fun j => j) s)) :=
  command_ok (accessChecks_ok hw ha hb)

theorem exec_vldBe_ok (vd : VReg) :
    exec (.vldBe vd t n a) s = .next (retire (loadBytes vd a.toNat (count n * t.esize) (beIndex t.esize) s)) :=
  command_ok (accessChecks_ok hw ha hb)

theorem exec_vst_ok (vs : VReg) :
    exec (.vst vs t n a) s = .next (retire (storeBytes vs a.toNat (count n * t.esize) (fun j => j) s)) :=
  command_ok (accessChecks_ok hw ha hb)

theorem exec_vstBe_ok (vs : VReg) :
    exec (.vstBe vs t n a) s = .next (retire (storeBytes vs a.toNat (count n * t.esize) (beIndex t.esize) s)) :=
  command_ok (accessChecks_ok hw ha hb)

end Passing

/-- A load of the bytes a store has put: byte j comes from the register byte that the store's index has at the load's
index of j. -/
theorem regByte_loadBytes_storeBytes {s : State} (hs : Memory.wf s.spm) (vd vs : VReg) (a : Nat) {nb : Nat}
    (hnb : nb ≤ s.cfg.vlenb) (load store : Nat → Nat) {j : Nat} (hj : j < nb) (hload : load j < nb) :
    (loadBytes vd a nb load (retire (storeBytes vs a nb store s))).regByte vd j = s.regByte vs (store (load j)) := by
  have hfit : j < (retire (storeBytes vs a nb store s)).cfg.vlenb := Nat.lt_of_lt_of_le hj hnb
  rw [regByte_loadBytes vd a nb load _ hfit, if_pos hj, retire_spm,
    read_storeBytes vs a nb store s hs, if_pos (by omega), Nat.add_sub_cancel_left]

/-! ## The host's window (R55) -/

/-- A 32-bit write in the window's scratchpad part (R55). -/
theorem step_writeSpm (s : State) {a : Nat} (h4 : a % 4 = 0) (ha : a + 4 ≤ s.cfg.spmBytes) (v : Word) :
    step (s.awaiting (s.hostWrite (0x10000 + a) v)) = .next { writeSpmWord a v s with response := .done } := by
  have hsize := s.cfg.spmBytes_bounds
  rw [step_hostWrite s v (by omega) (by omega), portAt_spm ha, writePort]

/-- A 32-bit read in the window's scratchpad part (R55); it draws the free values of its four bytes. -/
theorem step_readSpm (s : State) {a : Nat} (h4 : a % 4 = 0) (ha : a + 4 ≤ s.cfg.spmBytes) :
    step (s.awaiting (s.hostRead (0x10000 + a))) =
      .next { s with response := .data (s.spmWord a), draws := s.draws + 4 } := by
  have hsize := s.cfg.spmBytes_bounds
  rw [step_hostRead s (by omega) (by omega), portAt_spm ha]
  rfl

/-- Every byte of the scratchpad after the host wrote a word (R53, R55). -/
theorem read_writeSpmWord {s : State} (hs : Memory.wf s.spm) (a : Nat) (v : Word) (x : Nat) :
    Memory.read (writeSpmWord a v s).spm x =
      if a ≤ x ∧ x < a + 4 then .written (byteOf v (x - a)) else Memory.read s.spm x :=
  Memory.read_writeBytes hs a _ 4 x

/-- A byte of the word the host reads is the scratchpad's where that is written (R53, R55). -/
theorem byteOf_spmWord {s : State} {a k : Nat} {b : Byte} (hk : k < 4)
    (hb : Memory.read s.spm (a + k) = .written b) : byteOf (s.spmWord a) k = b := by
  rw [State.spmWord, byteOf_laneOfBytes _ hk, hb, RegByte.value_written]

/-- The window past the scratchpad's bytes is reserved (R55). -/
theorem portAt_beyond_spm {c : Config} {a : Nat} (ha : c.spmBytes ≤ a) : portAt c (0x10000 + a) = .reserved := by
  refine portAt_reserved (fun e he => ?_) (by omega)
  have := (portAt_register_eq he).1
  omega

/-! ## The statements -/

/-- Settles O27: each load's index after each store's index is either the identity or the mirror of a lane. -/
theorem loadAfterStore : Obligations.LoadAfterStore := by
  intro s vd vs t n a ⟨hwf, _⟩ hw ha hb
  have hvld (u : State) (hu : u.cfg = s.cfg) := exec_vld_ok (s := u) (hu ▸ hw) ha (hu ▸ hb) vd
  have hvldBe (u : State) (hu : u.cfg = s.cfg) := exec_vldBe_ok (s := u) (hu ▸ hw) ha (hu ▸ hb) vd
  refine ⟨_, _, _, _, _, _, exec_vst_ok hw ha hb vs, exec_vstBe_ok hw ha hb vs, hvld _ rfl, hvldBe _ rfl,
    hvldBe _ rfl, hvld _ rfl, fun i hi k hk => ?_⟩
  have hj : i * t.esize + k < count n * t.esize := laneByte_lt hi hk
  have hbe := beIndex_lt hj
  have hmirror := beIndex_laneByte i hk
  have hround := regByte_loadBytes_storeBytes hwf vd vs a.toNat hw
  refine ⟨hround _ _ hj hj, ?_, ?_, ?_⟩
  · exact (hround _ _ hj hbe).trans (by rw [beIndex_beIndex (esize_pos t)])
  · exact (hround _ _ hj hbe).trans (by rw [hmirror])
  · exact (hround _ _ hj hj).trans (by rw [hmirror])

/-- Settles O59: a word written, a word read, bad sizes and alignments, and the window past the scratchpad. -/
theorem scratchpadWindow : Obligations.ScratchpadWindow := by
  intro s a v ⟨hwf, _⟩ h4
  have hsize := s.cfg.spmBytes_bounds
  refine ⟨fun ha => ⟨?_, ?_, fun size k hk hbad => ?_⟩, fun ha hlt => ?_⟩
  · exact ⟨_, step_writeSpm s h4 ha v, rfl, read_writeSpmWord hwf a v⟩
  · exact ⟨_, step_readSpm s h4 ha, s.spmWord a, rfl, fun k hk b hb => byteOf_spmWord hk hb⟩
  · rw [step_access, step_access]
    obtain ⟨hread, hwrite⟩ := hostAccess_busError (s := s) (size := size) (off := 0x10000 + a + k) v
      (by omega) (by omega)
    rw [hread, hwrite]
    exact ⟨rfl, rfl⟩
  · exact step_reserved s v (by omega) (by omega) (portAt_beyond_spm ha)

/-- Settles O28: the first failing check of an access, or none. -/
theorem accessChecks : Obligations.AccessChecks := by
  intro s r t n a hw i hi
  have hacc : scratchpadAccess i = some (t, n, a) := by
    simp only [List.mem_cons, List.not_mem_nil, or_false] at hi
    rcases hi with rfl | rfl | rfl | rfl <;> rfl
  obtain ⟨perform, hexec, hretired⟩ := exec_scratchpadAccess hacc s
  rw [hexec]
  refine ⟨fun ha => ?_, fun ha hb => ?_, fun ha hb => ?_⟩
  · exact command_fault (accessChecks_misalign hw ha)
  · exact command_fault (accessChecks_addr hw ha hb)
  · exact ⟨_, command_ok (accessChecks_ok hw ha hb), hretired⟩

end Sys2Proof.Machine
end

section
/-!
SUPPORT. The encoding family: the decoder and the encoder are inverse to each other on the words the decoder reads and
the well-formed commands (R70, R71, R74, R77, R88), and each cause the decoder rejects a word by is told by the first
of the checks 1 to 3 of R216 the word fails (R76, R78, R86).
-/
namespace Sys2Proof

/-! ## The word of a command (R88) -/

/-- Packing puts each field at its own bits (R71, R88). -/
theorem Fields.pack_eq_or (f : Fields) : f.pack =
    f.opc.setWidth 64 ||| (f.vd.setWidth 64 <<< 8) ||| (f.vs1.setWidth 64 <<< 13) ||| (f.vs2.setWidth 64 <<< 18) |||
      (f.et.setWidth 64 <<< 23) ||| (f.logn.setWidth 64 <<< 28) ||| (f.imm.setWidth 64 <<< 32) := by
  have hpack : f.pack = (f.imm ++ f.logn ++ f.et ++ f.vs2 ++ f.vs1 ++ f.vd ++ f.opc).setWidth 64 :=
    (BitVec.setWidth_eq _).symm
  rw [hpack]
  simp only [BitVec.setWidth_append_eq_shiftLeft_setWidth_or, BitVec.shiftLeft_or_distrib, ← BitVec.shiftLeft_add]
  -- the same seven terms, in the other order
  grind only

/-! ## A well-formed command is read back -/

theorem decodeFields_encodeFields (i : Instr) : i.wf = true → decodeFields (encodeFields i) = .ok i := by
  open Laws.FieldsRoundTrip in
  cases i with
  | nop => exact nop
  | signal sig => exact signal sig
  | vzero vd => exact vzero vd
  | vsplat vd vs t n lane => exact vsplat vd vs t n lane
  | vld vd t n a => exact vld vd t n a
  | vldBe vd t n a => exact vldBe vd t n a
  | vst vs t n a => exact vst vs t n a
  | vstBe vs t n a => exact vstBe vs t n a
  | cvtF32E4m3 vd vs n => exact cvtF32E4m3 vd vs n
  | cvtF32E5m2 vd vs n => exact cvtF32E5m2 vd vs n
  | cvtF32Bf16 vd vs n => exact cvtF32Bf16 vd vs n
  | cvtF64E4m3 vd vs n => exact cvtF64E4m3 vd vs n
  | cvtF64E5m2 vd vs n => exact cvtF64E5m2 vd vs n
  | cvtF64Bf16 vd vs n => exact cvtF64Bf16 vd vs n
  | cvtE4m3F32 vd vs n => exact cvtE4m3F32 vd vs n
  | cvtE5m2F32 vd vs n => exact cvtE5m2F32 vd vs n
  | cvtBf16F32 vd vs n => exact cvtBf16F32 vd vs n
  | cvtE4m3F64 vd vs n => exact cvtE4m3F64 vd vs n
  | cvtE5m2F64 vd vs n => exact cvtE5m2F64 vd vs n
  | cvtBf16F64 vd vs n => exact cvtBf16F64 vd vs n
  | redadd vd vs t n o => exact redadd vd vs t n o
  | redmul vd vs t n o => exact redmul vd vs t n o
  | redmin vd vs t n o => exact redmin vd vs t n o
  | redmax vd vs t n o => exact redmax vd vs t n o
  | redand vd vs t n o => exact redand vd vs t n o
  | redor vd vs t n o => exact redor vd vs t n o
  | redpopc vd vs t n o => exact redpopc vd vs t n o
  | slice vd vs t n off w => exact slice vd vs t n off w
  | insert vd vs vv t n off w => exact insert vd vs vv t n off w
  | join vd va vb t n => exact join vd va vb t n
  | split vd vd2 vs t n => exact split vd vd2 vs t n
  | ilv vd va vb t n => exact ilv vd va vb t n
  | dilv vd vd2 vs t n => exact dilv vd vd2 vs t n
  | shuf1 vd vs vm t n m => exact shuf1 vd vs vm t n m
  | shuf2 vd vs vo vm t n m => exact shuf2 vd vs vo vm t n m
  | rotl vd vs t n sh => exact rotl vd vs t n sh
  | rotr vd vs t n sh => exact rotr vd vs t n sh
  | shll vd vs t n sh => exact shll vd vs t n sh
  | shrl vd vs t n sh => exact shrl vd vs t n sh
  | rev vd vs t n => exact rev vd vs t n

theorem decode_encode {i : Instr} (h : i.wf = true) : decode (encode i) = .ok i := by
  rw [decode, encode, Fields.unpack_pack]
  exact decodeFields_encodeFields i h

/-! ## The immediate sub-fields of an immediate without other bits (R74, R76) -/

/-- A sub-field that lies wholly outside the used bits `mask` is zero. -/
theorem extractLsb'_eq_zero_of_unused {x mask : Word} {start len : Nat} (h : x &&& ~~~mask = 0)
    (hunused : (~~~mask).extractLsb' start len = BitVec.allOnes len) : x.extractLsb' start len = 0#len := by
  have hcut := congrArg (BitVec.extractLsb' start len) h
  rwa [BitVec.extractLsb'_and, hunused, BitVec.and_allOnes, BitVec.ofNat_eq_ofNat, BitVec.extractLsb'_zero] at hcut

theorem zero_eq_of_unused {x : Word} (h : x &&& ~~~0#32 = 0) : 0#32 = x :=
  h.symm.trans (by rw [BitVec.not_zero, BitVec.and_allOnes])

theorem immHalf_extract {x : Word} (h : x &&& ~~~0x0000FFFF#32 = 0) : immHalf (x.extractLsb' 0 16) = x := by
  rw [immHalf, ← extractLsb'_eq_zero_of_unused (start := 16) h rfl]
  exact (BitVec.extractLsb'_append_extractLsb'_eq_extractLsb' rfl).trans BitVec.extractLsb'_eq_self

theorem immLog_extract {x : Word} (h : x &&& ~~~0x0000000F#32 = 0) :
    immLog (LogCount.ofField (x.extractLsb' 0 4)) = x := by
  rw [immLog, LogCount.toField_ofField, ← extractLsb'_eq_zero_of_unused (start := 4) h rfl]
  exact (BitVec.extractLsb'_append_extractLsb'_eq_extractLsb' rfl).trans BitVec.extractLsb'_eq_self

theorem immReg_extract {x : Word} (h : x &&& ~~~0x0000001F#32 = 0) :
    immReg (VReg.ofField (x.extractLsb' 0 5)) = x := by
  rw [immReg, VReg.toField_ofField, ← extractLsb'_eq_zero_of_unused (start := 5) h rfl]
  exact (BitVec.extractLsb'_append_extractLsb'_eq_extractLsb' rfl).trans BitVec.extractLsb'_eq_self

theorem immOffLog_extract {x : Word} (h : x &&& ~~~0x000FFFFF#32 = 0) :
    immOffLog (x.extractLsb' 0 16) (LogCount.ofField (x.extractLsb' 16 4)) = x := by
  rw [immOffLog, LogCount.toField_ofField, ← extractLsb'_eq_zero_of_unused (start := 20) h rfl,
    BitVec.extractLsb'_append_extractLsb'_eq_extractLsb' (start₂ := 20) (start₁ := 16) rfl]
  exact (BitVec.extractLsb'_append_extractLsb'_eq_extractLsb' rfl).trans BitVec.extractLsb'_eq_self

theorem immLogReg_extract {x : Word} (h : x &&& ~~~0x00001F0F#32 = 0) :
    immLogReg (LogCount.ofField (x.extractLsb' 0 4)) (VReg.ofField (x.extractLsb' 8 5)) = x := by
  rw [immLogReg, LogCount.toField_ofField, VReg.toField_ofField,
    ← extractLsb'_eq_zero_of_unused (start := 13) h rfl, ← extractLsb'_eq_zero_of_unused (start := 4) h rfl]
  rw [BitVec.extractLsb'_append_extractLsb'_eq_extractLsb' (start₂ := 13) (start₁ := 8) rfl,
    BitVec.extractLsb'_append_extractLsb'_eq_extractLsb' (start₂ := 8) (start₁ := 4) rfl]
  exact (BitVec.extractLsb'_append_extractLsb'_eq_extractLsb' rfl).trans BitVec.extractLsb'_eq_self

/-! ## The command read from a word -/

/-- Check 2 of R216 passes exactly when every unused field, and every unused bit of IMM, is zero (R76). -/
theorem Fields.unusedNonzero_eq_false_iff {f : Fields} {u : FieldUse} : f.unusedNonzero u = false ↔
    (u.vd = false → f.vd = 0) ∧ (u.vs1 = false → f.vs1 = 0) ∧ (u.vs2 = false → f.vs2 = 0) ∧
    (u.et = false → f.et = 0) ∧ (u.logn = false → f.logn = 0) ∧ f.imm &&& ~~~u.imm = 0 := by
  simp [Fields.unusedNonzero, and_assoc]

/-- Field by field. -/
theorem Fields.mk_eq {f : Fields} {opc : BitVec 8} {vd vs1 vs2 et : BitVec 5} {logn : BitVec 4} {imm : Word}
    (hopc : opc = f.opc) (hvd : vd = f.vd) (hvs1 : vs1 = f.vs1) (hvs2 : vs2 = f.vs2) (het : et = f.et)
    (hlogn : logn = f.logn) (himm : imm = f.imm) : (⟨opc, vd, vs1, vs2, et, logn, imm⟩ : Fields) = f := by
  rw [hopc, hvd, hvs1, hvs2, het, hlogn, himm]

section Encode
variable {f : Fields} {op : Opcode} {t : EType} {imm mask : Word} (hop : op.code = f.opc)
  (hf : f.unusedNonzero op.uses = false) (ht : t.code = f.et)
include hop hf ht

/-- The one-source shape of R77, rebuilt from the fields it was read from. -/
theorem unary_ofFields (hu : op.uses = ⟨true, true, false, true, true, mask⟩)
    (himm : f.imm &&& ~~~mask = 0 → imm = f.imm) :
    Fields.unary op (VReg.ofField f.vd) (VReg.ofField f.vs1) t (LogCount.ofField f.logn) imm = f := by
  obtain ⟨-, -, hvs2, -, -, hmask⟩ := Fields.unusedNonzero_eq_false_iff.mp (hu ▸ hf)
  exact Fields.mk_eq hop rfl rfl (hvs2 rfl).symm ht rfl (himm hmask)

/-- The two-source shape of R77, rebuilt from the fields it was read from. -/
theorem binary_ofFields (hu : op.uses = ⟨true, true, true, true, true, mask⟩)
    (himm : f.imm &&& ~~~mask = 0 → imm = f.imm) :
    Fields.binary op (VReg.ofField f.vd) (VReg.ofField f.vs1) (VReg.ofField f.vs2) t (LogCount.ofField f.logn) imm
      = f := by
  obtain ⟨-, -, -, -, -, hmask⟩ := Fields.unusedNonzero_eq_false_iff.mp (hu ▸ hf)
  exact Fields.mk_eq hop rfl rfl rfl ht rfl (himm hmask)

end Encode

/-- Fields that pass the checks 1 to 3 of R216 are the fields of the command they give: none is dropped. -/
theorem encodeFields_build {f : Fields} {op : Opcode} {t : EType} (hop : op.code = f.opc)
    (hf : f.unusedNonzero op.uses = false) (ht : t.code = f.et) (ha : op.admits t = true) :
    encodeFields (op.build f t) = f := by
  obtain ⟨hvd, hvs1, hvs2, het, hlogn, himm⟩ := Fields.unusedNonzero_eq_false_iff.mp hf
  cases op with
  | nop =>
    exact Fields.mk_eq hop (hvd rfl).symm (hvs1 rfl).symm (hvs2 rfl).symm (het rfl).symm (hlogn rfl).symm
      (zero_eq_of_unused himm)
  | signal =>
    exact Fields.mk_eq hop (hvd rfl).symm (hvs1 rfl).symm (hvs2 rfl).symm (het rfl).symm (hlogn rfl).symm rfl
  | vzero =>
    exact Fields.mk_eq hop rfl (hvs1 rfl).symm (hvs2 rfl).symm (het rfl).symm (hlogn rfl).symm (zero_eq_of_unused himm)
  | vld | vldBe => exact Fields.mk_eq hop rfl (hvs1 rfl).symm (hvs2 rfl).symm ht rfl rfl
  | vst | vstBe => exact Fields.mk_eq hop (hvd rfl).symm rfl (hvs2 rfl).symm ht rfl rfl
  | vsplat | rotl | rotr | shll | shrl => exact unary_ofFields hop hf ht rfl immHalf_extract
  | cvtF32E4m3 | cvtF64E4m3 =>
    obtain rfl : t = .e4m3 := eq_of_beq ha
    exact unary_ofFields hop hf ht rfl zero_eq_of_unused
  | cvtF32E5m2 | cvtF64E5m2 =>
    obtain rfl : t = .e5m2 := eq_of_beq ha
    exact unary_ofFields hop hf ht rfl zero_eq_of_unused
  | cvtF32Bf16 | cvtF64Bf16 =>
    obtain rfl : t = .bf16 := eq_of_beq ha
    exact unary_ofFields hop hf ht rfl zero_eq_of_unused
  | cvtE4m3F32 | cvtE5m2F32 | cvtBf16F32 =>
    obtain rfl : t = .f32 := eq_of_beq ha
    exact unary_ofFields hop hf ht rfl zero_eq_of_unused
  | cvtE4m3F64 | cvtE5m2F64 | cvtBf16F64 =>
    obtain rfl : t = .f64 := eq_of_beq ha
    exact unary_ofFields hop hf ht rfl zero_eq_of_unused
  | redadd | redmul | redmin | redmax | redand | redor | redpopc =>
    exact unary_ofFields hop hf ht rfl immLog_extract
  | slice => exact unary_ofFields hop hf ht rfl immOffLog_extract
  | insert => exact binary_ofFields hop hf ht rfl immOffLog_extract
  | join | ilv => exact binary_ofFields hop hf ht rfl zero_eq_of_unused
  | split | dilv => exact unary_ofFields hop hf ht rfl immReg_extract
  | shuf1 => exact binary_ofFields hop hf ht rfl immLog_extract
  | shuf2 => exact binary_ofFields hop hf ht rfl immLogReg_extract
  | rev => exact unary_ofFields hop hf ht rfl zero_eq_of_unused

/-- The command that fields passing the checks 2 and 3 of R216 give is well formed (R76, R78). -/
theorem wf_build {f : Fields} {op : Opcode} {t : EType} (hd : f.sameDest op = false) (ha : op.admits t = true) :
    (op.build f t).wf = true := by
  cases op with
  | redadd | redmul | redmin | redmax | redand | redor | redpopc => exact ha
  | split | dilv =>
    have hne : f.vd ≠ f.vd2 := beq_eq_false_iff_ne.mp hd
    exact bne_iff_ne.mpr fun h => hne (congrArg VReg.toField h)
  | _ => rfl

theorem encode_of_decode {w : CmdWord} {i : Instr} (h : decode w = .ok i) : i.wf = true ∧ encode i = w := by
  obtain ⟨op, t, hop, hf, hd, ht, ha, rfl⟩ := decodeFields_eq_ok h
  refine ⟨wf_build hd ha, ?_⟩
  rw [encode, encodeFields_build (Opcode.code_of_ofCode hop) hf (EType.code_of_ofCode ht) ha, Fields.pack_unpack]

/-! ## The codes the tables list (R72, R78, R86) -/

/-- The OPC values of R77 stand in seven runs. -/
theorem Opcode.all_codes : Opcode.all.map (·.code.toNat) =
    List.range' 0x00 8 ++ List.range' 0x10 3 ++ List.range' 0x14 3 ++ List.range' 0x18 3 ++ List.range' 0x1C 3 ++
      List.range' 0x20 7 ++ List.range' 0x30 13 := rfl

/-- The values that R77's runs leave out are those R86 lists. -/
theorem Opcode.ofCode_eq_none_iff (c : BitVec 8) : Opcode.ofCode c = none ↔ unassignedOpc c.toNat := by
  have hout : Opcode.ofCode c = none ↔ c.toNat ∉ Opcode.all.map (·.code.toNat) := by
    simp [Opcode.ofCode, BitVec.toNat_inj]
  rw [hout, Opcode.all_codes, unassignedOpc]
  simp only [List.mem_append, List.mem_range'_1]
  have := c.isLt
  omega

/-- The reserved codes are those no element type has (R72). -/
theorem EType.ofCode_reserved {c : BitVec 5} (h : c.toNat ∈ [6, 7, 14, 15, 17, 18, 19, 26, 27, 28, 29, 30, 31]) :
    EType.ofCode c = none := by
  revert c
  decide

theorem Opcode.uses_et (op : Opcode) : op.uses.et = !op.untyped := by
  cases op <;> rfl

/-- R78's list is the codes of the element types the decoder admits, in the order of R5. -/
theorem Opcode.admittedCodes_eq {op : Opcode} (h : op.untyped = false) :
    op.admittedCodes = (EType.all.filter op.admits).map (·.code.toNat) := by
  cases op with
  | nop | signal | vzero => cases h
  | _ => rfl

theorem EType.mem_all (t : EType) : t ∈ EType.all := by cases t <;> decide

/-- Check 3 of R216 fails exactly on the codes outside R78's list. -/
theorem Fields.admittedType_eq_none_iff {op : Opcode} (h : op.untyped = false) (f : Fields) :
    f.admittedType op = none ↔ f.et.toNat ∉ op.admittedCodes := by
  have hmem : f.et.toNat ∈ op.admittedCodes ↔ ∃ t, op.admits t = true ∧ t.code = f.et := by
    simp [Opcode.admittedCodes_eq h, EType.mem_all, BitVec.toNat_inj]
  rw [hmem, Fields.admittedType]
  cases hc : EType.ofCode f.et with
  | none =>
    refine iff_of_true rfl fun ⟨t, _, ht⟩ => ?_
    rw [← ht, EType.ofCode_code] at hc
    cases hc
  | some t =>
    have hcode : ∀ u : EType, u.code = f.et ↔ u = t := fun u =>
      ⟨fun hu => by rw [← hu, EType.ofCode_code] at hc; exact Option.some.inj hc,
        fun hu => hu ▸ EType.code_of_ofCode hc⟩
    simp [hcode]

/-! ## The cause of a rejection (checks 1 to 3 of R216) -/

section Assigned
variable {f : Fields} {op : Opcode} (hop : f.opc = op.code)
include hop

/-- The checks 2 and 3 on fields with an assigned opcode. -/
theorem decodeFields_of_assigned : decodeFields f =
    if f.unusedNonzero op.uses || f.sameDest op then .error .illegalField
    else (f.admittedType op).elim (.error .illegalType) fun t => .ok (op.build f t) := by
  rw [decodeFields, hop, Opcode.ofCode_code]
  dsimp only
  cases f.admittedType op <;> rfl

/-- Check 2: an unused field is not zero, or the two destinations are one. -/
theorem decodeFields_illegalField_iff :
    decodeFields f = .error .illegalField ↔ (f.unusedNonzero op.uses || f.sameDest op) = true := by
  rw [decodeFields_of_assigned hop]
  split
  next hbad => exact iff_of_true rfl hbad
  next hok =>
    refine iff_of_false ?_ hok
    cases f.admittedType op <;> simp

/-- Check 3, of fields that pass check 2: the opcode does not take the element type. -/
theorem decodeFields_illegalType_iff (hfield : decodeFields f ≠ .error .illegalField) :
    decodeFields f = .error .illegalType ↔ f.admittedType op = none := by
  rw [Ne, decodeFields_illegalField_iff hop] at hfield
  rw [decodeFields_of_assigned hop, if_neg hfield]
  cases f.admittedType op <;> simp

theorem unusedNonzero_of_ne_illegalField (hfield : decodeFields f ≠ .error .illegalField) :
    f.unusedNonzero op.uses = false := by
  rw [Ne, decodeFields_illegalField_iff hop, Bool.or_eq_true, not_or] at hfield
  exact Bool.eq_false_of_not_eq_true hfield.1

theorem decodeFields_ne_illegalOpcode : decodeFields f ≠ .error .illegalOpcode := by
  rw [decodeFields_of_assigned hop]
  split
  · simp
  · cases f.admittedType op <;> simp

end Assigned

/-- Check 1: the opcode is unassigned. -/
theorem decodeFields_illegalOpcode_iff {f : Fields} :
    decodeFields f = .error .illegalOpcode ↔ Opcode.ofCode f.opc = none := by
  cases h : Opcode.ofCode f.opc with
  | none => simp [decodeFields, h]
  | some op => simp [decodeFields_ne_illegalOpcode (Opcode.code_of_ofCode h).symm]

/-- An opcode without a type takes ET = 0 only (R76, R78). -/
theorem decode_illegalField_of_untyped {w : CmdWord} {op : Opcode} (hop : (Fields.unpack w).opc = op.code)
    (huntyped : op.untyped = true) (het : (Fields.unpack w).et ≠ 0) : decode w = .error .illegalField := by
  by_contra hfield
  obtain ⟨-, -, -, hzero, -⟩ :=
    Fields.unusedNonzero_eq_false_iff.mp (unusedNonzero_of_ne_illegalField hop hfield)
  exact het (hzero (by rw [Opcode.uses_et, huntyped, Bool.not_true]))

/-- Of an opcode with a type, a word that passes check 2 has a type that is not admitted exactly when its ET code is
outside R78's list. -/
theorem decode_illegalType_iff {w : CmdWord} {op : Opcode} (hop : (Fields.unpack w).opc = op.code)
    (htyped : op.untyped = false) (hfield : decode w ≠ .error .illegalField) :
    decode w = .error .illegalType ↔ (Fields.unpack w).et.toNat ∉ op.admittedCodes :=
  (decodeFields_illegalType_iff hop hfield).trans (Fields.admittedType_eq_none_iff htyped _)

/-- Nothing but the all-zero word is NOP (R86, R87). -/
theorem decode_eq_nop_iff {w : CmdWord} : decode w = .ok .nop ↔ w = 0 :=
  ⟨fun h => (encode_of_decode h).2.symm, fun h => h ▸ rfl⟩

/-- A word with NOP's opcode and a field that is not zero (R86). -/
theorem decode_illegalField_of_opc_zero {w : CmdWord} (hop : (Fields.unpack w).opc = 0) (hw : w ≠ 0) :
    decode w = .error .illegalField := by
  by_contra hfield
  have hunused := unusedNonzero_of_ne_illegalField (op := .nop) hop hfield
  obtain ⟨-, -, -, het, -⟩ := Fields.unusedNonzero_eq_false_iff.mp hunused
  have hnop : encodeFields .nop = Fields.unpack w :=
    encodeFields_build (op := .nop) (t := .u8) hop.symm hunused (het rfl).symm rfl
  exact hw (by rw [← Fields.pack_unpack w, ← hnop]; rfl)

end Sys2Proof

namespace Sys2Proof.Machine

/-- The turn that executes a word the decoder rejects takes that fault, with FAULTINFO 0 (R140, R211, R213). -/
theorem step_rejected {w : CmdWord} {c : Cause} (h : decode w = .error c) {s : State} {q : List CmdWord}
    (hen : s.en = true) (herr : s.err = false) (hq : s.queue = w :: q) :
    step (s.awaiting .block) = .next (s.afterFault c 0 w) := by
  have hexec : s.canExecute = true := canExecute_iff.mpr ⟨hen, herr, by simp [hq]⟩
  have hhead : s.headWord = w := by rw [State.headWord, hq, List.headD_cons]
  rw [step_turn, blockStep_cons hexec hq, execWord, h]
  exact congrArg (fun v => Host.Outcome.next (s.afterFault c 0 v)) hhead

/-! ## The statements -/

/-- Settles O2: the fields survive packing, and every constructor's fields decode to it. -/
theorem decodeEncodeRoundTrip : Obligations.DecodeEncodeRoundTrip := fun _ => decode_encode

/-- Settles O1: the formula, and the five words by evaluation. -/
theorem encodingFormulaAndSpecWords : Obligations.EncodingFormulaAndSpecWords :=
  ⟨Fields.pack_eq_or, by decide⟩

/-- Settles O3: fields that pass the decoder's checks are those of the command they give. -/
theorem encodeDecodeRoundTrip : Obligations.EncodeDecodeRoundTrip := fun _ _ => encode_of_decode

/-- Settles O5: R78's lists are the codes of the types check 3 admits. -/
theorem admittedElementTypes : Obligations.AdmittedElementTypes := by
  intro w op hop
  refine ⟨decode_illegalField_of_untyped hop, fun htyped hfield => ?_⟩
  have htype := decode_illegalType_iff hop htyped hfield
  exact ⟨htype, fun het s q => step_rejected (htype.mpr het)⟩

/-- Settles O6: each clause of R86 by the check of R216 that rejects the word. -/
theorem illegalEncodings : Obligations.IllegalEncodings := by
  intro w f reserved
  have hopcode : decode w = .error .illegalOpcode ↔ unassignedOpc f.opc.toNat :=
    decodeFields_illegalOpcode_iff.trans (Opcode.ofCode_eq_none_iff _)
  refine ⟨hopcode.symm, fun op hop het => ⟨fun huntyped => ?_, fun _ hfield => ?_⟩, decode_eq_nop_iff,
    decode_illegalField_of_opc_zero, fun c s q hrej => step_rejected hrej⟩
  · have hne : f.et ≠ 0 := fun h0 => by simp [reserved, h0] at het
    exact decode_illegalField_of_untyped hop huntyped hne
  · refine (decodeFields_illegalType_iff hop hfield).mpr ?_
    rw [Fields.admittedType, EType.ofCode_reserved het]

end Sys2Proof.Machine
end

section
/-!
SUPPORT. The twelve CVT commands when their lanes fit (R122, R126 to R137): each is the template with a scalar
conversion, and so leaves what the template leaves.
-/
namespace Sys2Proof.Machine

/-- Settles O29: the template of R122 on lanes of 1 or 2 bytes widened to 4 or 8. -/
theorem narrowDecodesComplete : Obligations.NarrowDecodesComplete := by
  intro s vd vs n
  refine ⟨fun h => ⟨?_, ?_, ?_⟩, fun h => ⟨?_, ?_, ?_⟩⟩
  · exact convert_ok (esS := 1) (esD := 4) _ vd vs n s (by decide) h
  · exact convert_ok (esS := 1) (esD := 4) _ vd vs n s (by decide) h
  · exact convert_ok (esS := 2) (esD := 4) _ vd vs n s (by decide) h
  · exact convert_ok (esS := 1) (esD := 8) _ vd vs n s (by decide) h
  · exact convert_ok (esS := 1) (esD := 8) _ vd vs n s (by decide) h
  · exact convert_ok (esS := 2) (esD := 8) _ vd vs n s (by decide) h

/-- Settles O30: the template of R122 on lanes of 4 or 8 bytes narrowed to 1 or 2. -/
theorem narrowEncodesComplete : Obligations.NarrowEncodesComplete := by
  intro s vd vs n
  refine ⟨fun h => ⟨?_, ?_, ?_⟩, fun h => ⟨?_, ?_, ?_⟩⟩
  · exact convert_ok (esS := 4) (esD := 1) _ vd vs n s (by decide) h
  · exact convert_ok (esS := 4) (esD := 1) _ vd vs n s (by decide) h
  · exact convert_ok (esS := 4) (esD := 2) _ vd vs n s (by decide) h
  · exact convert_ok (esS := 8) (esD := 1) _ vd vs n s (by decide) h
  · exact convert_ok (esS := 8) (esD := 1) _ vd vs n s (by decide) h
  · exact convert_ok (esS := 8) (esD := 2) _ vd vs n s (by decide) h

end Sys2Proof.Machine
end

section
/-!
SUPPORT. The conversions between f32 and f64 (R123, R124). A pattern is its sign and its magnitude; `classify` reads its
value off exactly, and the model's rounding of that value is `RNE` in the other format, which is the value itself where
the mantissa fits.
-/
namespace Sys2Proof.Machine

/-! ## Sign and magnitude of a pattern (R11) -/

section Pattern
variable {f : FloatFmt} {w : Nat}

theorem FloatFmt.magnitude_lt (f : FloatFmt) (x : BitVec w) : f.magnitude x < 2 ^ (f.E + f.M) :=
  Nat.mod_lt _ (Nat.two_pow_pos _)

theorem FloatFmt.toNat_div (hf : f.Fits w) (x : BitVec w) :
    x.toNat / 2 ^ (f.E + f.M) = if f.sign x then 1 else 0 := by
  have hx : x.toNat < 2 ^ (f.E + f.M) * 2 := by rw [← pow_succ, ← hf.width]; exact x.isLt
  have hdiv : x.toNat / 2 ^ (f.E + f.M) < 2 := Nat.div_lt_of_lt_mul hx
  rw [sign, BitVec.getLsbD, Nat.testBit_eq_decide_div_mod_eq, Nat.mod_eq_of_lt hdiv]
  interval_cases x.toNat / 2 ^ (f.E + f.M) <;> rfl

theorem FloatFmt.toNat_eq (hf : f.Fits w) (x : BitVec w) :
    x.toNat = (if f.sign x then 2 ^ (f.E + f.M) else 0) + f.magnitude x := by
  have hsplit := Nat.div_add_mod x.toNat (2 ^ (f.E + f.M))
  rw [toNat_div hf, mul_ite, mul_one, mul_zero] at hsplit
  exact hsplit.symm

theorem FloatFmt.signed_sign_magnitude (hf : f.Fits w) (x : BitVec w) :
    f.signed w (f.sign x) (f.magnitude x) = x :=
  BitVec.eq_of_toNat_eq <| (signed_toNat hf (f.magnitude_lt x) _).trans (toNat_eq hf x).symm

theorem FloatFmt.realValue_signed {n : Nat} (hf : f.Fits w) (hn : n < 2 ^ (f.E + f.M)) (neg : Bool) :
    f.realValue (f.signed w neg n) = signFactor neg * f.magnitudeValue n := by
  rw [realValue_eq, sign_signed hf hn, magnitude_signed hf hn]

theorem FloatFmt.abs_realValue (f : FloatFmt) (x : BitVec w) :
    |f.realValue x| = f.magnitudeValue (f.magnitude x) := by
  rw [realValue_eq, abs_mul, abs_of_nonneg (f.magnitudeValue_nonneg _)]
  cases f.sign x <;> simp [signFactor]

theorem FloatFmt.isFinite_signed {n : Nat} (hf : f.Fits w) (hn : n < f.infMagnitude) (neg : Bool) :
    f.isFinite (f.signed w neg n) = true := by
  rwa [isFinite_iff, magnitude_signed hf (hn.trans f.infMagnitude_lt)]

/-- A pattern of another format with the same sign, and a finite magnitude of the same value, is an exact conversion. -/
theorem FloatFmt.signed_exact {g : FloatFmt} {w' n : Nat} (hg : g.Fits w') {x : BitVec w} (hn : n < g.infMagnitude)
    (hval : g.magnitudeValue n = f.magnitudeValue (f.magnitude x)) :
    g.isFinite (g.signed w' (f.sign x) n) = true ∧ g.realValue (g.signed w' (f.sign x) n) = f.realValue x ∧
      g.sign (g.signed w' (f.sign x) n) = f.sign x := by
  have hlt := hn.trans g.infMagnitude_lt
  exact ⟨isFinite_signed hg hn _, by rw [realValue_signed hg hlt, hval, f.realValue_eq], sign_signed hg hlt _⟩

/-- The NaN patterns are those above the infinity. -/
theorem FloatFmt.isNaNPattern_iff (f : FloatFmt) (x : BitVec w) :
    f.isNaNPattern x = true ↔ f.infMagnitude < f.magnitude x := by
  have hsplit := Nat.div_add_mod' (f.magnitude x) (2 ^ f.M)
  have hmant : f.magnitude x % 2 ^ f.M < 2 ^ f.M := Nat.mod_lt _ (Nat.two_pow_pos _)
  have hle : f.magnitude x / 2 ^ f.M ≤ 2 ^ f.E - 1 := by
    rw [f.magnitude_div]; exact Nat.le_sub_one_of_lt (Nat.mod_lt _ (Nat.two_pow_pos _))
  rw [isNaNPattern, Bool.and_eq_true, Bool.not_eq_true', ← Bool.not_eq_true, isFinite_iff, not_lt, bne_iff_ne,
    ← f.magnitude_mod]
  constructor
  · rintro ⟨hinf, hne⟩
    refine lt_of_le_of_ne hinf fun heq => hne ?_
    rw [← heq, infMagnitude, Nat.mul_mod_left]
  · intro hinf
    refine ⟨hinf.le, fun hzero => ?_⟩
    rw [hzero, Nat.add_zero] at hsplit
    have := Nat.mul_le_mul_right (2 ^ f.M) hle
    rw [infMagnitude] at hinf
    omega

theorem FloatFmt.not_isNaNPattern_iff (f : FloatFmt) (x : BitVec w) :
    f.isNaNPattern x = false ↔ f.magnitude x ≤ f.infMagnitude := by
  rw [← Bool.not_eq_true, isNaNPattern_iff, not_lt]

theorem FloatFmt.not_isNaNPattern_of_isFinite {x : BitVec w} (h : f.isFinite x = true) :
    f.isNaNPattern x = false :=
  (f.not_isNaNPattern_iff x).mpr ((f.isFinite_iff x).mp h).le

end Pattern

/-! ## What `classify` answers -/

section Classify
variable {f : FloatFmt} {w : Nat}

theorem FloatFmt.classify_of_isNaNPattern {x : BitVec w} (h : f.isNaNPattern x = true) : f.classify x = .nan := by
  simp only [isNaNPattern, isFinite, Bool.and_eq_true, Bool.not_eq_true', bne_eq_false_iff_eq, bne_iff_ne] at h
  obtain ⟨hexp, hmant⟩ := h
  rw [classify, if_pos hexp, if_neg hmant]

theorem FloatFmt.classify_infinity (hf : f.Fits w) (neg : Bool) : f.classify (f.infinity w neg) = .inf neg := by
  have hmag : f.magnitude (f.infinity w neg) = f.infMagnitude := magnitude_signed hf f.infMagnitude_lt neg
  have hsign : (f.infinity w neg).getLsbD (f.E + f.M) = neg := sign_signed hf f.infMagnitude_lt neg
  simp only [classify, ← f.magnitude_div, ← f.magnitude_mod, hmag, hsign, infMagnitude,
    Nat.mul_div_left _ (Nat.two_pow_pos f.M), Nat.mul_mod_left, if_true]

theorem FloatFmt.classify_zero (hf : f.Fits w) (neg : Bool) :
    f.classify (f.zero w neg) = .finite neg 0 f.ulpMin := by
  have hmag : f.magnitude (f.zero w neg) = 0 := magnitude_signed hf (Nat.two_pow_pos _) neg
  have hsign : (f.zero w neg).getLsbD (f.E + f.M) = neg := sign_signed hf (Nat.two_pow_pos _) neg
  have hexp : 0 ≠ 2 ^ f.E - 1 := by
    have hE := hf.two_le_E
    have := Nat.one_lt_two_pow (n := f.E) (by omega)
    omega
  simp only [classify, ← f.magnitude_div, ← f.magnitude_mod, hmag, hsign, Nat.zero_div, Nat.zero_mod, if_neg hexp,
    if_true]

/-- A finite pattern's mantissa and exponent: the mantissa has one bit more than the field, the exponent is no lower
than the subnormals', and they denote the magnitude's value. -/
theorem FloatFmt.classify_of_isFinite {x : BitVec w} (h : f.isFinite x = true) :
    ∃ mant exp, f.classify x = .finite (f.sign x) mant exp ∧ mant < 2 ^ (f.M + 1) ∧ f.ulpMin ≤ exp ∧
      (mant : ℚ) * 2 ^ exp = f.magnitudeValue (f.magnitude x) := by
  have hexp : f.magnitude x / 2 ^ f.M ≠ 2 ^ f.E - 1 := by
    rwa [f.magnitude_div, ← bne_iff_ne]
  have hm : f.magnitude x % 2 ^ f.M < 2 ^ f.M := Nat.mod_lt _ (Nat.two_pow_pos _)
  have hsplit := Nat.div_add_mod' (f.magnitude x) (2 ^ f.M)
  simp only [classify, ← f.magnitude_div, ← f.magnitude_mod, if_neg hexp]
  generalize f.magnitude x % 2 ^ f.M = m at hm hsplit
  cases he : f.magnitude x / 2 ^ f.M with
  | zero =>
    rw [he, Nat.zero_mul, Nat.zero_add] at hsplit
    refine ⟨m, f.ulpMin, rfl, hm.trans (Nat.pow_lt_pow_succ one_lt_two), le_rfl, ?_⟩
    rw [magnitudeValue, ← hsplit, magnitudeUnits_subnormal hm]
  | succ e =>
    refine ⟨2 ^ f.M + m, f.ulpMin + e, by simp [sign], by rw [pow_succ]; omega, by omega, ?_⟩
    rw [magnitudeValue, ← hsplit, he, magnitudeUnits_normal f e hm, add_comm f.ulpMin, zpow_add₀ two_ne_zero,
      zpow_natCast]
    push_cast
    ring

end Classify

/-! ## Rounding a value the format holds -/

theorem FloatFmt.round_zero (f : FloatFmt) (w : Nat) (neg : Bool) (exp : Int) :
    f.round w neg 0 exp = f.zero w neg := rfl

section Exact
variable {f : FloatFmt} {w mant : Nat} {exp : Int} (hmant : mant < 2 ^ (f.M + 1)) (hexp : f.ulpMin ≤ exp)
include hmant hexp

/-- A mantissa that fits is rounded to its own value. -/
theorem FloatFmt.magnitudeValue_roundUnbounded (hpos : mant ≠ 0) :
    f.magnitudeValue (f.roundUnbounded mant exp) = mant * (2 : ℚ) ^ exp := by
  have hlog : mant.log2 < f.M + 1 := (Nat.log2_lt hpos).mpr hmant
  have hulp : f.roundUlp mant exp ≤ exp := max_le (by omega) hexp
  have hmin : f.ulpMin ≤ f.roundUlp mant exp := le_max_right _ _
  obtain ⟨d, hd⟩ := Int.le.dest hulp
  obtain ⟨k, hk⟩ := Int.le.dest hmin
  have hnear := f.roundQuotient_nearest mant exp
  have hbin : f.InBinade k (f.roundQuotient mant exp) := by
    refine ⟨?_, hnear.ge (f.lt_of_roundUlp mant exp).le⟩
    rcases eq_or_ne (f.roundUlp mant exp) f.ulpMin with heq | hne
    · exact .inl (by omega)
    · exact .inr (hnear.le (le_of_roundUlp hpos hne))
  rw [roundUnbounded_eq, show (f.roundUlp mant exp - f.ulpMin).toNat = k by omega, magnitudeValue_binade hbin,
    show (k : ℤ) + f.ulpMin = f.roundUlp mant exp by omega, roundQuotient, if_pos hulp,
    show (exp - f.roundUlp mant exp).toNat = d by omega]
  conv_rhs => rw [← hd, zpow_add₀ two_ne_zero, zpow_natCast]
  push_cast
  ring

/-- A value below the infinity whose mantissa fits is rounded to the finite pattern of that value. -/
theorem FloatFmt.round_exact (hf : f.Fits w) (neg : Bool) {v : ℚ} (hv : mant * (2 : ℚ) ^ exp = v)
    (hlt : v < f.magnitudeValue f.infMagnitude) :
    ∃ n < f.infMagnitude, f.round w neg mant exp = f.signed w neg n ∧ f.magnitudeValue n = v := by
  rcases eq_or_ne mant 0 with rfl | hpos
  · exact ⟨0, infMagnitude_pos hf.two_le_E, rfl, by simpa [f.magnitudeValue_zero] using hv⟩
  · have hval := (magnitudeValue_roundUnbounded hmant hexp hpos).trans hv
    have hfin : f.roundUnbounded mant exp < f.infMagnitude := f.magnitudeValue_strictMono.lt_iff_lt.mp (hval ▸ hlt)
    exact ⟨_, hfin, by rw [round, if_neg hpos, roundMagnitude, min_eq_left hfin.le], hval⟩

end Exact

/-- Read as a finite value, the magnitude of the infinity stands for 2^(bias + 1). -/
theorem FloatFmt.magnitudeValue_infMagnitude {f : FloatFmt} (hE : 2 ≤ f.E) :
    f.magnitudeValue f.infMagnitude = (2 : ℚ) ^ (f.bias + 1) := by
  obtain ⟨k, hk⟩ : ∃ k, 2 ^ f.E = k + 3 := Nat.exists_eq_add_of_le' (by
    have := Nat.pow_le_pow_right Nat.two_pos hE
    omega)
  have hexp : (f.M : ℤ) + ((k + 1 : ℕ) + f.ulpMin) = f.bias + 1 := by
    have hE' : (2 : ℤ) ^ f.E = 2 * 2 ^ (f.E - 1) := by rw [← pow_succ', Nat.sub_add_cancel (by omega)]
    have hk' : (2 : ℤ) ^ f.E = k + 3 := by exact_mod_cast hk
    rw [ulpMin, bias]; push_cast; omega
  have hsplit : f.infMagnitude = (k + 1) * 2 ^ f.M + 2 ^ f.M := by
    rw [infMagnitude, hk, show k + 3 - 1 = k + 1 + 1 by omega, Nat.succ_mul]
  rw [hsplit, magnitudeValue_binade ⟨.inr le_rfl, Nat.pow_le_pow_right Nat.two_pos (Nat.le_succ _)⟩, ← hexp,
    zpow_add₀ two_ne_zero (f.M : ℤ), zpow_natCast]
  push_cast
  rfl

/-! ## f32 to f64 (R124) -/

section F32ToF64
variable {c : Config} {x : BitVec 32}

theorem f32ToF64_of_nan (h : fmtF32.classify x = .nan) : f32ToF64 c x = c.nanF64 := by simp only [f32ToF64, h]

theorem f32ToF64_of_finite {neg : Bool} {m : Nat} {e : Int} (h : fmtF32.classify x = .finite neg m e) :
    f32ToF64 c x = fmtF64.round 64 neg m e := by simp only [f32ToF64, h]

theorem f32ToF64_infinity (c : Config) (neg : Bool) :
    f32ToF64 c (fmtF32.infinity 32 neg) = fmtF64.infinity 64 neg := by
  rw [f32ToF64, FloatFmt.classify_infinity fmtF32_fits]
  exact fmtF64.signed_infMagnitude 64 neg

end F32ToF64

/-- Every finite f32 magnitude lies below the infinity of f64. -/
theorem magnitudeValue_f32_lt_f64 {n : Nat} (h : n < fmtF32.infMagnitude) :
    fmtF32.magnitudeValue n < fmtF64.magnitudeValue fmtF64.infMagnitude :=
  calc fmtF32.magnitudeValue n < fmtF32.magnitudeValue fmtF32.infMagnitude := fmtF32.magnitudeValue_strictMono h
    _ = (2 : ℚ) ^ (fmtF32.bias + 1) := FloatFmt.magnitudeValue_infMagnitude (by decide)
    _ < (2 : ℚ) ^ (fmtF64.bias + 1) := zpow_lt_zpow_right₀ one_lt_two (by decide)
    _ = fmtF64.magnitudeValue fmtF64.infMagnitude := (FloatFmt.magnitudeValue_infMagnitude (by decide)).symm

/-- Settles O36: an f32 mantissa fits f64 and its exponent range lies inside that of f64. -/
theorem f32ToF64IsExact : Obligations.F32ToF64IsExact := by
  intro c x
  have hinf := f32ToF64_infinity c
  refine ⟨fun hnan => f32ToF64_of_nan (FloatFmt.classify_of_isNaNPattern hnan), ?_, ?_, fun hfin => ?_⟩
  · exact (congrArg _ (by decide)).trans ((hinf false).trans (by decide))
  · exact (congrArg _ (by decide)).trans ((hinf true).trans (by decide))
  · obtain ⟨mant, exp, hclass, hmant, hexp, hval⟩ := FloatFmt.classify_of_isFinite hfin
    have hlt := magnitudeValue_f32_lt_f64 ((fmtF32.isFinite_iff x).mp hfin)
    obtain ⟨n, hn, hround, hvalue⟩ := FloatFmt.round_exact (f := fmtF64) (hmant.trans_le (by decide))
      (le_trans (by decide) hexp) fmtF64_fits (fmtF32.sign x) hval hlt
    rw [(f32ToF64_of_finite hclass).trans hround]
    exact FloatFmt.signed_exact fmtF64_fits hn hvalue

/-! ## f64 to f32 (R123) -/

section F64ToF32
variable {c : Config} {d : BitVec 64}

theorem f64ToF32_of_nan (h : fmtF64.classify d = .nan) : f64ToF32 c d = c.nanF32 := by simp only [f64ToF32, h]

theorem f64ToF32_of_finite {neg : Bool} {m : Nat} {e : Int} (h : fmtF64.classify d = .finite neg m e) :
    f64ToF32 c d = fmtF32.round 32 neg m e := by simp only [f64ToF32, h]

theorem f64ToF32_infinity (c : Config) (neg : Bool) :
    f64ToF32 c (fmtF64.infinity 64 neg) = fmtF32.infinity 32 neg := by
  rw [f64ToF32, FloatFmt.classify_infinity fmtF64_fits]
  exact fmtF32.signed_infMagnitude 32 neg

end F64ToF32

/-- Settles O37: the value `classify` reads off a finite pattern is rounded to f32 by `RNE`. -/
theorem f64ToF32IsNearestEven : Obligations.F64ToF32IsNearestEven := by
  intro c d
  refine ⟨fun hnan => f64ToF32_of_nan (FloatFmt.classify_of_isNaNPattern hnan), f64ToF32_infinity c, fun neg => ?_,
    fun hfin => ?_, ?_⟩
  · rw [f64ToF32_of_finite (FloatFmt.classify_zero fmtF64_fits neg), FloatFmt.round_zero]
  · obtain ⟨mant, exp, hclass, -, -, hval⟩ := FloatFmt.classify_of_isFinite hfin
    rw [f64ToF32_of_finite hclass, fmtF64.realValue_eq, ← hval, ← mul_assoc]
    exact FloatFmt.round_roundsTo fmtF32_fits _ mant exp
  · norm_num [FloatFmt.overflowBound, FloatFmt.bias, fmtF32]

end Sys2Proof.Machine
end

section
/-!
SUPPORT. The bf16 codec (R118 to R121). bf16 is f32 with 16 mantissa bits fewer and the same exponent field: the decode
appends 16 zero bits to the magnitude, which keeps its value, and the encode's biased truncation rounds 16 bits off it,
which rounds the value to nearest, ties to even, in every binade.
-/
namespace Sys2Proof.Machine

/-! ## A longer mantissa under the same exponent field -/

/-- The format with `d` more mantissa bits and the same exponent field: f32 is `fmtBf16.widen 16`. -/
def FloatFmt.widen (f : FloatFmt) (d : Nat) : FloatFmt := ⟨f.E, f.M + d⟩

theorem FloatFmt.widen_ulpMin (f : FloatFmt) (d : Nat) : (f.widen d).ulpMin = f.ulpMin - d := by
  change 1 - f.bias - ((f.M + d : ℕ) : ℤ) = 1 - f.bias - f.M - d
  push_cast; ring

/-- `q` units of 2^a are `q / 2^s` units of 2^(a + s). -/
theorem mul_zpow_eq_div (q : ℚ) {s : ℕ} {a b : ℤ} (h : a + s = b) : q * (2 : ℚ) ^ a = q / 2 ^ s * (2 : ℚ) ^ b := by
  rw [← h, zpow_add₀ two_ne_zero, zpow_natCast]
  field_simp

/-- A magnitude of the shorter format with zeros for the `d` further bits has the value it had. -/
theorem FloatFmt.widen_magnitudeValue (f : FloatFmt) (d n : Nat) :
    (f.widen d).magnitudeValue (n * 2 ^ d) = f.magnitudeValue n := by
  obtain ⟨k, q, rfl, ⟨hlo, hhi⟩, -⟩ := f.exists_binade n
  have hbin : (f.widen d).InBinade k (q * 2 ^ d) := by
    refine ⟨hlo.imp_right fun h => ?_, ?_⟩
    · exact (pow_add 2 f.M d).trans_le (Nat.mul_le_mul_right _ h)
    · refine (Nat.mul_le_mul_right _ hhi).trans_eq ?_
      rw [← pow_add, Nat.add_right_comm]
      rfl
  have hsplit : (k * 2 ^ f.M + q) * 2 ^ d = k * 2 ^ (f.widen d).M + q * 2 ^ d := by
    rw [Nat.add_mul, Nat.mul_assoc, ← pow_add]
    rfl
  rw [hsplit, magnitudeValue_binade hbin, magnitudeValue_binade ⟨hlo, hhi⟩,
    mul_zpow_eq_div _ (s := d) (b := k + f.ulpMin) (by rw [widen_ulpMin]; ring)]
  push_cast
  rw [mul_div_cancel_right₀ _ (by positivity)]

/-- An even multiple of the rounding unit passes through the rounding. -/
theorem roundShift_add {a : Nat} (ha : Even a) (q k : Nat) : roundShift (a * 2 ^ k + q) k = a + roundShift q k := by
  have hdiv : (a * 2 ^ k + q) / 2 ^ k = a + q / 2 ^ k := by
    rw [Nat.mul_comm, Nat.mul_add_div (Nat.two_pow_pos k)]
  have hmod : (a * 2 ^ k + q) % 2 ^ k = q % 2 ^ k := by rw [Nat.mul_comm, Nat.mul_add_mod]
  have hparity : (a + q / 2 ^ k) % 2 = q / 2 ^ k % 2 := by rw [Nat.even_iff] at ha; omega
  simp only [roundShift, hdiv, hmod, hparity]
  split <;> omega

/-- Rounding `d` bits of the magnitude off rounds the value to nearest, ties to even, in the shorter format. -/
theorem FloatFmt.widen_nearest {f : FloatFmt} (hM : 1 ≤ f.M) (d n : Nat) :
    f.NearestMagnitude (roundShift n d) ((f.widen d).magnitudeValue n) := by
  obtain ⟨k, q, hn, ⟨hlo, hhi⟩, hlt⟩ := (f.widen d).exists_binade n
  have hd : (0 : ℚ) < 2 ^ d := by positivity
  have hround : roundShift n d = k * 2 ^ f.M + roundShift q d := by
    rw [hn, ← roundShift_add ((Nat.even_pow.mpr ⟨even_two, by omega⟩).mul_left k), Nat.mul_assoc, ← pow_add]
    rfl
  rw [hn, magnitudeValue_binade ⟨hlo, hhi⟩, ← hn, hround,
    mul_zpow_eq_div _ (s := d) (b := k + f.ulpMin) (by rw [widen_ulpMin]; ring)]
  refine nearestMagnitude_of_binade hM (roundShift_nearest q d) (hlo.imp_right fun h => ?_) ?_
  · rw [le_div_iff₀ hd]
    exact_mod_cast (pow_add 2 f.M d).symm.trans_le h
  · have hpow : 2 ^ ((f.widen d).M + 1) = 2 ^ (f.M + 1) * 2 ^ d := by
      rw [← pow_add, Nat.add_right_comm]
      rfl
    rw [div_lt_iff₀ hd]
    exact_mod_cast hlt.trans_eq hpow

/-! ## The decode (R118) -/

/-- The NaN test of R118 and R120 on the fields cut out of the word. -/
theorem FloatFmt.isNaNPattern_iff_fields (f : FloatFmt) {w : Nat} (x : BitVec w) : f.isNaNPattern x = true ↔
    x.extractLsb' f.M f.E = BitVec.allOnes f.E ∧ x.extractLsb' 0 f.M ≠ 0 := by
  rw [ne_eq, ← BitVec.toNat_inj, ← BitVec.toNat_inj, BitVec.extractLsb'_toNat, BitVec.extractLsb'_toNat,
    BitVec.toNat_allOnes, Nat.shiftRight_eq_div_pow]
  simp [isNaNPattern, isFinite]

section DecBf16
variable {c : Config} {h : BitVec 16}

theorem decBf16_of_nan (hnan : fmtBf16.isNaNPattern h = true) : decBf16 c h = c.nanF32 :=
  if_pos ((fmtBf16.isNaNPattern_iff_fields h).mp hnan)

theorem decBf16_of_not_nan (hnan : fmtBf16.isNaNPattern h = false) :
    decBf16 c h = fmtF32.signed 32 (fmtBf16.sign h) (fmtBf16.magnitude h * 2 ^ 16) := by
  have hlt : fmtBf16.magnitude h < 2 ^ 15 := fmtBf16.magnitude_lt h
  have hh : h.toNat = (if fmtBf16.sign h then 2 ^ 15 else 0) + fmtBf16.magnitude h :=
    FloatFmt.toNat_eq fmtBf16_fits h
  refine (if_neg (mt (fmtBf16.isNaNPattern_iff_fields h).mpr (by simp [hnan]))).trans ?_
  apply BitVec.eq_of_toNat_eq
  rw [FloatFmt.signed_toNat fmtF32_fits (show _ < 2 ^ 31 by omega), BitVec.toNat_append, BitVec.toNat_zero, Nat.or_zero,
    Nat.shiftLeft_eq, hh]
  cases fmtBf16.sign h with
  | false => simp
  | true => simp [fmtF32]; omega

/-- A zero exponent field stays zero: subnormals become subnormals. -/
theorem decBf16_subnormal (hsub : h.toNat / 2 ^ 7 % 2 ^ 8 = 0) : (decBf16 c h).toNat / 2 ^ 23 % 2 ^ 8 = 0 := by
  have hfin : fmtBf16.isFinite h = true := by rw [FloatFmt.isFinite, fmtBf16, hsub]; rfl
  have hmag : fmtBf16.magnitude h / 2 ^ 7 = 0 := (fmtBf16.magnitude_div h).trans hsub
  refine (fmtF32.magnitude_div _).symm.trans ?_
  rw [decBf16_of_not_nan (FloatFmt.not_isNaNPattern_of_isFinite hfin),
    FloatFmt.magnitude_signed fmtF32_fits (show _ < 2 ^ 31 by omega)]
  change _ / 2 ^ 23 = 0
  omega

end DecBf16

/-- Settles O34: the magnitude with 16 zero bits appended has the value it had. -/
theorem bf16DecodeIsExact : Obligations.Bf16DecodeIsExact := by
  intro c h
  refine ⟨fun hfin => ?_, decBf16_subnormal, rfl, fun neg => ?_, fun neg => ?_, decBf16_of_nan⟩
  · have hmag : fmtBf16.magnitude h < 0x7F80 := (fmtBf16.isFinite_iff h).mp hfin
    rw [decBf16_of_not_nan (FloatFmt.not_isNaNPattern_of_isFinite hfin)]
    exact FloatFmt.signed_exact fmtF32_fits (show _ < 0x7F800000 by omega) (fmtBf16.widen_magnitudeValue 16 _)
  · cases neg <;> rfl
  · cases neg <;> rfl

/-! ## The encode (R120) -/

/-- The bias of R120, half a unit less one and the unit's parity, makes the truncation a rounding to nearest even. -/
theorem roundShift_eq_bias (n : Nat) : roundShift n 16 = (n + 0x7FFF + n / 2 ^ 16 % 2) / 2 ^ 16 := by
  rw [roundShift]
  split <;> omega

section EncBf16
variable {c : Config} {x : BitVec 32}

theorem encBf16_of_nan (hnan : fmtF32.isNaNPattern x = true) : encBf16 c x = c.nanBf16 :=
  if_pos ((fmtF32.isNaNPattern_iff_fields x).mp hnan)

variable (hnan : fmtF32.isNaNPattern x = false)
include hnan

theorem encBf16_no_wrap : x.toNat + 0x7FFF + x.toNat / 2 ^ 16 % 2 < 2 ^ 32 := by
  have hmag : fmtF32.magnitude x ≤ 0x7F800000 := (fmtF32.not_isNaNPattern_iff x).mp hnan
  have hx : x.toNat = (if fmtF32.sign x then 2 ^ 31 else 0) + fmtF32.magnitude x := FloatFmt.toNat_eq fmtF32_fits x
  split at hx <;> omega

theorem encBf16_of_not_nan :
    encBf16 c x = fmtBf16.signed 16 (fmtF32.sign x) (roundShift (fmtF32.magnitude x) 16) := by
  have hmag : fmtF32.magnitude x ≤ 0x7F800000 := (fmtF32.not_isNaNPattern_iff x).mp hnan
  have hx : x.toNat = (if fmtF32.sign x then 2 ^ 31 else 0) + fmtF32.magnitude x := FloatFmt.toNat_eq fmtF32_fits x
  have hwrap := encBf16_no_wrap hnan
  have hlsb : ((x >>> 16) &&& 1).toNat = x.toNat / 2 ^ 16 % 2 := by
    rw [BitVec.toNat_and, BitVec.toNat_ushiftRight, Nat.shiftRight_eq_div_pow]
    exact Nat.and_one_is_mod _
  have hparity : x.toNat / 2 ^ 16 % 2 = fmtF32.magnitude x / 2 ^ 16 % 2 := by split at hx <;> omega
  refine (if_neg (mt (fmtF32.isNaNPattern_iff_fields x).mpr (by simp [hnan]))).trans ?_
  rw [roundShift_eq_bias]
  apply BitVec.eq_of_toNat_eq
  rw [FloatFmt.signed_toNat fmtBf16_fits (show _ < 2 ^ 15 by omega), BitVec.extractLsb'_toNat, BitVec.toNat_add,
    BitVec.toNat_add, hlsb, Nat.shiftRight_eq_div_pow]
  change ((x.toNat + 0x7FFF) % 2 ^ 32 + _) % 2 ^ 32 / 2 ^ 16 % 2 ^ 16 = (if _ then 32768 else 0) + _
  rw [Nat.mod_eq_of_lt (a := x.toNat + 0x7FFF) (by omega), Nat.mod_eq_of_lt hwrap, hparity]
  cases hsign : fmtF32.sign x <;> simp only [hsign, Bool.false_eq_true, if_true, if_false] at hx ⊢ <;> omega

end EncBf16

/-- Settles O35: the encode rounds 16 bits of the magnitude off, to nearest even, and never beyond the infinity. -/
theorem bf16EncodeIsNearestEven : Obligations.Bf16EncodeIsNearestEven := by
  intro c x
  refine ⟨fun hfin => ?_, fun neg => ?_, fun neg => ?_, encBf16_no_wrap, encBf16_of_nan⟩
  · have hmag : fmtF32.magnitude x < 0x7F800000 := (fmtF32.isFinite_iff x).mp hfin
    have hle : roundShift (fmtF32.magnitude x) 16 ≤ fmtBf16.infMagnitude := by
      rw [roundShift_eq_bias]
      change _ ≤ 0x7F80
      omega
    have hround := (FloatFmt.widen_nearest (f := fmtBf16) (by decide) 16 (fmtF32.magnitude x)).roundsTo fmtBf16_fits
      (fmtF32.magnitudeValue_nonneg _) (fmtF32.sign x)
    rw [min_eq_left hle] at hround
    rw [encBf16_of_not_nan (FloatFmt.not_isNaNPattern_of_isFinite hfin), fmtF32.realValue_eq]
    exact hround
  · cases neg <;> rfl
  · cases neg <;> rfl

end Sys2Proof.Machine
end

section
/-!
SUPPORT. The 8-bit decode (R110, R111). In f32 a nonzero finite 8-bit value has a significand of MW + 1 bits with its
leading bit set, followed by zeros: for a normal pattern its own, for a subnormal one the shifted one case 4's loop
leaves. Both give an f32 magnitude of the same value, which is never a subnormal's.
-/
namespace Sys2Proof.Machine

/-! ## The parameters of the formats (R103) -/

namespace Fmt8
variable (F : Fmt8)

/-- How far the exponent bias of f32 lies above that of the format. -/
def rebias : Nat := 127 - F.bias

theorem fits : F.fmt.Fits 8 := by cases F <;> exact ⟨by decide, by decide, rfl⟩

theorem fmt_M : F.fmt.M = F.mw := by cases F <;> rfl

theorem fmt_E : F.fmt.E = 7 - F.mw := by cases F <;> rfl

theorem two_pow_eq : 2 ^ (F.fmt.E + F.fmt.M) = 128 := by cases F <;> rfl

theorem mw_le : F.mw ≤ 3 := by cases F <;> decide

theorem two_pow_mw_mul : 2 ^ F.mw * 2 ^ (23 - F.mw) = 2 ^ 23 := by cases F <;> rfl

theorem maxFin_lt : F.maxFin < 2 ^ (F.fmt.E + F.fmt.M) := by cases F <;> decide

theorem rebias_bounds : 112 ≤ F.rebias ∧ F.rebias ≤ 120 := by cases F <;> decide

theorem bias_eq : (F.bias : ℤ) = 127 - F.rebias := by cases F <;> rfl

theorem emin_eq : F.emin = F.rebias - 126 := by cases F <;> rfl

theorem ulpMin_eq : F.fmt.ulpMin = F.rebias + (23 - F.mw : ℕ) + fmtF32.ulpMin := by cases F <;> decide

/-- The finite patterns are those up to the largest one. -/
theorem isFinite_iff (b : BitVec 8) : F.isFinite b = true ↔ F.fmt.magnitude b ≤ F.maxFin := by
  rw [FloatFmt.magnitude, F.two_pow_eq]
  cases F <;> simp only [isFinite, maxFin, bne_iff_ne] <;> omega

/-! ## The fields of a pattern (R110) -/

theorem exponentField (b : BitVec 8) :
    b.toNat / 2 ^ F.mw % 2 ^ (7 - F.mw) = F.fmt.magnitude b / 2 ^ F.mw := by
  rw [← F.fmt_E, ← F.fmt_M, F.fmt.magnitude_div]

theorem mantissaField (b : BitVec 8) : b.toNat % 2 ^ F.mw = F.fmt.magnitude b % 2 ^ F.mw := by
  rw [← F.fmt_M, F.fmt.magnitude_mod]

theorem signField (b : BitVec 8) : b.toNat / 128 * 2 ^ 31 = if F.fmt.sign b then 2 ^ 31 else 0 := by
  rw [← F.two_pow_eq, FloatFmt.toNat_div F.fits]
  split <;> rfl

/-- A value with a significand of MW + 1 bits, in f32. -/
theorem magnitudeValue_f32 {k p : Nat} (hlo : 2 ^ F.mw ≤ p) (hhi : p < 2 ^ (F.mw + 1)) :
    fmtF32.magnitudeValue (k * 2 ^ 23 + p * 2 ^ (23 - F.mw)) = p * (2 : ℚ) ^ (k - F.rebias + F.fmt.ulpMin) := by
  have hbin : fmtF32.InBinade k (p * 2 ^ (23 - F.mw)) := by
    have h1 := Nat.mul_le_mul_right (2 ^ (23 - F.mw)) hlo
    have h2 := Nat.mul_le_mul_right (2 ^ (23 - F.mw)) hhi.le
    rw [two_pow_mw_mul] at h1
    rw [pow_succ', Nat.mul_assoc, two_pow_mw_mul] at h2
    exact ⟨.inr h1, h2⟩
  refine (FloatFmt.magnitudeValue_binade hbin).trans ?_
  rw [F.ulpMin_eq]
  push_cast
  rw [mul_assoc, ← zpow_natCast, ← zpow_add₀ two_ne_zero]
  congr 2
  ring

/-- The fields of an f32 pattern put together, as R110 does. -/
theorem f32_ofFields {E m : Nat} (neg : Bool) (hE : E < 256) (hm : m < 2 ^ F.mw) :
    BitVec.ofNat 32 ((if neg then 2 ^ 31 else 0) ||| E <<< 23 ||| m <<< (23 - F.mw)) =
      fmtF32.signed 32 neg (E * 2 ^ 23 + m * 2 ^ (23 - F.mw)) := by
  have hlow : m * 2 ^ (23 - F.mw) < 2 ^ 23 :=
    F.two_pow_mw_mul ▸ Nat.mul_lt_mul_of_pos_right hm (Nat.two_pow_pos _)
  have hlt : E * 2 ^ 23 + m * 2 ^ (23 - F.mw) < 2 ^ 31 := by omega
  rw [Nat.or_assoc, Nat.shiftLeft_eq m, ← Nat.shiftLeft_add_eq_or_of_lt hlow, Nat.shiftLeft_eq]
  cases neg with
  | false => rw [FloatFmt.signed]; simp
  | true => exact congrArg _ (Nat.two_pow_add_eq_or_of_lt (i := 31) hlt 1).symm

/-- The leading bit of a significand counts once more in the exponent field. -/
theorem significand_eq (k m : Nat) :
    (k + 1) * 2 ^ 23 + m * 2 ^ (23 - F.mw) = k * 2 ^ 23 + (2 ^ F.mw + m) * 2 ^ (23 - F.mw) := by
  rw [Nat.add_mul (2 ^ F.mw), two_pow_mw_mul]
  ring

end Fmt8

/-! ## The fields of an f32 pattern -/

theorem f32_exponentField (x : BitVec 32) : x.toNat / 2 ^ 23 % 256 = fmtF32.magnitude x / 2 ^ 23 :=
  (fmtF32.magnitude_div x).symm

theorem f32_mantissaField (x : BitVec 32) : x.toNat % 2 ^ 23 = fmtF32.magnitude x % 2 ^ 23 :=
  (fmtF32.magnitude_mod x).symm

/-! ## Case 4's loop (R110) -/

/-- The loop keeps the value m * 2^e and ends with bit `mw` the leading one, when the fuel is enough for the shifts. -/
theorem normalize_spec {mw : Nat} : ∀ {fuel m e : Nat}, m < 2 ^ (mw + 1) → 2 ^ mw ≤ m * 2 ^ fuel → fuel ≤ e →
    2 ^ mw ≤ (normalize mw fuel m e).1 ∧ (normalize mw fuel m e).1 < 2 ^ (mw + 1) ∧
      (normalize mw fuel m e).1 * 2 ^ (normalize mw fuel m e).2 = m * 2 ^ e ∧
      e - fuel ≤ (normalize mw fuel m e).2 ∧ (normalize mw fuel m e).2 ≤ e
  | 0, m, e, hm, hfuel, _ => ⟨hfuel.trans_eq (Nat.mul_one m), hm, rfl, le_rfl, le_rfl⟩
  | fuel + 1, m, e, hm, hfuel, he => by
    have hbit : m.testBit mw = true ↔ 2 ^ mw ≤ m :=
      ⟨Nat.ge_two_pow_of_testBit, fun h => Nat.testBit_of_two_pow_le_and_two_pow_add_one_gt h hm⟩
    rw [normalize]
    split
    case isTrue h => exact ⟨hbit.mp h, hm, rfl, Nat.sub_le _ _, le_rfl⟩
    case isFalse h =>
      have hlow : m < 2 ^ mw := not_le.mp (mt hbit.mpr h)
      have hshift : m <<< 1 = m * 2 := Nat.shiftLeft_eq m 1
      obtain ⟨e, rfl⟩ := Nat.exists_eq_add_of_le' (show 1 ≤ e by omega)
      obtain ⟨hlead, htop, hval, hmin, hmax⟩ := normalize_spec (mw := mw) (fuel := fuel) (m := m <<< 1) (e := e)
        (by rw [pow_succ]; omega) (by rwa [hshift, Nat.mul_assoc, ← pow_succ']) (by omega)
      refine ⟨hlead, htop, hval.trans ?_, by simpa using hmin, hmax.trans (Nat.le_succ e)⟩
      rw [hshift, Nat.mul_assoc, ← pow_succ']

/-! ## The cases of the decode (R110) -/

section Decode
variable {c : Config} {F : Fmt8} {b : BitVec 8} {E m : Nat} (hE : F.fmt.magnitude b / 2 ^ F.mw = E)
  (hm : F.fmt.magnitude b % 2 ^ F.mw = m)
include hE hm

theorem dec8_zero (hsub : E = 0) (hzero : m = 0) : dec8 c F b = fmtF32.signed 32 (F.fmt.sign b) 0 := by
  simp only [dec8, F.exponentField, F.mantissaField, F.signField, hE, hm]
  rw [if_neg (by omega), if_neg (by omega), if_pos ⟨hsub, hzero⟩]
  rfl

theorem dec8_normal (hfin : F.isFinite b = true) (hpos : E ≠ 0) :
    E < 32 ∧ dec8 c F b = fmtF32.signed 32 (F.fmt.sign b) ((E + F.rebias) * 2 ^ 23 + m * 2 ^ (23 - F.mw)) := by
  rw [F.isFinite_iff] at hfin
  have hlt : m < 2 ^ F.mw := hm ▸ Nat.mod_lt _ (Nat.two_pow_pos _)
  have hnan : ¬(F = .e4m3 ∧ E = 15 ∧ m = 7) := by
    rintro ⟨rfl, rfl, rfl⟩
    simp only [Fmt8.mw, Fmt8.maxFin] at hE hm hfin
    omega
  have hrange : F = .e4m3 ∨ E < 31 := by
    cases F
    · exact .inl rfl
    · simp only [Fmt8.mw, Fmt8.maxFin] at hE hfin
      omega
  have hE32 : E < 32 := by
    cases F <;> simp only [Fmt8.mw, Fmt8.maxFin] at hE hfin <;> omega
  have hb := F.rebias_bounds
  have hfield : E + 127 - F.bias = E + F.rebias := by cases F <;> rfl
  simp only [dec8, F.exponentField, F.mantissaField, F.signField, hE, hm, hfield]
  rw [if_neg hnan, if_pos ⟨hpos, hrange⟩, F.f32_ofFields _ (by omega) hlt]
  exact ⟨hE32, rfl⟩

theorem dec8_subnormal (hsub : E = 0) (hpos : m ≠ 0) : ∃ k p, 2 ^ F.mw ≤ p ∧ p < 2 ^ (F.mw + 1) ∧ k ≤ F.rebias ∧
    p * 2 ^ k = m * 2 ^ F.rebias ∧
    dec8 c F b = fmtF32.signed 32 (F.fmt.sign b) (k * 2 ^ 23 + p * 2 ^ (23 - F.mw)) := by
  have hlt : m < 2 ^ F.mw := hm ▸ Nat.mod_lt _ (Nat.two_pow_pos _)
  have hb := F.rebias_bounds
  have hmw := F.mw_le
  have hfield : 127 - F.bias = F.rebias := rfl
  have hspec := normalize_spec (mw := F.mw) (fuel := F.mw) (e := F.rebias + 1)
    (hlt.trans_le (Nat.pow_le_pow_right Nat.two_pos (Nat.le_succ _)))
    (Nat.le_mul_of_pos_left _ (Nat.pos_of_ne_zero hpos)) (by omega)
  simp only [dec8, F.exponentField, F.mantissaField, F.signField, hE, hm, hfield]
  rw [if_neg (by omega), if_neg (by omega), if_neg (by omega), if_pos hsub]
  generalize normalize F.mw F.mw m (F.rebias + 1) = r at hspec ⊢
  obtain ⟨p, e⟩ := r
  obtain ⟨hlo, hhi, hval, hmin, hmax⟩ := hspec
  dsimp only at *
  obtain ⟨k, rfl⟩ := Nat.exists_eq_add_of_le' (show 1 ≤ e by omega)
  obtain ⟨q, rfl⟩ := Nat.exists_eq_add_of_le hlo
  have hq : q < 2 ^ F.mw := by rw [pow_succ] at hhi; omega
  refine ⟨k, 2 ^ F.mw + q, hlo, hhi, Nat.le_of_succ_le_succ hmax, ?_, ?_⟩
  · rw [pow_succ, pow_succ, ← Nat.mul_assoc, ← Nat.mul_assoc] at hval
    exact Nat.eq_of_mul_eq_mul_right Nat.two_pos hval
  · rw [Nat.add_mod_left, Nat.mod_eq_of_lt hq, F.f32_ofFields _ (by omega) hq, F.significand_eq]

end Decode

/-! ## The finite patterns (R111) -/

section Finite
variable (c : Config) {F : Fmt8} {b : BitVec 8} (hfin : F.isFinite b = true)
include hfin

/-- A nonzero finite pattern decodes to a significand of MW + 1 bits and the exponent field that gives it the value. -/
theorem dec8_significand (hpos : F.fmt.magnitude b ≠ 0) : ∃ k p : Nat, 2 ^ F.mw ≤ p ∧ p < 2 ^ (F.mw + 1) ∧ k < 254 ∧
    F.fmt.magnitudeValue (F.fmt.magnitude b) = p * (2 : ℚ) ^ (k - F.rebias + F.fmt.ulpMin) ∧
    dec8 c F b = fmtF32.signed 32 (F.fmt.sign b) (k * 2 ^ 23 + p * 2 ^ (23 - F.mw)) := by
  have hsplit := Nat.div_add_mod' (F.fmt.magnitude b) (2 ^ F.mw)
  have hm : F.fmt.magnitude b % 2 ^ F.mw < 2 ^ F.mw := Nat.mod_lt _ (Nat.two_pow_pos _)
  have hM := F.fmt_M
  have hb := F.rebias_bounds
  cases hE : F.fmt.magnitude b / 2 ^ F.mw with
  | zero =>
    rw [hE, Nat.zero_mul, Nat.zero_add] at hsplit
    obtain ⟨k, p, hlo, hhi, hk, hval, hdec⟩ := dec8_subnormal (c := c) hE hsplit rfl hpos
    refine ⟨k, p, hlo, hhi, by omega, ?_, hdec⟩
    have hval' : (p : ℚ) * 2 ^ k = F.fmt.magnitude b * 2 ^ F.rebias := by exact_mod_cast hval
    rw [FloatFmt.magnitudeValue, FloatFmt.magnitudeUnits_subnormal (hM ▸ hsplit ▸ hm), zpow_add₀ two_ne_zero,
      zpow_sub₀ two_ne_zero, zpow_natCast, zpow_natCast, ← mul_assoc, mul_div_assoc', hval',
      mul_div_cancel_right₀ _ (by positivity)]
  | succ e =>
    rw [hE] at hsplit
    obtain ⟨he, hdec⟩ := dec8_normal (c := c) hE rfl hfin (Nat.succ_ne_zero e)
    generalize F.fmt.magnitude b % 2 ^ F.mw = m at hm hsplit hdec
    have hbin : F.fmt.InBinade e (2 ^ F.mw + m) := ⟨.inr (by rw [hM]; omega), by rw [hM, pow_succ]; omega⟩
    refine ⟨e + F.rebias, 2 ^ F.mw + m, Nat.le_add_right _ _, by rw [pow_succ]; omega, by omega, ?_, ?_⟩
    · rw [Nat.cast_add e, add_sub_cancel_right, ← FloatFmt.magnitudeValue_binade hbin, hM, ← hsplit]
      congr 1
      ring
    · rw [hdec, Nat.add_right_comm, F.significand_eq]

theorem dec8_of_isFinite : ∃ n < fmtF32.infMagnitude, (n = 0 ∨ 2 ^ 23 ≤ n) ∧
    fmtF32.magnitudeValue n = F.fmt.magnitudeValue (F.fmt.magnitude b) ∧
    dec8 c F b = fmtF32.signed 32 (F.fmt.sign b) n := by
  have hinf : fmtF32.infMagnitude = 0x7F800000 := rfl
  rcases eq_or_ne (F.fmt.magnitude b) 0 with hzero | hpos
  · refine ⟨0, by rw [hinf]; omega, .inl rfl, ?_, dec8_zero (E := 0) (m := 0) ?_ ?_ rfl rfl⟩
    · rw [hzero, FloatFmt.magnitudeValue_zero, FloatFmt.magnitudeValue_zero]
    · rw [hzero, Nat.zero_div]
    · rw [hzero, Nat.zero_mod]
  · obtain ⟨k, p, hlo, hhi, hk, hval, hdec⟩ := dec8_significand c hfin hpos
    have hmin := Nat.mul_le_mul_right (2 ^ (23 - F.mw)) hlo
    have hmax := Nat.mul_lt_mul_of_pos_right hhi (Nat.two_pow_pos (23 - F.mw))
    rw [F.two_pow_mw_mul] at hmin
    rw [pow_succ', Nat.mul_assoc, F.two_pow_mw_mul] at hmax
    exact ⟨_, by rw [hinf]; omega, .inr (by omega), (F.magnitudeValue_f32 hlo hhi).trans hval.symm, hdec⟩

theorem dec8_exact : fmtF32.isFinite (dec8 c F b) = true ∧ fmtF32.realValue (dec8 c F b) = F.fmt.realValue b ∧
    fmtF32.sign (dec8 c F b) = F.fmt.sign b := by
  obtain ⟨n, hn, -, hval, hdec⟩ := dec8_of_isFinite c hfin
  rw [hdec]
  exact FloatFmt.signed_exact fmtF32_fits hn hval

end Finite

/-- The smallest magnitude is one unit of the subnormals. -/
theorem Fmt8.realValue_least (F : Fmt8) : F.fmt.realValue (0x01 : BitVec 8) = (2 : ℚ) ^ F.fmt.ulpMin := by
  have hone : (0x01 : BitVec 8) = F.fmt.signed 8 false 1 := by cases F <;> rfl
  have hsub : 1 < 2 ^ F.fmt.M := Nat.one_lt_two_pow (Nat.one_le_iff_ne_zero.mp F.fits.one_le_M)
  rw [hone, FloatFmt.realValue_signed F.fits (by rw [F.two_pow_eq]; decide), FloatFmt.magnitudeValue,
    FloatFmt.magnitudeUnits_subnormal hsub]
  simp [signFactor]

theorem dec8_least (c : Config) {F : Fmt8} (hfin : F.isFinite 0x01 = true) :
    fmtF32.realValue (dec8 c F 0x01) = (2 : ℚ) ^ F.fmt.ulpMin := by
  obtain ⟨-, hval, -⟩ := dec8_exact c hfin
  rw [hval, F.realValue_least]

/-! ## The other patterns (R110, R111) -/

theorem dec8_infinity (c : Config) (neg : Bool) :
    dec8 c .e5m2 (fmtE5m2.infinity 8 neg) = fmtF32.infinity 32 neg := by
  cases neg <;> rfl

theorem eq_infinity_of_not_isFinite {b : BitVec 8} (hfin : Fmt8.isFinite .e5m2 b = false) (hmant : b.toNat % 4 = 0) :
    ∃ neg, b = fmtE5m2.infinity 8 neg := by
  have hexp : b.toNat / 4 % 32 = 31 := by simpa [Fmt8.isFinite] using hfin
  have hcases : b.toNat = 0x7C ∨ b.toNat = 0xFC := by omega
  rcases hcases with h | h
  · exact ⟨false, BitVec.eq_of_toNat_eq h⟩
  · exact ⟨true, BitVec.eq_of_toNat_eq h⟩

theorem dec8_nan (c : Config) {F : Fmt8} {b : BitVec 8} (hfin : F.isFinite b = false)
    (hinf : ¬(F = .e5m2 ∧ b.toNat % 4 = 0)) : dec8 c F b = c.nanF32 := by
  rw [← Bool.not_eq_true, F.isFinite_iff, not_le] at hfin
  have hlt := F.fmt.magnitude_lt b
  rw [F.two_pow_eq] at hlt
  cases F with
  | e4m3 =>
    have hfields : Fmt8.e4m3.fmt.magnitude b / 2 ^ Fmt8.e4m3.mw = 15 ∧
        Fmt8.e4m3.fmt.magnitude b % 2 ^ Fmt8.e4m3.mw = 7 := by
      simp only [Fmt8.maxFin, Fmt8.mw] at hfin ⊢
      omega
    simp only [dec8, Fmt8.exponentField, Fmt8.mantissaField]
    exact if_pos ⟨trivial, hfields⟩
  | e5m2 =>
    have hexp : Fmt8.e5m2.fmt.magnitude b / 2 ^ Fmt8.e5m2.mw = 31 := by
      simp only [Fmt8.maxFin, Fmt8.mw] at hfin ⊢
      omega
    have hmant : Fmt8.e5m2.fmt.magnitude b % 2 ^ Fmt8.e5m2.mw ≠ 0 :=
      fun h => hinf ⟨rfl, (Fmt8.mantissaField .e5m2 b).trans h⟩
    simp only [dec8, Fmt8.exponentField, Fmt8.mantissaField, hexp]
    rw [if_neg (by simp), if_neg (by simp), if_neg (by simp), if_neg (by simp), if_neg hmant]

theorem nanF32_exponentField (c : Config) : c.nanF32.toNat / 2 ^ 23 % 2 ^ 8 = 255 := by
  have hlow : c.nanF32Low.toNat < 2 ^ 22 := c.nanF32Low.isLt
  have hquiet : (1#1).toNat < 2 ^ 1 := by decide
  have hexp : (0xFF#8).toNat < 2 ^ 8 := by decide
  simp only [Config.nanF32, BitVec.toNat_append]
  rw [← Nat.shiftLeft_add_eq_or_of_lt hlow, ← Nat.shiftLeft_add_eq_or_of_lt hquiet,
    ← Nat.shiftLeft_add_eq_or_of_lt hexp]
  simp only [Nat.shiftLeft_eq]
  change (((_ * 2 ^ 8 + 255) * 2 ^ 1 + 1) * 2 ^ 22 + _) / 2 ^ 23 % 2 ^ 8 = 255
  omega

theorem dec8_not_subnormal {c : Config} {F : Fmt8} {b : BitVec 8}
    (hexp : (dec8 c F b).toNat / 2 ^ 23 % 2 ^ 8 = 0) : (dec8 c F b).toNat % 2 ^ 23 = 0 := by
  rcases hfin : F.isFinite b
  case true =>
    obtain ⟨n, hn, hzero, -, hdec⟩ := dec8_of_isFinite c hfin
    have hmag := FloatFmt.magnitude_signed fmtF32_fits (hn.trans fmtF32.infMagnitude_lt) (F.fmt.sign b)
    rw [← hdec] at hmag
    rw [f32_mantissaField, hmag]
    have hfield : n / 2 ^ 23 = 0 := hmag ▸ (f32_exponentField _).symm.trans hexp
    omega
  case false =>
    by_cases hinf : F = .e5m2 ∧ b.toNat % 4 = 0
    · obtain ⟨rfl, hmant⟩ := hinf
      obtain ⟨neg, rfl⟩ := eq_infinity_of_not_isFinite hfin hmant
      rw [dec8_infinity]
      cases neg <;> rfl
    · rw [dec8_nan c hfin hinf, nanF32_exponentField] at hexp
      exact absurd hexp (by decide)

/-- Settles O31: the finite patterns by their significands, the others by the case of R110 they fall under. -/
theorem narrowDecodeIsExact : Obligations.NarrowDecodeIsExact := by
  intro c F b
  refine ⟨dec8_exact c, dec8_not_subnormal, ?_, ?_, dec8_nan c, dec8_infinity c false, dec8_infinity c true, ?_⟩
  · exact (dec8_least c (F := .e4m3) rfl).trans (by norm_num [Fmt8.fmt, FloatFmt.ulpMin, FloatFmt.bias, fmtE4m3])
  · exact (dec8_least c (F := .e5m2) rfl).trans (by norm_num [Fmt8.fmt, FloatFmt.ulpMin, FloatFmt.bias, fmtE5m2])
  · cases F <;> rfl

end Sys2Proof.Machine
end

section
/-!
SUPPORT. The 8-bit encode (R112, R114, R115). An f32 magnitude is k * 2^23 + q, with q the significand in binade k. The
encode's steps, whichever they are, round q to the last place of the 8-bit format in that binade (or of its subnormals)
and cap the result at the largest finite pattern. So the magnitude it writes is the nearest one, ties to even, capped.
-/
namespace Sys2Proof.Machine

/-! ## Rounding by bits -/

theorem le_roundShift {a n k : Nat} (h : a * 2 ^ k ≤ n) : a ≤ roundShift n k := by
  have : a ≤ n / 2 ^ k := (Nat.le_div_iff_mul_le (Nat.two_pow_pos k)).mpr h
  rw [roundShift]
  split <;> omega

theorem roundShift_eq_zero {n k : Nat} (h : 2 * n < 2 ^ k) : roundShift n k = 0 := by
  rw [roundShift, Nat.div_eq_of_lt (by omega), Nat.mod_eq_of_lt (by omega), if_neg (by omega)]

/-- Rounding to nearest even by the bit below the last place and whether any bit under it is set. -/
theorem roundShift_eq_bits (n j : Nat) : roundShift n (j + 1) =
    if n.testBit j && (n % 2 ^ j != 0 || n / 2 ^ (j + 1) % 2 == 1) then n / 2 ^ (j + 1) + 1 else n / 2 ^ (j + 1) := by
  have hlow : n % 2 ^ j < 2 ^ j := Nat.mod_lt _ (Nat.two_pow_pos j)
  have hsplit : n % 2 ^ (j + 1) = n % 2 ^ j + 2 ^ j * (n / 2 ^ j % 2) := by rw [pow_succ, Nat.mod_mul]
  have hpow : 2 ^ (j + 1) = 2 * 2 ^ j := pow_succ' ..
  rw [roundShift, Nat.testBit_eq_decide_div_mod_eq, hsplit]
  refine if_congr ?_ rfl rfl
  rcases Nat.mod_two_eq_zero_or_one (n / 2 ^ j) with hbit | hbit <;> simp [hbit] <;> omega

/-! ## The nearest magnitude of the 8-bit format -/

namespace Fmt8
variable (F : Fmt8)

/-- The 8-bit magnitude nearest to the f32 value with significand `q` in binade `k`, had the exponent field no largest
value: below the smallest normal the last place stays that of the subnormals. -/
def roundBinade (k q : Nat) : Nat :=
  if F.rebias ≤ k then roundShift ((k - F.rebias) * 2 ^ 23 + q) (23 - F.mw)
  else roundShift q (23 - F.mw + (F.rebias - k))

theorem roundBinade_nearest {k q : Nat} (hlo : k = 0 ∨ 2 ^ 23 ≤ q) (hq : q < 2 ^ 24) :
    F.fmt.NearestMagnitude (F.roundBinade k q) (q * (2 : ℚ) ^ (k + fmtF32.ulpMin)) := by
  have hM : 1 ≤ F.fmt.M := F.fits.one_le_M
  have hb := F.rebias_bounds
  have hulp := F.ulpMin_eq
  have hlast : F.fmt.M + (23 - F.mw) = 23 := by cases F <;> rfl
  rw [roundBinade]
  split
  case isTrue hk =>
    obtain ⟨e, rfl⟩ := Nat.exists_eq_add_of_le hk
    have hpow : 2 ^ 23 = 2 ^ F.fmt.M * 2 ^ (23 - F.mw) := by rw [← pow_add, hlast]
    have hd : (0 : ℚ) < 2 ^ (23 - F.mw) := by positivity
    rw [Nat.add_sub_cancel_left, hpow, ← Nat.mul_assoc,
      roundShift_add ((Nat.even_pow.mpr ⟨even_two, by omega⟩).mul_left e),
      mul_zpow_eq_div (q : ℚ) (s := 23 - F.mw) (b := e + F.fmt.ulpMin) (by push_cast [hulp]; ring)]
    refine FloatFmt.nearestMagnitude_of_binade hM (roundShift_nearest q _) (.inr ?_) ?_
    · rw [le_div_iff₀ hd]
      exact_mod_cast hpow ▸ hlo.resolve_left (by omega)
    · have hfit : 2 ^ 24 = 2 ^ (F.fmt.M + 1) * 2 ^ (23 - F.mw) := by rw [← pow_add]; congr 1; omega
      rw [div_lt_iff₀ hd]
      exact_mod_cast hq.trans_eq hfit
  case isFalse hk =>
    have hd : (0 : ℚ) < 2 ^ (23 - F.mw + (F.rebias - k)) := by positivity
    have hfit : 2 ^ 24 ≤ 2 ^ (F.fmt.M + 1) * 2 ^ (23 - F.mw + (F.rebias - k)) := by
      rw [← pow_add]
      exact Nat.pow_le_pow_right Nat.two_pos (by omega)
    rw [mul_zpow_eq_div (q : ℚ) (s := 23 - F.mw + (F.rebias - k)) (b := (0 : ℕ) + F.fmt.ulpMin)
      (by push_cast [hulp, Nat.cast_sub (not_le.mp hk).le]; ring)]
    have hnear := FloatFmt.nearestMagnitude_of_binade hM (roundShift_nearest q (23 - F.mw + (F.rebias - k)))
      (k := 0) (.inl rfl) ((div_lt_iff₀ hd).mpr (by exact_mod_cast hq.trans_le hfit))
    rwa [Nat.zero_mul, Nat.zero_add] at hnear

/-- Far below the smallest subnormal the nearest magnitude is zero. -/
theorem roundBinade_tiny {k q : Nat} (hk : k + 31 ≤ F.rebias) (hq : q < 2 ^ 24) : F.roundBinade k q = 0 := by
  have hmw := F.mw_le
  have : 2 ^ 51 ≤ 2 ^ (23 - F.mw + (F.rebias - k)) := Nat.pow_le_pow_right Nat.two_pos (by omega)
  rw [roundBinade, if_neg (by omega)]
  exact roundShift_eq_zero (by omega)

/-- The f32 magnitude one place of the format above its largest finite value: from it on R112 saturates without
rounding. -/
def ceiling : Nat := (F.maxFin + 1) * 2 ^ (23 - F.mw) + F.rebias * 2 ^ 23

theorem maxFin_le_roundBinade {k q : Nat} (hk : F.rebias ≤ k) (h : F.ceiling ≤ k * 2 ^ 23 + q) :
    F.maxFin ≤ F.roundBinade k q := by
  rw [roundBinade, if_pos hk]
  rw [ceiling, Nat.succ_mul] at h
  have := Nat.two_pow_pos (23 - F.mw)
  exact le_roundShift (by omega)

/-- Below the ceiling step 6 or step 7 of R112 rounds: the exponent is at most EMAX, or for e4m3 one more and the
mantissa not the last. -/
theorem lt_ceiling_iff {E m : Nat} (hm : m < 2 ^ 23) : E * 2 ^ 23 + m < F.ceiling ↔
    (E : ℤ) - 127 ≤ F.emax ∨ (F = .e4m3 ∧ (E : ℤ) - 127 = F.emax + 1) ∧ m >>> (23 - F.mw) < 7 := by
  have hlast := Nat.shiftRight_eq_div_pow m 20
  cases F <;> simp only [ceiling, maxFin, mw, rebias, bias, emax, true_and, reduceCtorEq, false_and, or_false,
    Nat.reduceSub] <;> omega

end Fmt8

/-! ## Steps 8 to 10 of R112 -/

/-- Writing a sign byte over a magnitude that leaves its bit free. -/
theorem Fmt8.signByte_or (F : Fmt8) {n : Nat} (hn : n ≤ F.maxFin) (neg : Bool) :
    BitVec.ofNat 8 ((if neg then 128 else 0) ||| n) = F.fmt.signed 8 neg n := by
  have hlt : n < 128 := (hn.trans_lt F.maxFin_lt).trans_eq F.two_pow_eq
  rw [FloatFmt.signed, F.two_pow_eq]
  cases neg with
  | false => simp
  | true => exact congrArg _ (Nat.two_pow_add_eq_or_of_lt (i := 7) hlt 1).symm

section Finish
variable {F : Fmt8} (neg : Bool)

/-- The steps round `n`, which has `j + 1` bits below the last place, to nearest even and saturate. -/
theorem enc8Finish_eq {u mm n j : Nat} {sticky : Bool} (hu : u = n / 2 ^ (j + 1))
    (hbit : mm.testBit (23 - (F.mw + 1)) = n.testBit j)
    (hsticky : (sticky || mm % 2 ^ (23 - (F.mw + 1)) != 0) = (n % 2 ^ j != 0)) :
    enc8Finish F (if neg then 128 else 0) u mm sticky = F.fmt.signed 8 neg (min (roundShift n (j + 1)) F.maxFin) := by
  simp only [enc8Finish, hbit, hsticky, hu, ← roundShift_eq_bits]
  split
  case isTrue h => rw [min_eq_right h.le, F.signByte_or le_rfl]
  case isFalse h => rw [min_eq_left (not_lt.mp h), Nat.or_comm, F.signByte_or (not_lt.mp h)]

theorem enc8Finish_zero :
    enc8Finish F (if neg then 128 else 0) 0 0 false = F.fmt.signed 8 neg (min 0 F.maxFin) :=
  enc8Finish_eq (n := 0) (j := 0) neg (by simp) (by simp) (by simp)

/-- On the mantissa field of a normal result (steps 6 and 7). -/
theorem enc8Finish_normal (e : Nat) {m : Nat} (hm : m < 2 ^ 23) :
    enc8Finish F (if neg then 128 else 0) ((e + 1) <<< F.mw ||| m >>> (23 - F.mw)) m false =
      F.fmt.signed 8 neg (min (roundShift (e * 2 ^ 23 + (2 ^ 23 + m)) (23 - F.mw)) F.maxFin) := by
  have hmw := F.mw_le
  have hd : 23 - F.mw = 23 - (F.mw + 1) + 1 := by omega
  have hpow : 2 ^ 23 = 2 ^ (23 - F.mw) * 2 ^ F.mw := by rw [Nat.mul_comm, F.two_pow_mw_mul]
  have hlow : 2 ^ 23 = 2 ^ (23 - (F.mw + 1)) * 2 ^ (F.mw + 1) := by rw [← pow_add]; congr 1; omega
  have hlt : m / 2 ^ (23 - F.mw) < 2 ^ F.mw := Nat.div_lt_of_lt_mul (hpow ▸ hm)
  have hsplit : e * 2 ^ 23 + (2 ^ 23 + m) = 2 ^ 23 * (e + 1) + m := by ring
  rw [hsplit]
  conv_rhs => rw [hd]
  refine enc8Finish_eq neg ?_ ?_ ?_
  · rw [← hd, Nat.shiftRight_eq_div_pow, ← Nat.shiftLeft_add_eq_or_of_lt hlt, Nat.shiftLeft_eq, hpow, Nat.mul_assoc,
      Nat.mul_add_div (Nat.two_pow_pos _), Nat.mul_comm (2 ^ F.mw)]
  · rw [Nat.testBit_two_pow_mul_add _ hm, if_pos (by omega)]
  · rw [Bool.false_or, hlow, Nat.mul_assoc, Nat.mul_add_mod]

/-- On a significand shifted right for a subnormal result (step 5). -/
theorem enc8Finish_subnormal {r q : Nat} (hr : 0 < r) (hq : q < 2 ^ 24) :
    enc8Finish F (if neg then 128 else 0) (q >>> r >>> (23 - F.mw) % 2 ^ F.mw) (q >>> r) (q % 2 ^ r != 0) =
      F.fmt.signed 8 neg (min (roundShift q (23 - F.mw + r)) F.maxFin) := by
  have hmw := F.mw_le
  have hd : 23 - F.mw + r = r + (23 - (F.mw + 1)) + 1 := by omega
  rw [hd]
  refine enc8Finish_eq neg ?_ ?_ ?_
  · rw [← Nat.shiftRight_add, Nat.shiftRight_eq_div_pow, ← hd, Nat.add_comm r, Nat.mod_eq_of_lt]
    refine Nat.div_lt_of_lt_mul (hq.trans_le ?_)
    rw [← pow_add]
    exact Nat.pow_le_pow_right Nat.two_pos (by omega)
  · rw [Nat.testBit_shiftRight]
  · have hmod : q % 2 ^ (r + (23 - (F.mw + 1))) = q % 2 ^ r + 2 ^ r * (q / 2 ^ r % 2 ^ (23 - (F.mw + 1))) := by
      rw [pow_add, Nat.mod_mul]
    rw [hmod, Nat.shiftRight_eq_div_pow, Bool.eq_iff_iff]
    simp [or_iff_not_imp_left]

end Finish

/-! ## Steps 1 to 7 of R112 -/

theorem f32_signByte (x : BitVec 32) : x.toNat / 2 ^ 31 * 128 = if fmtF32.sign x then 128 else 0 := by
  rw [show x.toNat / 2 ^ 31 = _ from FloatFmt.toNat_div fmtF32_fits x]
  split <;> rfl

/-- Step 1. -/
theorem enc8_nan (c : Config) (F : Fmt8) {x : BitVec 32} (h : fmtF32.isNaNPattern x = true) :
    enc8 c F x = F.nan8 c := by
  simp only [FloatFmt.isNaNPattern, FloatFmt.isFinite, Bool.and_eq_true, Bool.not_eq_true', bne_eq_false_iff_eq,
    bne_iff_ne] at h
  exact if_pos h

section Steps
variable {c : Config} {F : Fmt8} {x : BitVec 32} {E m : Nat} (hE : fmtF32.magnitude x / 2 ^ 23 = E)
  (hm : fmtF32.magnitude x % 2 ^ 23 = m)
include hE hm

/-- Steps 4 and 5, below the smallest normal. -/
theorem enc8_subnormal (hsub : E ≤ F.rebias) : enc8 c F x =
    if F.rebias + 1 - E < 32 then
      enc8Finish F (if fmtF32.sign x then 128 else 0)
        ((2 ^ 23 + m) >>> (F.rebias + 1 - E) >>> (23 - F.mw) % 2 ^ F.mw) ((2 ^ 23 + m) >>> (F.rebias + 1 - E))
        ((2 ^ 23 + m) % 2 ^ (F.rebias + 1 - E) != 0)
    else enc8Finish F (if fmtF32.sign x then 128 else 0) 0 0 false := by
  have hfull : m ||| 1 <<< 23 = 2 ^ 23 + m := by
    rw [Nat.or_comm]
    exact (Nat.two_pow_add_eq_or_of_lt (i := 23) (by omega) 1).symm
  have hr : ((F.rebias : ℤ) - 126 - (E - 127)).toNat = F.rebias + 1 - E := by omega
  have hb := F.rebias_bounds
  simp only [enc8, f32_exponentField, f32_mantissaField, f32_signByte, hE, hm, F.emin_eq, hr, hfull]
  rw [if_neg (by omega), if_neg (by omega), if_neg (by omega), if_pos (by omega)]

/-- Steps 6 and 7, up to the ceiling. -/
theorem enc8_normal (hnormal : F.rebias < E) (hhi : fmtF32.magnitude x < F.ceiling) : enc8 c F x =
    enc8Finish F (if fmtF32.sign x then 128 else 0) ((E - F.rebias) <<< F.mw ||| m >>> (23 - F.mw)) m false := by
  have hnan : E ≠ 255 := by
    have : F.ceiling ≤ 0x7F800000 := by cases F <;> decide
    omega
  have hfield : ((E : ℤ) - 127 + F.bias).toNat = E - F.rebias := by rw [F.bias_eq]; omega
  have hemin : F.emin ≤ (E : ℤ) - 127 := by rw [F.emin_eq]; omega
  simp only [enc8, f32_exponentField, f32_mantissaField, f32_signByte, hE, hm, hfield]
  rw [if_neg (mt And.left hnan), if_neg hnan]
  by_cases hemax : (E : ℤ) - 127 ≤ F.emax
  · rw [if_pos ⟨hemin, hemax⟩]
  · obtain ⟨hext, hlast⟩ := ((F.lt_ceiling_iff (E := E) (m := m) (by omega)).mp (by omega)).resolve_left hemax
    rw [if_neg (mt And.right hemax), if_neg (not_lt.mpr hemin), if_pos hext, if_pos hlast]

/-- Steps 2 and 7, from the ceiling on. -/
theorem enc8_saturated (hlo : F.ceiling ≤ fmtF32.magnitude x) (hhi : fmtF32.magnitude x ≤ fmtF32.infMagnitude) :
    enc8 c F x = BitVec.ofNat 8 ((if fmtF32.sign x then 128 else 0) ||| F.maxFin) := by
  replace hhi : fmtF32.magnitude x ≤ 0x7F800000 := hhi
  obtain ⟨hemax, hlast⟩ := not_or.mp (mt (F.lt_ceiling_iff (E := E) (m := m) (by omega)).mpr (by omega))
  have hnan : ¬(E = 255 ∧ m ≠ 0) := by omega
  have hbelow : ¬(E : ℤ) - 127 < F.emin := by
    have : F.emin ≤ F.emax := by cases F <;> decide
    omega
  simp only [enc8, f32_exponentField, f32_mantissaField, f32_signByte, hE, hm]
  rw [if_neg hnan, if_neg (mt And.right hemax), if_neg hbelow]
  by_cases hext : F = .e4m3 ∧ (E : ℤ) - 127 = F.emax + 1
  · rw [if_pos hext, if_neg (fun h => hlast ⟨hext, h⟩), ite_self]
  · rw [if_neg hext, ite_self]

end Steps

/-- Whichever steps it takes, the encode writes the magnitude nearest to the value, capped at the largest finite one. -/
theorem enc8_of_binade (c : Config) (F : Fmt8) {x : BitVec 32} {k q : Nat}
    (hn : fmtF32.magnitude x = k * 2 ^ 23 + q) (hlo : k = 0 ∨ 2 ^ 23 ≤ q) (hq : q < 2 ^ 24)
    (hnan : fmtF32.magnitude x ≤ fmtF32.infMagnitude) :
    enc8 c F x = F.fmt.signed 8 (fmtF32.sign x) (min (F.roundBinade k q) F.maxFin) := by
  have hb := F.rebias_bounds
  rcases Nat.lt_or_ge q (2 ^ 23) with hsub | hnorm
  · obtain rfl : k = 0 := by omega
    rw [enc8_subnormal (E := 0) (m := q) (by omega) (by omega) (by omega), if_neg (by omega), enc8Finish_zero,
      F.roundBinade_tiny (by omega) hq]
  obtain ⟨m, rfl⟩ := Nat.exists_eq_add_of_le hnorm
  have hE : fmtF32.magnitude x / 2 ^ 23 = k + 1 := by omega
  have hm : fmtF32.magnitude x % 2 ^ 23 = m := by omega
  rcases Nat.lt_or_ge k F.rebias with hk | hk
  · rw [enc8_subnormal hE hm hk, Nat.add_sub_add_right]
    split
    · rw [enc8Finish_subnormal _ (by omega) hq, Fmt8.roundBinade, if_neg (by omega)]
    · rw [enc8Finish_zero, F.roundBinade_tiny (by omega) hq]
  rcases Nat.lt_or_ge (fmtF32.magnitude x) F.ceiling with hlt | hge
  · rw [enc8_normal hE hm (by omega) hlt, Fmt8.roundBinade, if_pos hk, Nat.sub_add_comm hk]
    exact enc8Finish_normal _ _ (by omega)
  · rw [enc8_saturated hE hm hge hnan, F.signByte_or le_rfl, min_eq_right (F.maxFin_le_roundBinade hk (hn ▸ hge))]

theorem enc8_nearest (c : Config) (F : Fmt8) {x : BitVec 32} (hnan : fmtF32.isNaNPattern x = false) :
    ∃ n, F.fmt.NearestMagnitude n (fmtF32.magnitudeValue (fmtF32.magnitude x)) ∧
      enc8 c F x = F.fmt.signed 8 (fmtF32.sign x) (min n F.maxFin) := by
  obtain ⟨k, q, hn, hbin, hq⟩ := fmtF32.exists_binade (fmtF32.magnitude x)
  refine ⟨F.roundBinade k q, ?_, enc8_of_binade c F hn hbin.1 hq ((fmtF32.not_isNaNPattern_iff x).mp hnan)⟩
  rw [hn, FloatFmt.magnitudeValue_binade hbin]
  exact F.roundBinade_nearest hbin.1 hq

/-! ## Where the nearest magnitude lies -/

section Nearest
variable {f : FloatFmt} {n : Nat} {v : ℚ} (h : f.NearestMagnitude n v)
include h

theorem FloatFmt.NearestMagnitude.le_of_value_le {m : Nat} (hm : f.magnitudeValue m ≤ v) : m ≤ n := by
  by_contra! hlt
  obtain ⟨hmid, -⟩ := h.above m hlt
  have := f.magnitudeValue_strictMono hlt
  linarith

theorem FloatFmt.NearestMagnitude.ge_of_le_value {m : Nat} (hm : v ≤ f.magnitudeValue m) : n ≤ m := by
  by_contra! hlt
  obtain ⟨hmid, -⟩ := h.below m hlt
  have := f.magnitudeValue_strictMono hlt
  linarith

/-- Up to half the smallest magnitude, the tie included, a value rounds to zero. -/
theorem FloatFmt.NearestMagnitude.eq_zero (hv : 2 * v ≤ f.magnitudeValue 1) : n = 0 := by
  by_contra hne
  obtain ⟨hmid, htie⟩ := h.below 0 (Nat.pos_of_ne_zero hne)
  rw [f.magnitudeValue_zero, zero_add] at hmid htie
  have hle : n ≤ 1 := f.magnitudeValue_strictMono.le_iff_le.mp (hmid.trans hv)
  obtain rfl : n = 1 := by omega
  exact absurd (htie (le_antisymm hmid hv)) (by decide)

theorem FloatFmt.NearestMagnitude.eq_one (hlo : f.magnitudeValue 1 < 2 * v) (hhi : v ≤ f.magnitudeValue 1) : n = 1 := by
  refine le_antisymm (h.ge_of_le_value hhi) (Nat.pos_of_ne_zero ?_)
  rintro rfl
  obtain ⟨hmid, -⟩ := h.above 1 Nat.one_pos
  rw [f.magnitudeValue_zero] at hmid
  linarith

/-- Capped at `top`, the nearest magnitude is the nearest of those up to `top`, of either sign. -/
theorem FloatFmt.NearestMagnitude.capped_dist_le {top m : Nat} (hv : 0 ≤ v) (hm : m ≤ top) (neg neg' : Bool) :
    |signFactor neg * v - signFactor neg * f.magnitudeValue (min n top)| ≤
        |signFactor neg * v - signFactor neg' * f.magnitudeValue m| ∧
      (|signFactor neg * v - signFactor neg * f.magnitudeValue (min n top)| =
          |signFactor neg * v - signFactor neg' * f.magnitudeValue m| →
        signFactor neg' * f.magnitudeValue m ≠ signFactor neg * f.magnitudeValue (min n top) → Even (min n top)) := by
  rcases le_or_gt n top with hle | hgt
  · rw [min_eq_left hle]
    exact h.signed_dist_le hv neg neg' m
  · have htop : f.magnitudeValue top ≤ v := by
      obtain ⟨hmid, -⟩ := h.below top hgt
      have := f.magnitudeValue_strictMono hgt
      linarith
    have hmtop := f.magnitudeValue_strictMono.monotone hm
    have hm0 := f.magnitudeValue_nonneg m
    rw [min_eq_right hgt.le, abs_signFactor_mul_sub, abs_of_nonneg (sub_nonneg.mpr htop)]
    rcases Bool.eq_or_eq_not neg' neg with rfl | rfl
    · rw [abs_signFactor_mul_sub, abs_of_nonneg (by linarith)]
      refine ⟨by linarith, fun heq hne => absurd ?_ hne⟩
      rw [show f.magnitudeValue m = f.magnitudeValue top by linarith]
    · rw [abs_signFactor_mul_add, abs_of_nonneg (by linarith)]
      refine ⟨by linarith, fun heq hne => absurd ?_ hne⟩
      rw [show f.magnitudeValue m = 0 by linarith, show f.magnitudeValue top = 0 by linarith, mul_zero, mul_zero]

end Nearest

theorem FloatFmt.NearestMagnitude.eq_of_value {f : FloatFmt} {n m : Nat}
    (h : f.NearestMagnitude n (f.magnitudeValue m)) : n = m :=
  le_antisymm (h.ge_of_le_value le_rfl) (h.le_of_value_le le_rfl)

/-! ## The largest finite pattern -/

namespace Fmt8
variable (F : Fmt8)

theorem signed_eq (neg : Bool) (n : Nat) :
    F.fmt.signed 8 neg n = BitVec.ofNat 8 ((if neg then 128 else 0) + n) := by
  rw [FloatFmt.signed, F.two_pow_eq]

theorem realValue_maxFin : F.fmt.realValue (BitVec.ofNat 8 F.maxFin) = F.fmt.magnitudeValue F.maxFin := by
  have hpos : BitVec.ofNat 8 F.maxFin = F.fmt.signed 8 false F.maxFin := by rw [F.signed_eq]; simp
  rw [hpos, FloatFmt.realValue_signed F.fits F.maxFin_lt, signFactor, if_neg Bool.false_ne_true, one_mul]

/-- Its value is that of a finite f32 magnitude, the one it decodes to. -/
theorem magnitudeValue_maxFin_lt : F.fmt.magnitudeValue F.maxFin < fmtF32.magnitudeValue fmtF32.infMagnitude := by
  have hmag := FloatFmt.magnitude_signed F.fits F.maxFin_lt false
  obtain ⟨n, hn, -, hval, -⟩ := dec8_of_isFinite .reference ((F.isFinite_iff _).mpr hmag.le)
  rw [← hmag, ← hval]
  exact fmtF32.magnitudeValue_strictMono hn

end Fmt8

/-! ## The statements -/

/-- A finite pattern decodes to its own value, to which it is the nearest pattern. -/
theorem enc8_dec8 (c : Config) {F : Fmt8} {b : BitVec 8} (hfin : F.isFinite b = true) :
    enc8 c F (dec8 c F b) = b := by
  obtain ⟨n, hn, -, hval, hdec⟩ := dec8_of_isFinite c hfin
  have hlt := hn.trans fmtF32.infMagnitude_lt
  obtain ⟨hdecfin, -⟩ := dec8_exact c hfin
  obtain ⟨n', hnear, henc⟩ := enc8_nearest c F (FloatFmt.not_isNaNPattern_of_isFinite hdecfin)
  rw [hdec, FloatFmt.magnitude_signed fmtF32_fits hlt, hval] at hnear
  rw [henc, hnear.eq_of_value, min_eq_left ((F.isFinite_iff b).mp hfin), hdec, FloatFmt.sign_signed fmtF32_fits hlt]
  exact FloatFmt.signed_sign_magnitude F.fits b

/-- Settles O32: the encode writes the nearest magnitude capped at the largest finite one. -/
theorem narrowEncodeIsNearestEven : Obligations.NarrowEncodeIsNearestEven := by
  intro c F
  refine ⟨fun x hnan => ?_, fun b hfin => enc8_dec8 c hfin⟩
  intro y largest
  obtain ⟨n, hnear, henc⟩ := enc8_nearest c F hnan
  have hy : y = F.fmt.signed 8 (fmtF32.sign x) (min n F.maxFin) := henc
  have hlt : min n F.maxFin < 2 ^ (F.fmt.E + F.fmt.M) := (min_le_right _ _).trans_lt F.maxFin_lt
  have hlargest (h : F.fmt.magnitudeValue F.maxFin ≤ fmtF32.magnitudeValue (fmtF32.magnitude x)) : y = largest := by
    rw [hy, min_eq_right (hnear.le_of_value_le h), F.signed_eq]
  refine ⟨?_, ?_, fun hinf => hlargest ?_, fun hfin => ⟨fun hle => hlargest ?_, fun z hz => ?_⟩⟩
  · rw [hy, F.isFinite_iff, FloatFmt.magnitude_signed F.fits hlt]
    exact min_le_right _ _
  · rw [hy, FloatFmt.sign_signed F.fits hlt]
  · rw [← Bool.not_eq_true, fmtF32.isFinite_iff, not_lt] at hinf
    exact F.magnitudeValue_maxFin_lt.le.trans (fmtF32.magnitudeValue_strictMono.monotone hinf)
  · rwa [F.realValue_maxFin, fmtF32.abs_realValue] at hle
  · rw [F.isFinite_iff] at hz
    rw [hy, FloatFmt.realValue_signed F.fits hlt, fmtF32.realValue_eq, F.fmt.realValue_eq z]
    exact (hnear.capped_dist_le (fmtF32.magnitudeValue_nonneg _) hz _ _).imp_right
      fun htie heq hne => FloatFmt.lowBit_signed F.fits hlt _ (htie heq hne)

/-- Settles O33: the corners from the nearest magnitude, the f32 patterns of R115 being the smallest 8-bit magnitude and
half of it. -/
theorem narrowEncodeCorners : Obligations.NarrowEncodeCorners := by
  intro c F x mag s8 half least
  have hmono := fmtF32.magnitudeValue_strictMono
  have hhalf : F.fmt.magnitudeValue 1 = 2 * fmtF32.magnitudeValue half := by
    cases F <;> norm_num [half, FloatFmt.magnitudeValue, FloatFmt.magnitudeUnits, FloatFmt.ulpMin, FloatFmt.bias,
      Fmt8.fmt, fmtF32, fmtE4m3, fmtE5m2]
  have hleast : F.fmt.magnitudeValue 1 = fmtF32.magnitudeValue least := by
    cases F <;> norm_num [least, FloatFmt.magnitudeValue, FloatFmt.magnitudeUnits, FloatFmt.ulpMin, FloatFmt.bias,
      Fmt8.fmt, fmtF32, fmtE4m3, fmtE5m2]
  have hbounds : half < least ∧ least < 0x7F800000 := by cases F <;> decide
  rcases Nat.lt_or_ge 0x7F800000 mag with hnan | hle
  · exact ⟨fun _ => enc8_nan c F ((fmtF32.isNaNPattern_iff x).mpr hnan), fun h => by omega, fun h => by omega,
      fun _ h => by omega, fun _ h => by omega⟩
  obtain ⟨n, hnear, henc⟩ := enc8_nearest c F ((fmtF32.not_isNaNPattern_iff x).mpr hle)
  change F.fmt.NearestMagnitude n (fmtF32.magnitudeValue mag) at hnear
  have hs8 : enc8 c F x = BitVec.ofNat 8 (s8 + min n F.maxFin) := by
    rw [henc, F.signed_eq, show s8 = _ from f32_signByte x]
  refine ⟨fun h => absurd h (not_lt.mpr hle), fun h => ?_, fun h => ?_, fun h h' => ?_, fun hF _ => ?_⟩
  · have hn : F.maxFin ≤ n :=
      hnear.le_of_value_le (F.magnitudeValue_maxFin_lt.le.trans_eq (congrArg fmtF32.magnitudeValue h.symm))
    rw [hs8, min_eq_right hn]
  · have hn : n = 0 := hnear.eq_zero (by linarith [hmono.monotone h])
    rw [hs8, hn, Nat.zero_min, Nat.add_zero]
  · have hn : n = 1 := hnear.eq_one (by linarith [hmono h]) (hleast ▸ hmono.monotone h')
    have hone : 1 ≤ F.maxFin := by cases F <;> decide
    rw [hs8, hn, min_eq_left hone]
  · have hmag : (enc8 c F x).toNat % 2 ^ (F.fmt.E + F.fmt.M) = min n F.maxFin := by
      rw [henc]
      exact FloatFmt.magnitude_signed F.fits ((min_le_right _ _).trans_lt F.maxFin_lt) _
    rw [F.two_pow_eq] at hmag
    rw [hmag]
    subst hF
    exact (min_le_right _ _).trans_lt (by decide)

end Sys2Proof.Machine
end

section
/-!
SUPPORT. The CORE commands (spec/41_core.md, R141 to R149): the block's turn on a word that decodes and on one that does
not (R140), what every command leaves alone (R213), and NOP, SIGNAL, VZERO, VSPLAT, the loads and the stores when their
checks pass.
-/
namespace Sys2Proof.Machine

/-! ## The block's turn (R140) -/

theorem canExecute_eq_false_iff {s : State} :
    s.canExecute = false ↔ s.en = false ∨ s.err = true ∨ s.queue = [] := by
  rw [← Bool.not_eq_true, canExecute_iff]
  simp only [not_and_or, Bool.not_eq_true, Bool.not_eq_false, not_not]

theorem headWord_of_queue {s : State} {w : CmdWord} {q : List CmdWord} (hq : s.queue = w :: q) : s.headWord = w := by
  rw [State.headWord, hq, List.headD_cons]

/-- The turn on a word that decodes is exec of its command. -/
theorem blockStep_decoded {s : State} {w : CmdWord} {q : List CmdWord} {i : Instr} (hen : s.en = true)
    (herr : s.err = false) (hq : s.queue = w :: q) (hdec : decode w = .ok i) : blockStep s = exec i s := by
  have hexec : s.canExecute = true := canExecute_iff.mpr ⟨hen, herr, by simp [hq]⟩
  rw [blockStep_cons hexec hq, execWord, hdec]

/-- A command's writes and its retirement change nothing but the registers, the scratchpad, SIGVAL and DONE besides the
queue and CSEQ (R25, R140). -/
theorem Performed.retiredFrom {i : Instr} {s t : State} (h : Performed i s t) : s.RetiredFrom (retire t) :=
  retiredFrom_retire h.rest

/-- What a faulting command answers is the state after the fault on the word at the head (R213). -/
theorem faults_of_raise {s : State} {w : CmdWord} {q : List CmdWord} (hq : s.queue = w :: q) (c : Cause) (info : Word)
    (d : Nat) : s.Faults (.next { raise c info s with draws := d }) c info w := by
  rw [← headWord_of_queue hq]
  exact ⟨d, rfl⟩

/-! ## NOP's word (R141) -/

theorem eq_zero_iff_of_opc_zero {w : CmdWord} (hop : (Fields.unpack w).opc = 0) :
    w = 0 ↔ w.extractLsb' 8 56 = 0 := by
  -- a word is its bits 63:8 and its opcode
  have hw : w.extractLsb' 8 56 ++ w.extractLsb' 0 8 = w :=
    (BitVec.extractLsb'_append_extractLsb'_eq_extractLsb' rfl).trans BitVec.extractLsb'_eq_self
  have hlow : w.extractLsb' 0 8 = 0 := hop
  refine ⟨fun h => by rw [h]; rfl, fun h => ?_⟩
  rw [← hw, h, hlow]
  rfl

/-! ## The commands that reach no scratchpad, when their checks pass (R141 to R144) -/

theorem exec_nop (s : State) : exec .nop s = .next (retire s) := rfl

theorem exec_signal (sig : Word) (s : State) :
    exec (.signal sig) s = .next (retire { s with sigVal := sig, done := true }) := rfl

theorem exec_vzero (vd : VReg) (s : State) :
    exec (.vzero vd) s = .next (retire (s.setReg vd (s.regOf fun _ => .written 0))) := rfl

theorem exec_vsplat_ok {s : State} {t : EType} {n : LogCount} {lane : BitVec 16}
    (hw : count n * t.esize ≤ s.cfg.vlenb) (hlane : lane.toNat < count n) (vd vs : VReg) :
    exec (.vsplat vd vs t n lane) s = .next (retire
      ((s.lanesWr vd (List.replicate (count n) (s.lane 0 vs t.esize lane.toNat))).drew 1)) := by
  have hin : ¬count n ≤ unsignedAmount lane := Nat.not_le.mpr hlane
  have hchecks : firstFault [widthCheck (s.tooWide (count n * t.esize)),
      rangeCheck (decide (count n ≤ unsignedAmount lane))] = none := by
    simp [firstFault_cons, tooWide_eq_false.mpr hw, hin]
  rw [exec, execVsplat, command_ok hchecks, unsignedAmount]

/-! ## A vector loaded and a vector stored (R146 to R149)

`index` is where byte j of the vector stands in memory, or in the register of a store, and `byte` is the same within a
lane: the identity for VLD and VST, the mirror for VLD.BE and VST.BE (R53). -/

section Vector
variable {s : State} {es n : Nat} {index byte : Nat → Nat}
  (hindex : ∀ i, ∀ k < es, index (i * es + k) = i * es + byte k)
include hindex

theorem loadBytes_lanes (vd : VReg) (a : Nat) (hfit : n * es ≤ s.cfg.vlenb) :
    let u := retire (loadBytes vd a (n * es) index s)
    s.WritesOnly u [vd] ∧
    (∀ i < n, ∀ k < es, u.regByte vd (i * es + k) = Memory.read s.spm (a + i * es + byte k)) ∧
    ∀ j, n * es ≤ j → j < s.cfg.vlenb → u.regByte vd j = .written 0 := by
  refine ⟨writesOnly_retire (fun r hr => ?_) rfl, fun i hi k hk => ?_, fun j hj hlt => ?_⟩
  · exact reg_loadBytes vd a _ index s (by simpa using hr)
  · have hlt := laneByte_lt hi hk
    have hbyte := regByte_loadBytes vd a (n * es) index s (Nat.lt_of_lt_of_le hlt hfit)
    rwa [if_pos hlt, hindex i k hk, ← Nat.add_assoc] at hbyte
  · exact (regByte_loadBytes vd a _ index s hlt).trans (if_neg (by omega))

theorem storeBytes_lanes (vs : VReg) (a : Nat) (hs : Memory.wf s.spm) :
    let u := retire (storeBytes vs a (n * es) index s)
    s.RetiredFrom u ∧ u.regs = s.regs ∧ u.sigVal = s.sigVal ∧ u.done = s.done ∧
    (∀ i < n, ∀ k < es, Memory.read u.spm (a + i * es + k) = s.regByte vs (i * es + byte k)) ∧
    ∀ x, x < a ∨ a + n * es ≤ x → Memory.read u.spm x = Memory.read s.spm x := by
  refine ⟨retiredFrom_retire rfl, rfl, rfl, rfl, fun i hi k hk => ?_, fun x hx => ?_⟩
  · have hlt := laneByte_lt hi hk
    have hread := read_storeBytes vs a (n * es) index s hs (a + (i * es + k))
    rwa [if_pos (by omega), Nat.add_sub_cancel_left, hindex i k hk, ← Nat.add_assoc] at hread
  · exact (read_storeBytes vs a (n * es) index s hs x).trans (if_neg (by omega))

end Vector

/-! ## The statements -/

/-- Settles O8: the turn's word is rejected, or its command retires or faults. -/
theorem blockTurnRetiresOrFaults : Obligations.BlockTurnRetiresOrFaults := by
  intro s
  refine ⟨fun hidle => ?_, fun w q hen herr hq => ?_⟩
  · rw [step_turn, blockStep_idle (canExecute_eq_false_iff.mpr hidle)]
  · cases hdec : decode w with
    | error c => exact .inr ⟨c, 0, decode_error_ne_none hdec, s.draws, step_rejected hdec hen herr hq⟩
    | ok i =>
      rw [step_turn, blockStep_decoded hen herr hq hdec]
      rcases exec_cases i s with ⟨t, he, ht⟩ | ⟨c, info, d, hc, he⟩
      · exact .inl ⟨_, i, he, rfl, he, ht.retiredFrom⟩
      · exact .inr ⟨c, info, hc, he ▸ faults_of_raise hq c info d⟩

/-- Settles O19: a retirement by the frame of what was performed; a fault changes the report, the queue, ERR and the
draws alone. -/
theorem commandsTouchOnly : Obligations.CommandsTouchOnly := by
  intro i s u hu
  rcases exec_cases i s with ⟨t, he, ht⟩ | ⟨c, info, d, -, he⟩ <;> rw [he] at hu <;> cases hu
  · have hr := ht.retiredFrom
    refine ⟨⟨hr.cfg, hr.en, hr.ieDone, hr.ieErr, hr.cmdLo, hr.dropped, hr.agenda, hr.response⟩, fun _ _ => ?_,
      fun herr hset => ?_, fun hne => (ht.signal hne).symm, ht.store⟩
    · exact ⟨hr.cause, hr.faultIdx, hr.faultInfo, hr.faultCmd⟩
    · rw [hr.err, herr] at hset
      cases hset
  · exact ⟨⟨rfl, rfl, rfl, rfl, rfl, rfl, rfl, rfl⟩, fun _ hclear => by simp at hclear, fun _ _ => rfl,
      fun _ => ⟨rfl, rfl⟩, fun _ => rfl⟩

/-- Settles O24: one lane, read once and written N times. -/
theorem vsplatCompletes : Obligations.VsplatCompletes := by
  intro s vd vs t n lane hw hlane
  exact ⟨_, exec_vsplat_ok hw hlane vd vs,
    wroteLanes_of (esize_pos t) s vd _ 1 List.length_replicate hw fun _ hi => List.getD_replicate _ hi⟩

/-- Settles O25: both loads, the index of each being the identity or the mirror within a lane. -/
theorem loadsComplete : Obligations.LoadsComplete := fun _ vd _ _ a hw ha hb =>
  ⟨⟨_, exec_vld_ok hw ha hb vd, loadBytes_lanes (fun _ _ _ => rfl) vd a.toNat hw⟩,
   ⟨_, exec_vldBe_ok hw ha hb vd, loadBytes_lanes (fun i _ hk => beIndex_laneByte i hk) vd a.toNat hw⟩⟩

/-- Settles O26: both stores, the index of each being the identity or the mirror within a lane. -/
theorem storesComplete : Obligations.StoresComplete := fun _ vs _ _ a ⟨hwf, _⟩ hw ha hb =>
  ⟨⟨_, exec_vst_ok hw ha hb vs, storeBytes_lanes (fun _ _ _ => rfl) vs a.toNat hwf⟩,
   ⟨_, exec_vstBe_ok hw ha hb vs, storeBytes_lanes (fun i _ hk => beIndex_laneByte i hk) vs a.toNat hwf⟩⟩

/-- Settles O7: with an empty agenda the step is the block's turn as it is when that turn is the next event. -/
theorem stepRunsDecodedCommand : Obligations.StepRunsDecodedCommand := by
  intro s w q i hen herr hq hdec
  have hturn := blockStep_decoded hen herr hq hdec
  exact ⟨(step_turn s).trans hturn, fun hnil => (step_nil hnil).trans hturn⟩

/-- Settles O22: NOP's word is the zero word, and NOP has no check and no effect of its own. -/
theorem nopOnlyCounts : Obligations.NopOnlyCounts := by
  refine ⟨fun w hop => ?_, exec_nop⟩
  split
  next hzero => exact decode_eq_nop_iff.mpr ((eq_zero_iff_of_opc_zero hop).mpr hzero)
  next hne => exact decode_illegalField_of_opc_zero hop fun h => hne ((eq_zero_iff_of_opc_zero hop).mp h)

/-- Settles O23: neither command has a check. -/
theorem signalAndVzeroComplete : Obligations.SignalAndVzeroComplete := by
  intro s
  refine ⟨fun sig => exec_signal sig s, fun vd => ⟨_, exec_vzero vd s, ?_, ?_⟩⟩
  · exact writesOnly_retire (fun r hr => by rw [reg_setReg, if_neg (by simpa using hr)]) rfl
  · have hreg : (s.setReg vd (s.regOf fun _ => .written 0)).reg vd = s.regOf fun _ => .written 0 := by
      rw [reg_setReg, if_pos rfl]
    have hzero : s.regOf (fun _ => .written 0) = List.replicate s.cfg.vlenb (.written 0) := by
      rw [State.regOf, List.map_const', List.length_range]
    exact hreg.trans hzero

end Sys2Proof.Machine
end

section
/-!
SUPPORT. The PERM commands (spec/42_structural.md, R159 to R173) when their checks pass: for each the lanes it writes,
said lane by lane; the fault of a shuffle on its mask; and two commands run one after the other (R174).
-/
namespace Sys2Proof.Machine

/-! ## Lanes by index -/

/-- A remainder is a lane index. -/
theorem toNat_emod_lt (x : Int) {n : Nat} (hn : 0 < n) : (x % (n : Int)).toNat < n := by
  have hlt : x % (n : Int) < n := Int.emod_lt_of_pos x (by omega)
  omega

/-- Turning back by `x` and on by `x` comes to the same lane (R168, R169). -/
theorem rotated_index {i n : Nat} (hi : i < n) (x : Int) :
    (((((i : Int) - x) % (n : Int)).toNat + x) % (n : Int)).toNat = i := by
  rw [Int.toNat_of_nonneg (Int.emod_nonneg _ (by omega)), Int.emod_add_emod, Int.sub_add_cancel,
    Int.emod_eq_of_lt (by omega) (by omega), Int.toNat_natCast]

theorem interleave_getD_parity {α : Type} {a b : List α} (h : a.length = b.length) (i : Nat) (d : α) :
    (interleave a b).getD i d = if i % 2 = 0 then a.getD (i / 2) d else b.getD (i / 2) d := by
  obtain ⟨heven, hodd⟩ := interleave_getD (i / 2) d h
  split
  · rwa [show 2 * (i / 2) = i by omega] at heven
  · rwa [show 2 * (i / 2) + 1 = i by omega] at hodd

/-- A shuffle by the reversing mask reverses, whatever the second vector is (R173, R174). -/
theorem shuffle_reverse {es : Nat} {v : List (BitVec (8 * es))} (o : List (BitVec (8 * es)))
    {mask : List (BitVec (8 * 2))} (hlen : mask.length = v.length)
    (h : ∀ i < v.length, (mask.getD i 0).toNat = v.length - 1 - i) : shuffle (v ++ o) mask = v.reverse := by
  have hlen' : (shuffle (v ++ o) mask).length = v.reverse.length := by simp [hlen]
  refine List.ext_getElem hlen' fun i h1 h2 => ?_
  have hi : i < v.length := by simpa using h2
  rw [← getD_of_lt 0 h1, ← getD_of_lt 0 h2, shuffle_getD _ (by omega), h i hi, reverse_getD v hi, append_getD,
    if_pos (by omega)]

/-! ## The checks pass (R218, R219) -/

theorem sliceChecks_ok {s : State} {t : EType} {n w : LogCount} {off : BitVec 16}
    (hw : count n * t.esize ≤ s.cfg.vlenb) (hoff : off.toNat + count w ≤ count n) :
    firstFault (sliceChecks s t n off w) = none := by
  simp [sliceChecks, firstFault_cons, tooWide_eq_false.mpr hw, unsignedAmount, Nat.not_lt.mpr hoff]

theorem joinCheck_ok {s : State} {t : EType} {n : LogCount} (hn : n.val ≤ 14)
    (hw : 2 * count n * t.esize ≤ s.cfg.vlenb) : firstFault [joinCheck s t n] = none := by
  simp [joinCheck, firstFault_cons, tooWide_eq_false.mpr hw, hn]

theorem splitChecks_ok {s : State} {vd vd2 : VReg} {t : EType} {n : LogCount} (hne : vd ≠ vd2)
    (hw : count n * t.esize ≤ s.cfg.vlenb) (hn : 2 ≤ count n) : firstFault (splitChecks s vd vd2 t n) = none := by
  simp [splitChecks, firstFault_cons, tooWide_eq_false.mpr hw, hne, Nat.not_lt.mpr hn]

theorem shuffleCheck_ok {s : State} {t : EType} {n m : LogCount} (hn : count n * t.esize ≤ s.cfg.vlenb)
    (hm : count m * t.esize ≤ s.cfg.vlenb) (hmask : 2 * count m ≤ s.cfg.vlenb) :
    firstFault [shuffleCheck s t n m] = none := by
  simp [shuffleCheck, firstFault_cons, tooWide_eq_false.mpr hn, tooWide_eq_false.mpr hm, tooWide_eq_false.mpr hmask]

/-! ## Slice, insert, join, interleave (R160 to R162, R164) -/

section SliceInsert
variable {s : State} {t : EType} {n w : LogCount} {off : BitVec 16}
  (hw : count n * t.esize ≤ s.cfg.vlenb) (hoff : off.toNat + count w ≤ count n)
include hw hoff

theorem exec_slice_ok (vd vs : VReg) : ∃ u, exec (.slice vd vs t n off w) s = .next u ∧
    s.WroteLanes u vd (count w) fun j => s.lane 0 vs t.esize (off.toNat + j) := by
  have hexec : execSlice vd vs t n off w s = _ := command_ok (sliceChecks_ok hw hoff)
  refine ⟨_, hexec, wroteLanes_of (esize_pos t) s vd _ 1 ?_ ?_ fun j hj => ?_⟩
  · exact sliceLanes_length (by rw [lanesRd_length]; exact hoff)
  · exact (Nat.mul_le_mul_right t.esize (by omega)).trans hw
  · rw [sliceLanes_getD _ _ hj, unsignedAmount, lanesRd_getD _ _ _ _ (by omega)]

theorem exec_insert_ok (vd vs vv : VReg) : ∃ u, exec (.insert vd vs vv t n off w) s = .next u ∧
    s.WroteLanes u vd (count n) fun i =>
      if off.toNat ≤ i ∧ i < off.toNat + count w then s.lane 1 vv t.esize (i - off.toNat)
      else s.lane 0 vs t.esize i := by
  have hfit : unsignedAmount off + (s.lanesRd 1 vv t.esize (count w)).length ≤
      (s.lanesRd 0 vs t.esize (count n)).length := by
    simpa [unsignedAmount] using hoff
  have hexec : execInsert vd vs vv t n off w s = _ := command_ok (sliceChecks_ok hw hoff)
  refine ⟨_, hexec, wroteLanes_of (esize_pos t) s vd _ 2 ?_ hw fun i hi => ?_⟩
  · rw [insertLanes_length hfit, lanesRd_length]
  · rw [insertLanes_getD 0 hfit, lanesRd_length, unsignedAmount]
    split
    · rw [lanesRd_getD _ _ _ _ (by omega)]
    · rw [lanesRd_getD _ _ _ _ hi]

end SliceInsert

section Join
variable {s : State} {t : EType} {n : LogCount} (hn : n.val ≤ 14) (hw : 2 * count n * t.esize ≤ s.cfg.vlenb)
include hn hw

theorem exec_join_ok (vd va vb : VReg) : ∃ u, exec (.join vd va vb t n) s = .next u ∧
    s.WroteLanes u vd (2 * count n) fun i =>
      if i < count n then s.lane 0 va t.esize i else s.lane 1 vb t.esize (i - count n) := by
  have hexec : execJoin vd va vb t n s = _ := command_ok (joinCheck_ok hn hw)
  refine ⟨_, hexec, wroteLanes_of (esize_pos t) s vd _ 2 ?_ hw fun i hi => ?_⟩
  · rw [List.length_append, lanesRd_length, lanesRd_length, Nat.two_mul]
  · rw [append_getD, lanesRd_length]
    split
    · rw [lanesRd_getD _ _ _ _ (by omega)]
    · rw [lanesRd_getD _ _ _ _ (by omega)]

theorem exec_ilv_ok (vd va vb : VReg) : ∃ u, exec (.ilv vd va vb t n) s = .next u ∧
    s.WroteLanes u vd (2 * count n) fun i =>
      if i % 2 = 0 then s.lane 0 va t.esize (i / 2) else s.lane 1 vb t.esize (i / 2) := by
  have hlen : (s.lanesRd 0 va t.esize (count n)).length = (s.lanesRd 1 vb t.esize (count n)).length := by
    rw [lanesRd_length, lanesRd_length]
  have hexec : execIlv vd va vb t n s = _ := command_ok (joinCheck_ok hn hw)
  refine ⟨_, hexec, wroteLanes_of (esize_pos t) s vd _ 2 ?_ hw fun i hi => ?_⟩
  · rw [interleave_length hlen, lanesRd_length]
  · rw [interleave_getD_parity hlen, lanesRd_getD _ _ _ _ (by omega), lanesRd_getD _ _ _ _ (by omega)]

end Join

/-! ## Split and deinterleave (R163, R165) -/

theorem two_mul_half_count {n : LogCount} (hn : 2 ≤ count n) : 2 * (count n / 2) = count n := by
  obtain ⟨_ | k, hk⟩ := n
  · simp [count] at hn
  · rw [count, Nat.pow_succ]
    omega

section Split
variable {s : State} {vd vd2 : VReg} {t : EType} {n : LogCount} (hne : vd ≠ vd2)
  (hw : count n * t.esize ≤ s.cfg.vlenb) (hn : 2 ≤ count n)
include hne hw hn

theorem exec_split_ok (vs : VReg) : ∃ u, exec (.split vd vd2 vs t n) s = .next u ∧ s.WritesOnly u [vd, vd2] ∧
    (u.HoldsLanes vd (count n / 2) fun i => s.lane 0 vs t.esize i) ∧
    u.HoldsLanes vd2 (count n / 2) fun i => s.lane 0 vs t.esize (count n / 2 + i) := by
  have heven := two_mul_half_count hn
  have hexec : execSplit vd vd2 vs t n s = _ := command_ok (splitChecks_ok hne hw hn)
  refine ⟨_, hexec, wrotePair_of (esize_pos t) s hne _ _ 1 ?_ ?_ ?_ (fun i hi => ?_) fun i hi => ?_⟩
  · rw [List.length_take, lanesRd_length]; omega
  · rw [List.length_drop, lanesRd_length]; omega
  · exact (Nat.mul_le_mul_right t.esize (Nat.div_le_self _ _)).trans hw
  · rw [take_getD _ _ hi, lanesRd_getD _ _ _ _ (by omega)]
  · rw [drop_getD, lanesRd_getD _ _ _ _ (by omega)]

theorem exec_dilv_ok (vs : VReg) : ∃ u, exec (.dilv vd vd2 vs t n) s = .next u ∧ s.WritesOnly u [vd, vd2] ∧
    (u.HoldsLanes vd (count n / 2) fun i => s.lane 0 vs t.esize (2 * i)) ∧
    u.HoldsLanes vd2 (count n / 2) fun i => s.lane 0 vs t.esize (2 * i + 1) := by
  have heven := two_mul_half_count hn
  have hexec : execDilv vd vd2 vs t n s = _ := command_ok (splitChecks_ok hne hw hn)
  refine ⟨_, hexec, wrotePair_of (esize_pos t) s hne _ _ 1 ?_ ?_ ?_ (fun i hi => ?_) fun i hi => ?_⟩
  · rw [evens_length, lanesRd_length]; omega
  · rw [odds_length, lanesRd_length]
  · exact (Nat.mul_le_mul_right t.esize (Nat.div_le_self _ _)).trans hw
  · rw [evens_getD, lanesRd_getD _ _ _ _ (by omega)]
  · rw [odds_getD, lanesRd_getD _ _ _ _ (by omega)]

end Split

/-! ## Shuffles (R166, R167, R172)

Both shuffles read VS1 as operand 0; the other vector is operand `k` in register `vo` (VS1 again for SHUF1), the mask
operand `j` in register `vm`, and `r` is the count of the registers read. -/

section Shuffle
variable {s : State} {t : EType} {n m : LogCount} (hn : count n * t.esize ≤ s.cfg.vlenb)
  (hm : count m * t.esize ≤ s.cfg.vlenb) (hmask : 2 * count m ≤ s.cfg.vlenb)
include hn hm hmask

theorem exec_shuf1_eq (vd vs vm : VReg) : exec (.shuf1 vd vs vm t n m) s = .next (shuffleFrom vd (count n) 2
    (s.lanesRd 0 vs t.esize (count n) ++ s.lanesRd 0 vs t.esize (count n)) (s.lanesRd 1 vm 2 (count m)) s) := by
  rw [exec, execShuf1, shuffleCheck_ok hn hm hmask]

theorem exec_shuf2_eq (vd vs vo vm : VReg) : exec (.shuf2 vd vs vo vm t n m) s = .next (shuffleFrom vd (count n) 3
    (s.lanesRd 0 vs t.esize (count n) ++ s.lanesRd 1 vo t.esize (count n)) (s.lanesRd 2 vm 2 (count m)) s) := by
  rw [exec, execShuf2, shuffleCheck_ok hn hm hmask]

end Shuffle

theorem shuffleFrom_lanes {es : Nat} (hes : 0 < es) (s : State) (vd vs vo vm : VReg) (k j r : Nat) {n m : Nat}
    (h : ∀ i < m, (s.lane j vm 2 i).toNat < 2 * n) (hfit : m * es ≤ s.cfg.vlenb) :
    s.WroteLanes (shuffleFrom vd n r (s.lanesRd 0 vs es n ++ s.lanesRd k vo es n) (s.lanesRd j vm 2 m) s) vd m fun i =>
      if (s.lane j vm 2 i).toNat < n then s.lane 0 vs es (s.lane j vm 2 i).toNat
      else s.lane k vo es ((s.lane j vm 2 i).toNat - n) := by
  have hlegal : ∀ i < (s.lanesRd j vm 2 m).length, ((s.lanesRd j vm 2 m).getD i 0).toNat < 2 * n := by
    intro i hi
    rw [lanesRd_length] at hi
    rw [lanesRd_getD _ _ _ _ hi]
    exact h i hi
  have hlanes := shuffleFrom_ok hes vd n r (s.lanesRd 0 vs es n ++ s.lanesRd k vo es n) _ s hlegal
    (by rw [lanesRd_length]; exact hfit)
  rw [lanesRd_length] at hlanes
  refine WroteLanes_congr hlanes fun i hi => ?_
  have hentry := h i hi
  rw [lanesRd_getD _ _ _ _ hi, append_getD, lanesRd_length]
  split
  · rw [lanesRd_getD _ _ _ _ (by omega)]
  · rw [lanesRd_getD _ _ _ _ (by omega)]

theorem shuffleFrom_faults {es : Nat} (s : State) (vd vm : VReg) (c : List (BitVec (8 * es))) (j r : Nat) {n m i : Nat}
    (hi : i < m) (hbad : 2 * n ≤ (s.lane j vm 2 i).toNat) (hlow : ∀ x < i, (s.lane j vm 2 x).toNat < 2 * n) :
    s.Faults (.next (shuffleFrom vd n r c (s.lanesRd j vm 2 m) s)) .range (0x80000000 ||| BitVec.ofNat 32 i)
      s.headWord := by
  rw [shuffleFrom_fault vd n r i c (s.lanesRd j vm 2 m) s (by rwa [lanesRd_length])
    (by rwa [lanesRd_getD _ _ _ _ hi])
    (fun x hx => by rw [lanesRd_getD _ _ _ _ (by omega)]; exact hlow x hx)]
  exact ⟨_, rfl⟩

/-! ## Rotate, shift, reverse (R168 to R171, R173) -/

section Lanewise
variable {s : State} {t : EType} {n : LogCount} (hw : count n * t.esize ≤ s.cfg.vlenb)
include hw

theorem lanewise_lanes {outOfRange : Bool} (hrange : outOfRange = false)
    {f : List (BitVec (8 * t.esize)) → List (BitVec (8 * t.esize))} (hlen : ∀ v, (f v).length = v.length)
    (vd vs : VReg) {g : Nat → BitVec (8 * t.esize)}
    (hg : ∀ i < count n, (f (s.lanesRd 0 vs t.esize (count n))).getD i 0 = g i) :
    ∃ u, lanewise t n outOfRange f vd vs s = .next u ∧ s.WroteLanes u vd (count n) g := by
  subst hrange
  obtain ⟨u, hu, hlanes⟩ := lanewise_ok t n f vd vs s hlen hw
  exact ⟨u, hu, WroteLanes_congr hlanes hg⟩

omit hw in
/-- A rotation of the lanes read is the lanes at the rotated indices. -/
theorem rotate_lanesRd_getD (vs : VReg) (x : Int) {i : Nat} (hi : i < count n) :
    (rotate (s.lanesRd 0 vs t.esize (count n)) x).getD i 0 =
      s.lane 0 vs t.esize (((i : Int) + x) % (count n : Int)).toNat := by
  rw [rotate_getD _ _ (by rwa [lanesRd_length]), lanesRd_length, lanesRd_getD _ _ _ _ (toNat_emod_lt _ (count_pos n))]

theorem exec_rotl_ok (vd vs : VReg) {sh : BitVec 16} (hlo : -(count n : Int) ≤ sh.toInt) (hhi : sh.toInt < count n)
    (hone : count n = 1 → sh.toInt = 0) : ∃ u, exec (.rotl vd vs t n sh) s = .next u ∧
      s.WroteLanes u vd (count n) fun i => s.lane 0 vs t.esize (((i : Int) + sh.toInt) % (count n : Int)).toNat :=
  lanewise_lanes hw (decide_eq_false (by unfold signedAmount; omega)) (fun v => rotate_length v _) vd vs
    fun _ hi => rotate_lanesRd_getD vs _ hi

theorem exec_rotr_ok (vd vs : VReg) {sh : BitVec 16} (hlo : -(count n : Int) < sh.toInt) (hhi : sh.toInt ≤ count n)
    (hone : count n = 1 → sh.toInt = 0) : ∃ u, exec (.rotr vd vs t n sh) s = .next u ∧
      s.WroteLanes u vd (count n) fun i => s.lane 0 vs t.esize (((i : Int) - sh.toInt) % (count n : Int)).toNat :=
  lanewise_lanes hw (decide_eq_false (by unfold signedAmount; omega)) (fun v => rotate_length v _) vd vs
    fun _ hi => rotate_lanesRd_getD vs _ hi

theorem exec_shll_ok (vd vs : VReg) {sh : BitVec 16} (hsh : sh.toNat ≤ count n) :
    ∃ u, exec (.shll vd vs t n sh) s = .next u ∧ s.WroteLanes u vd (count n) fun i =>
      if i + sh.toNat < count n then s.lane 0 vs t.esize (i + sh.toNat) else 0 := by
  refine lanewise_lanes hw (decide_eq_false (Nat.not_lt.mpr hsh)) (fun v => shiftDown_length v _) vd vs fun i hi => ?_
  rw [shiftDown_getD _ _ (by rwa [lanesRd_length]), lanesRd_length, unsignedAmount]
  split
  case isTrue hlt => rw [lanesRd_getD _ _ _ _ hlt]
  case isFalse => rfl

theorem exec_shrl_ok (vd vs : VReg) {sh : BitVec 16} (hsh : sh.toNat ≤ count n) :
    ∃ u, exec (.shrl vd vs t n sh) s = .next u ∧ s.WroteLanes u vd (count n) fun i =>
      if sh.toNat ≤ i then s.lane 0 vs t.esize (i - sh.toNat) else 0 := by
  refine lanewise_lanes hw (decide_eq_false (Nat.not_lt.mpr hsh)) (fun v => shiftUp_length v _) vd vs fun i hi => ?_
  rw [shiftUp_getD _ _ (by rwa [lanesRd_length]), unsignedAmount]
  split
  · rw [lanesRd_getD _ _ _ _ (by omega)]
  · rfl

theorem exec_rev_eq (vd vs : VReg) : exec (.rev vd vs t n) s =
    .next (retire ((s.lanesWr vd (s.lanesRd 0 vs t.esize (count n)).reverse).drew 1)) := by
  have hchecks : firstFault [widthCheck (s.tooWide (count n * t.esize)), rangeCheck false] = none := by
    simp [firstFault_cons, tooWide_eq_false.mpr hw]
  rw [exec, execRev, lanewise, command_ok hchecks]

theorem exec_rev_ok (vd vs : VReg) : ∃ u, exec (.rev vd vs t n) s = .next u ∧
    s.WroteLanes u vd (count n) fun i => s.lane 0 vs t.esize (count n - 1 - i) := by
  refine ⟨_, exec_rev_eq hw vd vs,
    wroteLanes_of (esize_pos t) s vd _ 1 (by rw [List.length_reverse, lanesRd_length]) hw fun i hi => ?_⟩
  rw [reverse_getD _ (by rwa [lanesRd_length]), lanesRd_length, lanesRd_getD _ _ _ _ (by omega)]

end Lanewise

/-! ## Lane types of one size (R159)

A PERM command has its element type for the lane size alone: with the definition written out, the type occurs as
`t.esize` only. -/

section LaneType
variable {t t' : EType} (h : t.esize = t'.esize) (vd vd2 vs vs2 vs3 : VReg) (n m : LogCount) (off : BitVec 16)
  (s : State)
include h

theorem execSlice_congr : execSlice vd vs t n off m s = execSlice vd vs t' n off m s := by
  simp only [execSlice, sliceChecks]
  rw [h]

theorem execInsert_congr : execInsert vd vs vs2 t n off m s = execInsert vd vs vs2 t' n off m s := by
  simp only [execInsert, sliceChecks]
  rw [h]

theorem execJoin_congr : execJoin vd vs vs2 t n s = execJoin vd vs vs2 t' n s := by
  simp only [execJoin, joinCheck]
  rw [h]

theorem execSplit_congr : execSplit vd vd2 vs t n s = execSplit vd vd2 vs t' n s := by
  simp only [execSplit, splitChecks]
  rw [h]

theorem execIlv_congr : execIlv vd vs vs2 t n s = execIlv vd vs vs2 t' n s := by
  simp only [execIlv, joinCheck]
  rw [h]

theorem execDilv_congr : execDilv vd vd2 vs t n s = execDilv vd vd2 vs t' n s := by
  simp only [execDilv, splitChecks]
  rw [h]

theorem execShuf1_congr : execShuf1 vd vs vs2 t n m s = execShuf1 vd vs vs2 t' n m s := by
  simp only [execShuf1, shuffleCheck]
  rw [h]

theorem execShuf2_congr : execShuf2 vd vs vs2 vs3 t n m s = execShuf2 vd vs vs2 vs3 t' n m s := by
  simp only [execShuf2, shuffleCheck]
  rw [h]

theorem lanewise_congr (outOfRange : Bool) (f : {es : Nat} → List (BitVec (8 * es)) → List (BitVec (8 * es))) :
    lanewise t n outOfRange f vd vs s = lanewise t' n outOfRange f vd vs s := by
  simp only [lanewise]
  rw [h]

end LaneType

/-! ## Two commands, one after the other (R174) -/

/-- REV and SHUF1 by the reversing mask write the same list of lanes. -/
theorem rev_eq_shuf1 {s : State} {t : EType} {n : LogCount} {vm : VReg} (hw : count n * t.esize ≤ s.cfg.vlenb)
    (hmask : 2 * count n ≤ s.cfg.vlenb) (h : ∀ i < count n, (s.lane 1 vm 2 i).toNat = count n - 1 - i)
    (vd va : VReg) : ∃ u u', exec (.rev vd va t n) s = .next u ∧ exec (.shuf1 vd va vm t n n) s = .next u' ∧
      u.reg vd = u'.reg vd := by
  have hentry : ∀ i < count n, ((s.lanesRd 1 vm 2 (count n)).getD i 0).toNat = count n - 1 - i := by
    intro i hi
    rw [lanesRd_getD _ _ _ _ hi]
    exact h i hi
  have hlegal : badEntry (count n) (s.lanesRd 1 vm 2 (count n)) = none := by
    refine badEntry_eq_none.mpr fun i hi => ?_
    rw [lanesRd_length] at hi
    rw [hentry i hi]
    omega
  have hrev := shuffle_reverse (s.lanesRd 0 va t.esize (count n)) (v := s.lanesRd 0 va t.esize (count n))
    (mask := s.lanesRd 1 vm 2 (count n)) (by rw [lanesRd_length, lanesRd_length])
    (by rw [lanesRd_length]; exact hentry)
  refine ⟨_, _, exec_rev_eq hw vd va, exec_shuf1_eq hw hw hmask vd va vm, ?_⟩
  rw [shuffleFrom, hlegal, hrev]
  rfl

section Identities
variable {s : State} {t : EType} {n n' : LogCount} (vd r va vb : VReg)

/-- The vector of twice the lanes. -/
theorem count_succ (hn : n'.val = n.val + 1) : count n' = 2 * count n := by
  rw [count, hn, Nat.pow_succ, Nat.mul_comm, count]

theorem split_join {vd vd2 : VReg} (hn : n'.val = n.val + 1) (hw : 2 * count n * t.esize ≤ s.cfg.vlenb)
    (hne : vd ≠ vd2) : ∃ s1 s2, exec (.join r va vb t n) s = .next s1 ∧ exec (.split vd vd2 r t n') s1 = .next s2 ∧
      (s2.HoldsLanes vd (count n) fun i => s.lane 0 va t.esize i) ∧
      s2.HoldsLanes vd2 (count n) fun i => s.lane 1 vb t.esize i := by
  have hcount := count_succ hn
  have hpos := count_pos n
  obtain ⟨s1, h1, hjoin⟩ := exec_join_ok (by omega) hw r va vb
  have hw' : count n' * t.esize ≤ s1.cfg.vlenb := by rwa [hcount, hjoin.only.retired.cfg]
  obtain ⟨s2, h2, -, hlow, hhigh⟩ := exec_split_ok hne hw' (by omega) r
  rw [hcount, Nat.mul_div_cancel_left _ Nat.two_pos] at hlow hhigh
  refine ⟨s1, s2, h1, h2, HoldsLanes_congr hlow fun i hi => ?_, HoldsLanes_congr hhigh fun i hi => ?_⟩
  · rw [hjoin.holds.lanes i (by omega), if_pos hi]
  · rw [hjoin.holds.lanes _ (by omega), if_neg (by omega), Nat.add_sub_cancel_left]

theorem dilv_ilv {vd vd2 : VReg} (hn : n'.val = n.val + 1) (hw : 2 * count n * t.esize ≤ s.cfg.vlenb)
    (hne : vd ≠ vd2) : ∃ s1 s2, exec (.ilv r va vb t n) s = .next s1 ∧ exec (.dilv vd vd2 r t n') s1 = .next s2 ∧
      (s2.HoldsLanes vd (count n) fun i => s.lane 0 va t.esize i) ∧
      s2.HoldsLanes vd2 (count n) fun i => s.lane 1 vb t.esize i := by
  have hcount := count_succ hn
  have hpos := count_pos n
  obtain ⟨s1, h1, hilv⟩ := exec_ilv_ok (by omega) hw r va vb
  have hw' : count n' * t.esize ≤ s1.cfg.vlenb := by rwa [hcount, hilv.only.retired.cfg]
  obtain ⟨s2, h2, -, heven, hodd⟩ := exec_dilv_ok hne hw' (by omega) r
  rw [hcount, Nat.mul_div_cancel_left _ Nat.two_pos] at heven hodd
  refine ⟨s1, s2, h1, h2, HoldsLanes_congr heven fun i hi => ?_, HoldsLanes_congr hodd fun i hi => ?_⟩
  · rw [hilv.holds.lanes _ (by omega), if_pos (by omega), show 2 * i / 2 = i by omega]
  · rw [hilv.holds.lanes _ (by omega), if_neg (by omega), show (2 * i + 1) / 2 = i by omega]

theorem slice_join {sh : BitVec 16} (hn : n'.val = n.val + 1) (hw : 2 * count n * t.esize ≤ s.cfg.vlenb)
    (hsh : sh.toNat = count n) : ∃ s1 s2, exec (.join r va vb t n) s = .next s1 ∧
      exec (.slice vd r t n' sh n) s1 = .next s2 ∧ s2.HoldsLanes vd (count n) fun i => s.lane 1 vb t.esize i := by
  have hcount := count_succ hn
  obtain ⟨s1, h1, hjoin⟩ := exec_join_ok (by omega) hw r va vb
  have hw' : count n' * t.esize ≤ s1.cfg.vlenb := by rwa [hcount, hjoin.only.retired.cfg]
  obtain ⟨s2, h2, hslice⟩ := exec_slice_ok (w := n) (off := sh) hw' (by omega) vd r
  refine ⟨s1, s2, h1, h2, HoldsLanes_congr hslice.holds fun i hi => ?_⟩
  rw [hsh, hjoin.holds.lanes _ (by omega), if_neg (by omega), Nat.add_sub_cancel_left]

theorem rotr_rotl {sh : BitVec 16} (hw : count n * t.esize ≤ s.cfg.vlenb) (hlo : -(count n : Int) < sh.toInt)
    (hhi : sh.toInt < count n) (hone : count n = 1 → sh.toInt = 0) :
    ∃ s1 s2, exec (.rotl r va t n sh) s = .next s1 ∧ exec (.rotr vd r t n sh) s1 = .next s2 ∧
      s2.HoldsLanes vd (count n) fun i => s.lane 0 va t.esize i := by
  obtain ⟨s1, h1, hrotl⟩ := exec_rotl_ok hw r va (by omega) hhi hone
  have hw' : count n * t.esize ≤ s1.cfg.vlenb := by rwa [hrotl.only.retired.cfg]
  obtain ⟨s2, h2, hrotr⟩ := exec_rotr_ok hw' vd r hlo (by omega) hone
  refine ⟨s1, s2, h1, h2, HoldsLanes_congr hrotr.holds fun i hi => ?_⟩
  rw [hrotl.holds.lanes _ (toNat_emod_lt _ (count_pos n)), rotated_index hi]

theorem shrl_shll {sh : BitVec 16} (hw : count n * t.esize ≤ s.cfg.vlenb) (hsh : sh.toNat ≤ count n) :
    ∃ s1 s2, exec (.shll r va t n sh) s = .next s1 ∧ exec (.shrl vd r t n sh) s1 = .next s2 ∧
      s2.HoldsLanes vd (count n) fun i => if i < sh.toNat then 0 else s.lane 0 va t.esize i := by
  obtain ⟨s1, h1, hshll⟩ := exec_shll_ok hw r va hsh
  have hw' : count n * t.esize ≤ s1.cfg.vlenb := by rwa [hshll.only.retired.cfg]
  obtain ⟨s2, h2, hshrl⟩ := exec_shrl_ok hw' vd r hsh
  refine ⟨s1, s2, h1, h2, HoldsLanes_congr hshrl.holds fun i hi => ?_⟩
  rcases Nat.lt_or_ge i sh.toNat with hlow | hhigh
  · rw [if_neg (by omega), if_pos hlow]
  · rw [if_pos hhigh, if_neg (by omega), hshll.holds.lanes _ (by omega), if_pos (by omega), Nat.sub_add_cancel hhigh]

theorem insert_whole (hw : count n * t.esize ≤ s.cfg.vlenb) :
    ∃ u, exec (.insert vd va vb t n 0 n) s = .next u ∧
      u.HoldsLanes vd (count n) fun i => s.lane 1 vb t.esize i := by
  obtain ⟨u, hu, hinsert⟩ := exec_insert_ok (w := n) (off := 0) hw (by simp) vd va vb
  exact ⟨u, hu, HoldsLanes_congr hinsert.holds fun i hi => if_pos (by simpa using hi)⟩

end Identities

/-! ## The statements -/

/-- Settles O47: under their shared checks both commands complete. -/
theorem sliceAndInsertComplete : Obligations.SliceAndInsertComplete := fun _ vd vs vv _ _ _ _ hw hoff =>
  ⟨exec_slice_ok hw hoff vd vs, exec_insert_ok hw hoff vd vs vv⟩

/-- Settles O48: two commands under the check of the joined width, two under that of distinct destinations. -/
theorem joinAndSplitComplete : Obligations.JoinAndSplitComplete := fun _ vd _ va vb _ _ =>
  ⟨fun hn hw => ⟨exec_join_ok hn hw vd va vb, exec_ilv_ok hn hw vd va vb⟩,
   fun hne hw hn => ⟨exec_split_ok hne hw hn va, exec_dilv_ok hne hw hn va⟩⟩

/-- Settles O49: both shuffles are one operation on two vectors and a mask. -/
theorem shufflesCompleteOrFault : Obligations.ShufflesCompleteOrFault := by
  intro s vd vs vo vm t n m hn hm hmask entry1 entry2
  rw [exec_shuf1_eq hn hm hmask, exec_shuf2_eq hn hm hmask]
  refine ⟨fun h => ⟨_, rfl, ?_⟩, fun h => ⟨_, rfl, ?_⟩, fun j hj => ⟨fun hbad hlow => ?_, fun hbad hlow => ?_⟩⟩
  · exact shuffleFrom_lanes (esize_pos t) s vd vs vs vm 0 1 2 h hm
  · exact shuffleFrom_lanes (esize_pos t) s vd vs vo vm 1 2 3 h hm
  · exact shuffleFrom_faults s vd vm _ 1 2 hj hbad hlow
  · exact shuffleFrom_faults s vd vm _ 2 3 hj hbad hlow

/-- Settles O50: five commands of one template, each with the index its lanes come from. -/
theorem rotatesShiftsReverseComplete : Obligations.RotatesShiftsReverseComplete := fun _ vd vs _ _ _ hw =>
  ⟨exec_rotl_ok hw vd vs, exec_rotr_ok hw vd vs, fun hsh => ⟨exec_shll_ok hw vd vs hsh, exec_shrl_ok hw vd vs hsh⟩,
   exec_rev_ok hw vd vs⟩

/-- Settles O51, identity by identity. -/
theorem structuralIdentities : Obligations.StructuralIdentities := by
  intro s r vd vd2 va vb vm t n n' sh N a b
  refine ⟨fun hn hw hne => ⟨?_, ?_⟩, fun hw hlo hhi hone => ?_, fun hw hmask h => ?_, fun hn hw hsh => ?_, fun hw => ?_,
    fun hw hsh => ?_⟩
  · exact split_join r va vb hn hw hne
  · exact dilv_ilv r va vb hn hw hne
  · exact rotr_rotl vd r va hw hlo hhi hone
  · exact rev_eq_shuf1 hw hmask h vd va
  · exact slice_join vd r va vb hn hw hsh
  · exact insert_whole vd va vb hw
  · exact shrl_shll vd r va hw hsh

/-- Settles O21: each command has its type for the lane size alone. -/
theorem permutationsIgnoreLaneType : Obligations.PermutationsIgnoreLaneType := by
  intro s t t' h vd vd2 vs vs2 vs3 n m off
  exact ⟨execSlice_congr h vd vs n m off s, execInsert_congr h vd vs vs2 n m off s, execJoin_congr h vd vs vs2 n s,
    execSplit_congr h vd vd2 vs n s, execIlv_congr h vd vs vs2 n s, execDilv_congr h vd vd2 vs n s,
    execShuf1_congr h vd vs vs2 n m s, execShuf2_congr h vd vs vs2 vs3 n m s,
    lanewise_congr h vd vs n s _ fun v => rotate v (signedAmount off),
    lanewise_congr h vd vs n s _ fun v => rotate v (-signedAmount off),
    lanewise_congr h vd vs n s _ fun v => shiftDown v (unsignedAmount off),
    lanewise_congr h vd vs n s _ fun v => shiftUp v (unsignedAmount off),
    lanewise_congr h vd vs n s _ List.reverse⟩

end Sys2Proof.Machine
end

section
/-!
SUPPORT. Float addition, multiplication, minimum and maximum (R193 to R195) in every format of R11 that fits the
pattern's width: each case of `classify`, then the rules in terms of patterns and their values.
-/
namespace Sys2Proof.Machine

/-! ## Addition and multiplication by the operands' classes -/

section Cases
variable {f : FloatFmt} {w : Nat} {nan a b : BitVec w}

theorem FloatFmt.add_nan_left (h : f.classify a = .nan) : f.add nan a b = nan := by simp only [add, h]

theorem FloatFmt.add_nan_right (h : f.classify b = .nan) : f.add nan a b = nan := by
  cases ha : f.classify a <;> simp only [add, ha, h]

theorem FloatFmt.add_infinities {na nb : Bool} (ha : f.classify a = .inf na) (hb : f.classify b = .inf nb) :
    f.add nan a b = if na = nb then f.infinity w na else nan := by
  simp only [add, ha, hb, signed_infMagnitude]

theorem FloatFmt.add_infinity_left {na nb : Bool} {mb : Nat} {eb : Int} (ha : f.classify a = .inf na)
    (hb : f.classify b = .finite nb mb eb) : f.add nan a b = f.infinity w na := by
  simp only [add, ha, hb, signed_infMagnitude]

theorem FloatFmt.add_infinity_right {na nb : Bool} {ma : Nat} {ea : Int} (ha : f.classify a = .finite na ma ea)
    (hb : f.classify b = .inf nb) : f.add nan a b = f.infinity w nb := by
  simp only [add, ha, hb, signed_infMagnitude]

/-- The sum of two finite values in units of the smaller of their two last places. -/
def alignedSum (na : Bool) (ma : Nat) (ea : Int) (nb : Bool) (mb : Nat) (eb : Int) : Int :=
  signedMant na ma * 2 ^ (ea - min ea eb).toNat + signedMant nb mb * 2 ^ (eb - min ea eb).toNat

theorem FloatFmt.add_finite {na nb : Bool} {ma mb : Nat} {ea eb : Int} (ha : f.classify a = .finite na ma ea)
    (hb : f.classify b = .finite nb mb eb) :
    f.add nan a b = if alignedSum na ma ea nb mb eb = 0 then f.zero w (na && nb)
      else f.round w (decide (alignedSum na ma ea nb mb eb < 0)) (alignedSum na ma ea nb mb eb).natAbs (min ea eb) := by
  simp only [add, ha, hb]
  rfl

theorem FloatFmt.mul_nan_left (h : f.classify a = .nan) : f.mul nan a b = nan := by simp only [mul, h]

theorem FloatFmt.mul_nan_right (h : f.classify b = .nan) : f.mul nan a b = nan := by
  cases ha : f.classify a <;> simp only [mul, ha, h]

theorem FloatFmt.mul_infinities {na nb : Bool} (ha : f.classify a = .inf na) (hb : f.classify b = .inf nb) :
    f.mul nan a b = f.infinity w (na != nb) := by
  simp only [mul, ha, hb, signed_infMagnitude]

theorem FloatFmt.mul_infinity_left {na nb : Bool} {mb : Nat} {eb : Int} (ha : f.classify a = .inf na)
    (hb : f.classify b = .finite nb mb eb) :
    f.mul nan a b = if mb = 0 then nan else f.infinity w (na != nb) := by
  simp only [mul, ha, hb, signed_infMagnitude]

theorem FloatFmt.mul_infinity_right {na nb : Bool} {ma : Nat} {ea : Int} (ha : f.classify a = .finite na ma ea)
    (hb : f.classify b = .inf nb) : f.mul nan a b = if ma = 0 then nan else f.infinity w (na != nb) := by
  simp only [mul, ha, hb, signed_infMagnitude]

theorem FloatFmt.mul_finite {na nb : Bool} {ma mb : Nat} {ea eb : Int} (ha : f.classify a = .finite na ma ea)
    (hb : f.classify b = .finite nb mb eb) : f.mul nan a b = f.round w (na != nb) (ma * mb) (ea + eb) := by
  simp only [mul, ha, hb]

end Cases

/-! ## Exchanged operands (R197) -/

theorem alignedSum_comm (na : Bool) (ma : Nat) (ea : Int) (nb : Bool) (mb : Nat) (eb : Int) :
    alignedSum na ma ea nb mb eb = alignedSum nb mb eb na ma ea := by
  rw [alignedSum, alignedSum, add_comm, min_comm]

section Commute
variable (f : FloatFmt) {w : Nat} (nan a b : BitVec w)

protected theorem FloatFmt.add_comm : f.add nan a b = f.add nan b a := by
  cases ha : f.classify a with
  | nan => rw [add_nan_left ha, add_nan_right ha]
  | inf na =>
    cases hb : f.classify b with
    | nan => rw [add_nan_left hb, add_nan_right hb]
    | inf nb =>
      rw [add_infinities ha hb, add_infinities hb ha]
      rcases Bool.eq_or_eq_not na nb with rfl | rfl <;> simp
    | finite nb mb eb => rw [add_infinity_left ha hb, add_infinity_right hb ha]
  | finite na ma ea =>
    cases hb : f.classify b with
    | nan => rw [add_nan_left hb, add_nan_right hb]
    | inf nb => rw [add_infinity_left hb ha, add_infinity_right ha hb]
    | finite nb mb eb => rw [add_finite ha hb, add_finite hb ha, alignedSum_comm, Bool.and_comm, min_comm]

protected theorem FloatFmt.mul_comm : f.mul nan a b = f.mul nan b a := by
  cases ha : f.classify a with
  | nan => rw [mul_nan_left ha, mul_nan_right ha]
  | inf na =>
    cases hb : f.classify b with
    | nan => rw [mul_nan_left hb, mul_nan_right hb]
    | inf nb => rw [mul_infinities ha hb, mul_infinities hb ha, bne_comm]
    | finite nb mb eb => rw [mul_infinity_left ha hb, mul_infinity_right hb ha, bne_comm]
  | finite na ma ea =>
    cases hb : f.classify b with
    | nan => rw [mul_nan_left hb, mul_nan_right hb]
    | inf nb => rw [mul_infinity_left hb ha, mul_infinity_right ha hb, bne_comm]
    | finite nb mb eb => rw [mul_finite ha hb, mul_finite hb ha, bne_comm, Nat.mul_comm, Int.add_comm]

end Commute

/-! ## Addition (R193) -/

theorem signedMant_cast (neg : Bool) (m : Nat) : (signedMant neg m : ℚ) = signFactor neg * m := by
  cases neg <;> simp [signedMant, signFactor]

/-- An integer is its sign times its magnitude. -/
theorem signFactor_mul_natAbs (x : Int) : signFactor (decide (x < 0)) * x.natAbs = (x : ℚ) := by
  rw [Nat.cast_natAbs]
  rcases lt_or_ge x 0 with h | h
  · simp [signFactor, h, abs_of_neg h]
  · simp [signFactor, h.not_gt, abs_of_nonneg h]

/-- The value of a finite pattern, by what `classify` reads off it. -/
theorem FloatFmt.exists_classify {f : FloatFmt} {w : Nat} {x : BitVec w} (h : f.isFinite x = true) :
    ∃ m e, f.classify x = .finite (f.sign x) m e ∧ f.realValue x = signFactor (f.sign x) * m * (2 : ℚ) ^ e := by
  obtain ⟨m, e, hclass, -, -, hval⟩ := classify_of_isFinite h
  exact ⟨m, e, hclass, by rw [f.realValue_eq, ← hval, mul_assoc]⟩

theorem alignedSum_value (na : Bool) (ma : Nat) (ea : Int) (nb : Bool) (mb : Nat) (eb : Int) :
    (alignedSum na ma ea nb mb eb : ℚ) * (2 : ℚ) ^ min ea eb =
      signFactor na * ma * (2 : ℚ) ^ ea + signFactor nb * mb * (2 : ℚ) ^ eb := by
  have hshift : ∀ e : Int, min ea eb ≤ e → (2 : ℚ) ^ (e - min ea eb).toNat * (2 : ℚ) ^ min ea eb = (2 : ℚ) ^ e := by
    intro e he
    rw [← zpow_natCast, ← zpow_add₀ two_ne_zero, Int.toNat_of_nonneg (by omega), Int.sub_add_cancel]
  rw [alignedSum]
  push_cast
  rw [add_mul, mul_assoc, hshift ea (min_le_left _ _), mul_assoc _ _ ((2 : ℚ) ^ min ea eb),
    hshift eb (min_le_right _ _), signedMant_cast, signedMant_cast]

/-- A finite pattern of value 0 is the zero of its sign. -/
theorem FloatFmt.eq_zero_of_realValue {f : FloatFmt} {w : Nat} (hf : f.Fits w) {x : BitVec w}
    (h : f.realValue x = 0) : x = f.zero w (f.sign x) := by
  have hmag : f.magnitude x = 0 := by
    refine f.magnitudeValue_strictMono.injective ?_
    rw [← f.abs_realValue, h, abs_zero, f.magnitudeValue_zero]
  rw [← signed_sign_magnitude hf x, hmag, sign_signed hf (Nat.two_pow_pos _)]
  rfl

theorem FloatFmt.sign_zeroPattern {f : FloatFmt} {w : Nat} (hf : f.Fits w) (neg : Bool) : f.sign (f.zero w neg) = neg :=
  sign_signed hf (Nat.two_pow_pos _) neg

theorem FloatFmt.realValue_nonpos {f : FloatFmt} {w : Nat} {x : BitVec w} (h : f.sign x = true) :
    f.realValue x ≤ 0 := by
  have := f.magnitudeValue_nonneg (f.magnitude x)
  rw [f.realValue_eq, h]
  simpa [signFactor]

theorem FloatFmt.realValue_nonneg {f : FloatFmt} {w : Nat} {x : BitVec w} (h : f.sign x = false) :
    0 ≤ f.realValue x := by
  have := f.magnitudeValue_nonneg (f.magnitude x)
  rw [f.realValue_eq, h]
  simpa [signFactor]

/-- The operands of an exact zero sum are both negative exactly when both are the negative zero. -/
theorem FloatFmt.signs_of_zero_sum {f : FloatFmt} {w : Nat} (hf : f.Fits w) {a b : BitVec w}
    (h : f.realValue a + f.realValue b = 0) :
    (f.sign a && f.sign b) = decide (a = f.zero w true ∧ b = f.zero w true) := by
  rw [Bool.eq_iff_iff, Bool.and_eq_true, decide_eq_true_iff]
  constructor
  · rintro ⟨ha, hb⟩
    have hva := realValue_nonpos ha
    have hvb := realValue_nonpos hb
    have hza := eq_zero_of_realValue hf (x := a) (by linarith)
    have hzb := eq_zero_of_realValue hf (x := b) (by linarith)
    rw [ha] at hza
    rw [hb] at hzb
    exact ⟨hza, hzb⟩
  · rintro ⟨rfl, rfl⟩
    exact ⟨sign_zeroPattern hf true, sign_zeroPattern hf true⟩

section AddRules
variable {f : FloatFmt} {w : Nat} (hf : f.Fits w) (nan : BitVec w) {a b : BitVec w}
include hf

/-- The sum of two finite patterns: the zero of R193, or the exact sum rounded. -/
theorem FloatFmt.add_of_finite (ha : f.isFinite a = true) (hb : f.isFinite b = true) :
    (f.realValue a + f.realValue b = 0 → f.add nan a b = f.zero w (f.sign a && f.sign b)) ∧
    (f.realValue a + f.realValue b ≠ 0 → f.RoundsTo (f.add nan a b) (decide (f.realValue a + f.realValue b < 0))
      (f.realValue a + f.realValue b)) := by
  obtain ⟨ma, ea, hca, hva⟩ := exists_classify ha
  obtain ⟨mb, eb, hcb, hvb⟩ := exists_classify hb
  have hsum := alignedSum_value (f.sign a) ma ea (f.sign b) mb eb
  rw [← hva, ← hvb] at hsum
  rw [add_finite hca hcb, ← hsum]
  generalize alignedSum (f.sign a) ma ea (f.sign b) mb eb = sum
  generalize min ea eb = e
  have hunit : (0 : ℚ) < (2 : ℚ) ^ e := by positivity
  constructor
  · intro hzero
    have : sum = 0 := by simpa [hunit.ne'] using hzero
    rw [if_pos this]
  · intro hne
    have hne : sum ≠ 0 := by rintro rfl; simp at hne
    have hneg : (sum : ℚ) * (2 : ℚ) ^ e < 0 ↔ sum < 0 := by
      rw [← not_le, mul_nonneg_iff_of_pos_right hunit, not_le, Int.cast_lt_zero]
    rw [if_neg hne, decide_eq_decide.mpr hneg, ← signFactor_mul_natAbs]
    exact round_roundsTo hf _ _ _

theorem FloatFmt.addRules : f.AddRules nan (f.add nan) where
  ofNaN a b h := by
    rcases h with h | h
    · exact add_nan_left (classify_of_isNaNPattern h)
    · exact add_nan_right (classify_of_isNaNPattern h)
  oppositeInfinities n := by
    rw [add_infinities (classify_infinity hf n) (classify_infinity hf !n), if_neg (by simp)]
  sameInfinities n := by
    rw [add_infinities (classify_infinity hf n) (classify_infinity hf n), if_pos rfl]
  infinity n a ha := by
    obtain ⟨m, e, hclass, -⟩ := exists_classify ha
    exact ⟨add_infinity_left (classify_infinity hf n) hclass, add_infinity_right hclass (classify_infinity hf n)⟩
  zeroSum a b ha hb h := by
    rw [(add_of_finite hf nan ha hb).1 h, signs_of_zero_sum hf h]
  sum a b ha hb h := (add_of_finite hf nan ha hb).2 h

end AddRules

/-- Settles O44: the rules hold in every format that fits its patterns. -/
theorem floatAddition : Obligations.FloatAddition := fun c =>
  ⟨FloatFmt.addRules fmtF32_fits c.nanF32, FloatFmt.addRules fmtF64_fits c.nanF64⟩

/-! ## Multiplication (R194) -/

theorem signFactor_bne (na nb : Bool) : signFactor (na != nb) = signFactor na * signFactor nb := by
  cases na <;> cases nb <;> simp [signFactor]

theorem FloatFmt.mulRules {f : FloatFmt} {w : Nat} (hf : f.Fits w) (nan : BitVec w) :
    f.MulRules nan (f.mul nan) where
  ofNaN a b h := by
    rcases h with h | h
    · exact mul_nan_left (classify_of_isNaNPattern h)
    · exact mul_nan_right (classify_of_isNaNPattern h)
  infinityZero n m := by
    have hinf := classify_infinity hf n
    have hzero := classify_zero hf m
    exact ⟨(mul_infinity_left hinf hzero).trans (if_pos rfl), (mul_infinity_right hzero hinf).trans (if_pos rfl)⟩
  infinities n m := mul_infinities (classify_infinity hf n) (classify_infinity hf m)
  infinity n a ha hne := by
    obtain ⟨m, e, hclass, hval⟩ := exists_classify ha
    have hinf := classify_infinity hf n
    have hm : m ≠ 0 := by rintro rfl; exact hne (by rw [hval]; simp)
    exact ⟨(mul_infinity_left hinf hclass).trans (if_neg hm),
      (mul_infinity_right hclass hinf).trans (by rw [if_neg hm, bne_comm])⟩
  product a b ha hb := by
    obtain ⟨ma, ea, hca, hva⟩ := exists_classify ha
    obtain ⟨mb, eb, hcb, hvb⟩ := exists_classify hb
    have hvalue : f.realValue a * f.realValue b =
        signFactor (f.sign a != f.sign b) * (ma * mb : ℕ) * (2 : ℚ) ^ (ea + eb) := by
      rw [hva, hvb, signFactor_bne, zpow_add₀ two_ne_zero]
      push_cast
      ring
    rw [mul_finite hca hcb, hvalue]
    exact round_roundsTo hf _ _ _

/-- Settles O45: the rules hold in every format that fits its patterns. -/
theorem floatMultiplication : Obligations.FloatMultiplication := fun c =>
  ⟨FloatFmt.mulRules fmtF32_fits c.nanF32, FloatFmt.mulRules fmtF64_fits c.nanF64⟩

/-! ## Minimum and maximum (R195) -/

section Order
variable {f : FloatFmt} {w : Nat} (hf : f.Fits w) {a b : BitVec w}

theorem FloatFmt.orderKey_eq (f : FloatFmt) (x : BitVec w) :
    f.orderKey x = if f.sign x then -(f.magnitude x : Int) - 1 else f.magnitude x := rfl

include hf

/-- A pattern that is no NaN is finite or an infinity. -/
theorem FloatFmt.finite_or_infinity (h : f.isNaNPattern a = false) :
    f.isFinite a = true ∨ ∃ neg, a = f.infinity w neg := by
  rcases ((f.not_isNaNPattern_iff a).mp h).lt_or_eq with hlt | heq
  · exact .inl ((f.isFinite_iff a).mpr hlt)
  · refine .inr ⟨f.sign a, ?_⟩
    rw [← signed_infMagnitude, ← heq, signed_sign_magnitude hf]

theorem FloatFmt.isNaN_eq (x : BitVec w) : f.isNaN x = f.isNaNPattern x := by
  cases h : f.isNaNPattern x with
  | true => rw [isNaN, classify_of_isNaNPattern h]; rfl
  | false =>
    rcases finite_or_infinity hf h with hfin | ⟨neg, rfl⟩
    · obtain ⟨m, e, hclass, -⟩ := exists_classify hfin
      rw [isNaN, hclass]; rfl
    · rw [isNaN, classify_infinity hf]; rfl

theorem FloatFmt.orderKey_injective : Function.Injective (f.orderKey (w := w)) := by
  intro a b h
  rw [orderKey_eq, orderKey_eq] at h
  rw [← signed_sign_magnitude hf a, ← signed_sign_magnitude hf b]
  cases ha : f.sign a <;> cases hb : f.sign b <;> simp only [ha, hb, if_true, Bool.false_eq_true, if_false] at h
  case false.false => rw [Int.ofNat_inj.mp h]
  case true.true => rw [show f.magnitude a = f.magnitude b by omega]
  -- a negative pattern's key is negative, a positive one's is not
  all_goals omega

theorem FloatFmt.orderKey_infinity (neg : Bool) :
    f.orderKey (f.infinity w neg) = if neg then -(f.infMagnitude : Int) - 1 else f.infMagnitude := by
  have hsign : f.sign (f.infinity w neg) = neg := sign_signed hf f.infMagnitude_lt neg
  have hmag : f.magnitude (f.infinity w neg) = f.infMagnitude := magnitude_signed hf f.infMagnitude_lt neg
  rw [orderKey_eq, hsign, hmag]

omit hf in
theorem FloatFmt.orderKey_bounds (h : f.isNaNPattern a = false) :
    -(f.infMagnitude : Int) - 1 ≤ f.orderKey a ∧ f.orderKey a ≤ f.infMagnitude := by
  have hmag := (f.not_isNaNPattern_iff a).mp h
  rw [orderKey_eq]
  split <;> omega

omit hf in
/-- A smaller key means a smaller value, or the negative zero before the positive one. -/
theorem FloatFmt.realValue_of_orderKey_lt (h : f.orderKey a < f.orderKey b) :
    f.realValue a < f.realValue b ∨ (f.realValue a = f.realValue b ∧ f.sign a = true ∧ f.sign b = false) := by
  rw [orderKey_eq, orderKey_eq] at h
  cases ha : f.sign a <;> cases hb : f.sign b <;> simp only [ha, hb, if_true, Bool.false_eq_true, if_false] at h
  case false.true => omega
  case true.false =>
    rcases ((realValue_nonpos ha).trans (realValue_nonneg hb)).lt_or_eq with hlt | heq
    · exact .inl hlt
    · exact .inr ⟨heq, rfl, rfl⟩
  case false.false =>
    have hval := f.magnitudeValue_strictMono (Int.ofNat_lt.mp h)
    exact .inl (by simpa [realValue_eq, ha, hb, signFactor] using hval)
  case true.true =>
    have hval := f.magnitudeValue_strictMono (show f.magnitude b < f.magnitude a by omega)
    exact .inl (by simpa [realValue_eq, ha, hb, signFactor] using hval)

/-- The model's key puts the patterns that are no NaNs in the order of R195. -/
theorem FloatFmt.atMost_of_orderKey_le (ha : f.isNaNPattern a = false) (hb : f.isNaNPattern b = false)
    (h : f.orderKey a ≤ f.orderKey b) : f.AtMost a b := by
  rcases h.eq_or_lt with heq | hlt
  · exact .inl (orderKey_injective hf heq)
  rcases finite_or_infinity hf ha with hfa | ⟨neg, rfl⟩
  · rcases finite_or_infinity hf hb with hfb | ⟨neg, rfl⟩
    · exact .inr (.inr (.inr ⟨hfa, hfb, realValue_of_orderKey_lt hlt⟩))
    · cases neg with
      | false => exact .inr (.inr (.inl rfl))
      | true =>
        rw [orderKey_infinity hf, if_pos rfl] at hlt
        exact absurd (orderKey_bounds ha).1 hlt.not_ge
  · cases neg with
    | true => exact .inr (.inl rfl)
    | false =>
      rw [orderKey_infinity hf, if_neg Bool.false_ne_true] at hlt
      exact absurd (orderKey_bounds hb).2 hlt.not_ge

section MinMax
variable (nan : BitVec w)

theorem FloatFmt.minimum_comm : f.minimum nan a b = f.minimum nan b a := by
  rw [minimum, minimum, Bool.or_comm]
  rcases lt_trichotomy (f.orderKey a) (f.orderKey b) with hlt | heq | hgt
  · rw [if_pos hlt.le, if_neg hlt.not_ge]
  · rw [orderKey_injective hf heq]
  · rw [if_neg hgt.not_ge, if_pos hgt.le]

theorem FloatFmt.maximum_comm : f.maximum nan a b = f.maximum nan b a := by
  rw [maximum, maximum, Bool.or_comm]
  rcases lt_trichotomy (f.orderKey a) (f.orderKey b) with hlt | heq | hgt
  · rw [if_neg hlt.not_ge, if_pos hlt.le]
  · rw [orderKey_injective hf heq]
  · rw [if_pos hgt.le, if_neg hgt.not_ge]

theorem FloatFmt.minMaxRules : f.MinMaxRules nan (f.minimum nan) (f.maximum nan) where
  ofNaN a b h := by
    rw [minimum, maximum, isNaN_eq hf, isNaN_eq hf, if_pos (by simpa using h), if_pos (by simpa using h)]
    exact ⟨rfl, rfl⟩
  least a b ha hb := by
    rw [minimum, isNaN_eq hf, isNaN_eq hf, ha, hb, if_neg (by simp)]
    split
    case isTrue hle => exact .inl ⟨rfl, atMost_of_orderKey_le hf ha hb hle⟩
    case isFalse hgt => exact .inr ⟨rfl, atMost_of_orderKey_le hf hb ha (le_of_not_ge hgt)⟩
  greatest a b ha hb := by
    rw [maximum, isNaN_eq hf, isNaN_eq hf, ha, hb, if_neg (by simp)]
    split
    case isTrue hle => exact .inl ⟨rfl, atMost_of_orderKey_le hf hb ha hle⟩
    case isFalse hgt => exact .inr ⟨rfl, atMost_of_orderKey_le hf ha hb (le_of_not_ge hgt)⟩

end MinMax

end Order

/-- Settles O46: the rules hold in every format that fits its patterns. -/
theorem floatMinimumMaximum : Obligations.FloatMinimumMaximum := fun c =>
  ⟨FloatFmt.minMaxRules fmtF32_fits c.nanF32, FloatFmt.minMaxRules fmtF64_fits c.nanF64⟩

end Sys2Proof.Machine
end

section
/-!
SUPPORT. The RED commands (spec/43_reduce.md, R190 to R206) and the order of their combiners' operands (R197): the tree
as one value per output lane, what it computes for the integer combiners, and the seven commands when their checks pass.
-/
namespace Sys2Proof.Machine

/-! ## The tree by output lane (R191) -/

section Tree
variable {α : Type} {op : α → α → α} {k : Nat} {f : Nat → α}

/-- What the tree of R191 makes of the `2 ^ k` values one output lane combines. -/
def treeValue (op : α → α → α) : (k : Nat) → (Nat → α) → α
  | 0, f => f 0
  | k + 1, f => treeValue op k fun i => op (f i) (f (i + 2 ^ k))

theorem treeValue_congr {g : Nat → α} (h : ∀ i < 2 ^ k, f i = g i) : treeValue op k f = treeValue op k g := by
  induction k generalizing f g with
  | zero => exact h 0 Nat.one_pos
  | succ k ih =>
    refine ih fun i hi => ?_
    rw [h i (by omega), h (i + 2 ^ k) (by omega)]

/-- A halving as R191 writes it, lane by lane. -/
theorem halve_eq_map (op : α → α → α) (v : List α) (d : α) :
    halve op v = (List.range (v.length / 2)).map fun i => op (v.getD i d) (v.getD (i + v.length / 2) d) := by
  refine List.ext_getElem (by simp [halve_length]) fun i hi _ => ?_
  rw [← getD_of_lt d hi, halve_getD op d (by rwa [← halve_length op])]
  simp

/-- Output lane j of a reduction to `2 ^ o` lanes is the tree over the source lanes j, j + 2^o, j + 2 * 2^o, ... -/
theorem reduceTree_getD (op : α → α → α) (d : α) {o j : Nat} {v : List α} (hv : v.length = 2 ^ (k + o))
    (hj : j < 2 ^ o) : (reduceTree op k v).getD j d = treeValue op k fun i => v.getD (j + i * 2 ^ o) d := by
  induction k generalizing v with
  | zero => simp [reduceTree, treeValue]
  | succ k ih =>
    have hhalf : v.length / 2 = 2 ^ (k + o) := by
      rw [hv, Nat.add_right_comm, Nat.pow_succ, Nat.mul_div_cancel _ Nat.two_pos]
    rw [reduceTree, ih (by rw [halve_length, hhalf])]
    refine treeValue_congr fun i hi => ?_
    have hlane : j + i * 2 ^ o < 2 ^ (k + o) := by
      have := Nat.mul_le_mul_right (2 ^ o) (Nat.succ_le_of_lt hi)
      rw [Nat.succ_mul, ← Nat.pow_add] at this
      omega
    rw [halve_getD op d (by rwa [hhalf]), hhalf, Nat.pow_add, Nat.add_assoc, ← Nat.add_mul]

/-- The tree keeps a product: the combiner may be read in any commutative monoid. -/
theorem treeValue_prod {M : Type} [CommMonoid M] (φ : α → M) (h : ∀ a b, φ (op a b) = φ a * φ b) :
    φ (treeValue op k f) = ∏ i ∈ Finset.range (2 ^ k), φ (f i) := by
  induction k generalizing f with
  | zero => simp [treeValue]
  | succ k ih =>
    rw [treeValue, ih, Nat.pow_succ, Nat.mul_two, Finset.prod_range_add, ← Finset.prod_mul_distrib]
    exact Finset.prod_congr rfl fun i _ => by rw [h, Nat.add_comm i]

/-- A property two values have together exactly when their combination has it, all values have exactly when the tree's
value has it. -/
theorem treeValue_iff_forall {p : α → Prop} (h : ∀ a b, p (op a b) ↔ p a ∧ p b) :
    p (treeValue op k f) ↔ ∀ i < 2 ^ k, p (f i) := by
  induction k generalizing f with
  | zero => simp [treeValue]
  | succ k ih =>
    rw [treeValue, ih]
    simp only [h]
    constructor
    · intro hall i hi
      rcases Nat.lt_or_ge i (2 ^ k) with hlow | hhigh
      · exact (hall i hlow).1
      · have := (hall (i - 2 ^ k) (by omega)).2
        rwa [Nat.sub_add_cancel hhigh] at this
    · exact fun hall i hi => ⟨hall i (by omega), hall _ (by omega)⟩

/-- A combiner that answers one of its operands makes the tree answer one of its values. -/
theorem treeValue_mem (h : ∀ a b, op a b = a ∨ op a b = b) : ∃ i < 2 ^ k, treeValue op k f = f i := by
  induction k generalizing f with
  | zero => exact ⟨0, Nat.one_pos, rfl⟩
  | succ k ih =>
    obtain ⟨i, hi, heq⟩ := ih (f := fun i => op (f i) (f (i + 2 ^ k)))
    rw [treeValue, heq]
    rcases h (f i) (f (i + 2 ^ k)) with h | h
    · exact ⟨i, by omega, h⟩
    · exact ⟨i + 2 ^ k, by omega, h⟩

end Tree

/-- Settles O40: a halving lane by lane, and the tree over an output lane's own source lanes. -/
theorem reductionTreePairsHalves : Obligations.ReductionTreePairsHalves := by
  intro α op d
  refine ⟨fun v => rfl, fun k v => ?_, fun k o v v' hv hv' => ⟨reduceTree_length op k hv, fun j hj hlanes => ?_⟩⟩
  · rw [reduceTree, halve_eq_map op v d]
  · rw [reduceTree_getD op d hv hj, reduceTree_getD op d hv' hj, treeValue_congr hlanes]

/-! ## The integer combiners (R192) -/

section Integer
variable {t : EType} (ht : t.isInteger = true)
include ht

/-- Integer lanes are combined by the operation on their bits. -/
theorem combiner_integer (f32Op : BitVec 32 → BitVec 32 → BitVec 32) (f64Op : BitVec 64 → BitVec 64 → BitVec 64)
    (intOp : BitVec (8 * t.esize) → BitVec (8 * t.esize) → BitVec (8 * t.esize)) :
    combiner t f32Op f64Op intOp = intOp := by
  cases t
  case f32 => cases ht
  case f64 => cases ht
  all_goals rfl

theorem addLane_integer (c : Config) : addLane c t = fun a b => a + b := combiner_integer ht _ _ _

theorem mulLane_integer (c : Config) : mulLane c t = fun a b => a * b := combiner_integer ht _ _ _

theorem minLane_integer (c : Config) : minLane c t = fun a b => if intLe t a b then a else b :=
  combiner_integer ht _ _ _

theorem maxLane_integer (c : Config) : maxLane c t = fun a b => if intLe t b a then a else b :=
  combiner_integer ht _ _ _

end Integer

/-- A lane's place in the order of its type: its two's-complement value for the i types, its unsigned value else. -/
def intKey (t : EType) {w : Nat} (a : BitVec w) : Int := if isSigned t then a.toInt else a.toNat

theorem intLe_iff (t : EType) {w : Nat} {a b : BitVec w} : intLe t a b = true ↔ intKey t a ≤ intKey t b := by
  cases h : isSigned t with
  | false => simp [intLe, intKey, h, BitVec.ule]
  | true => simp [intLe, intKey, h, BitVec.sle]

theorem intKey_injective (t : EType) (w : Nat) : Function.Injective (intKey t (w := w)) := by
  intro a b h
  cases hs : isSigned t with
  | false => exact BitVec.eq_of_toNat_eq (by simpa [intKey, hs] using h)
  | true => exact BitVec.eq_of_toInt_eq (by simpa [intKey, hs] using h)

section MinMax
variable {t : EType} (ht : t.isInteger = true) (c : Config) (a b : BitVec (8 * t.esize))
include ht

theorem minLane_choice : minLane c t a b = a ∨ minLane c t a b = b := by
  rw [minLane_integer ht]
  exact ite_eq_or_eq _ _ _

theorem maxLane_choice : maxLane c t a b = a ∨ maxLane c t a b = b := by
  rw [maxLane_integer ht]
  exact ite_eq_or_eq _ _ _

theorem intKey_minLane : intKey t (minLane c t a b) = min (intKey t a) (intKey t b) := by
  simp only [minLane_integer ht, intLe_iff, min_def, apply_ite (intKey t)]

theorem intKey_maxLane : intKey t (maxLane c t a b) = max (intKey t a) (intKey t b) := by
  rw [max_comm]
  simp only [maxLane_integer ht, intLe_iff, max_def, apply_ite (intKey t)]

end MinMax

/-- Settles O42: the combiner of an integer type is the operation on the lanes' bits. -/
theorem integerCombiners : Obligations.IntegerCombiners := by
  intro c t a b ht
  have hunsigned : ∀ t ∈ [EType.u8, .u16, .u32, .u64, .u128, .u256], isSigned t = false := by decide
  have hsigned : ∀ t ∈ [EType.i8, .i16, .i32, .i64, .i128, .i256], isSigned t = true := by decide
  rw [addLane_integer ht, mulLane_integer ht, minLane_integer ht, maxLane_integer ht]
  refine ⟨BitVec.toNat_add a b, BitVec.toNat_mul a b, fun h => ?_, fun h => ?_⟩
  · simp [intLe_iff, intKey, hunsigned t h]
  · simp [intLe_iff, intKey, hsigned t h]

/-! ## Totals (R191, R192, R196) -/

section Totals
variable {w k : Nat} (f : Nat → BitVec w)

/-- Lanes added in a tree, each step modulo 2^w, give the sum modulo 2^w. -/
theorem toNat_treeValue_add :
    (treeValue (fun a b => a + b) k f).toNat = (∑ i ∈ Finset.range (2 ^ k), (f i).toNat) % 2 ^ w := by
  have hsum := treeValue_prod (op := fun a b => a + b) (k := k) (f := f)
    (fun x : BitVec w => Multiplicative.ofAdd (x.toNat : ZMod (2 ^ w))) fun a b => by
      rw [← ofAdd_add, BitVec.toNat_add, ZMod.natCast_mod, Nat.cast_add]
  rw [← ofAdd_sum, Multiplicative.ofAdd.injective.eq_iff, ← Nat.cast_sum, ZMod.natCast_eq_natCast_iff',
    Nat.mod_eq_of_lt (BitVec.isLt _)] at hsum
  exact hsum

/-- Lanes multiplied in a tree, each step modulo 2^w, give the product modulo 2^w. -/
theorem toNat_treeValue_mul :
    (treeValue (fun a b => a * b) k f).toNat = (∏ i ∈ Finset.range (2 ^ k), (f i).toNat) % 2 ^ w := by
  have hprod := treeValue_prod (op := fun a b => a * b) (k := k) (f := f)
    (fun x : BitVec w => (x.toNat : ZMod (2 ^ w))) fun a b => by
      rw [BitVec.toNat_mul, ZMod.natCast_mod, Nat.cast_mul]
  rw [← Nat.cast_prod, ZMod.natCast_eq_natCast_iff', Nat.mod_eq_of_lt (BitVec.isLt _)] at hprod
  exact hprod

theorem getLsbD_treeValue_and (b : Nat) :
    (treeValue (fun x y => x &&& y) k f).getLsbD b = true ↔ ∀ i < 2 ^ k, (f i).getLsbD b = true :=
  treeValue_iff_forall (p := fun x : BitVec w => x.getLsbD b = true) fun x y => by simp

/-- By the clear bits: a bit of an OR is clear exactly when it is clear in both operands. -/
theorem getLsbD_treeValue_or (b : Nat) :
    (treeValue (fun x y => x ||| y) k f).getLsbD b = true ↔ ∃ i < 2 ^ k, (f i).getLsbD b = true := by
  have hclear := treeValue_iff_forall (op := fun x y => x ||| y) (k := k) (f := f)
    (p := fun x : BitVec w => x.getLsbD b = false) fun x y => by simp
  rw [← not_iff_not, Bool.not_eq_true, hclear]
  simp

theorem popcount_toNat (x : BitVec w) :
    (popcount x).toNat = ((Finset.range w).filter fun b => x.getLsbD b).card % 2 ^ w := by
  rw [popcount, BitVec.toNat_ofNat, List.countP_eq_length_filter]
  simp [Finset.card_def, Multiset.range]

theorem map_popcount_getD (v : List (BitVec w)) (i : Nat) :
    (v.map popcount).getD i 0 = popcount (v.getD i 0) := by
  have hzero : popcount (0 : BitVec w) = 0 := by simp [popcount]
  rw [← List.getD_map (f := popcount), hzero]

end Totals

section MinMaxTotals
variable {t : EType} (ht : t.isInteger = true) (c : Config) (k : Nat) (f : Nat → BitVec (8 * t.esize))
include ht

/-- A bound is below the tree's minimum exactly when it is below every lane; the minimum itself is such a bound. -/
theorem treeValue_minLane_le {i : Nat} (hi : i < 2 ^ k) :
    intLe t (treeValue (minLane c t) k f) (f i) = true := by
  have hleast := treeValue_iff_forall (op := minLane c t) (k := k) (f := f)
    (p := fun x => intKey t (treeValue (minLane c t) k f) ≤ intKey t x) fun a b => by
      rw [intKey_minLane ht, le_min_iff]
  exact (intLe_iff t).mpr (hleast.mp le_rfl i hi)

theorem le_treeValue_maxLane {i : Nat} (hi : i < 2 ^ k) :
    intLe t (f i) (treeValue (maxLane c t) k f) = true := by
  have hgreatest := treeValue_iff_forall (op := maxLane c t) (k := k) (f := f)
    (p := fun x => intKey t x ≤ intKey t (treeValue (maxLane c t) k f)) fun a b => by
      rw [intKey_maxLane ht, max_le_iff]
  exact (intLe_iff t).mpr (hgreatest.mp le_rfl i hi)

end MinMaxTotals

/-- Settles O41: each total over the tree of an output lane. -/
theorem integerReductionTotals : Obligations.IntegerReductionTotals := by
  intro c t k o j v hv hj w lane out
  have hout : ∀ op, out op = treeValue op k lane := fun op => reduceTree_getD op 0 hv hj
  refine ⟨fun ht => ⟨?_, ?_, ?_, ?_, ?_, ?_⟩, fun b _ => ⟨?_, ?_⟩, ?_⟩
  · rw [hout, addLane_integer ht, toNat_treeValue_add]
  · rw [hout, mulLane_integer ht, toNat_treeValue_mul]
  · rw [hout]
    exact treeValue_mem (minLane_choice ht c)
  · rw [hout]
    exact fun i hi => treeValue_minLane_le ht c k lane hi
  · rw [hout]
    exact treeValue_mem (maxLane_choice ht c)
  · rw [hout]
    exact fun i hi => le_treeValue_maxLane ht c k lane hi
  · rw [hout, getLsbD_treeValue_and]
  · rw [hout, getLsbD_treeValue_or]
  · rw [reduceTree_getD _ 0 (by rwa [List.length_map]) hj, toNat_treeValue_add]
    simp only [map_popcount_getD, popcount_toNat, w, lane, ← Finset.sum_nat_mod]

/-! ## The commands (R190, R200 to R206) -/

/-- A reduction of an admitted type that prepares its lanes by nothing. -/
theorem reduction_lanes {admitted : Bool} (h : admitted = true) {t : EType} {n o : LogCount} {s : State}
    (ho : o.val ≤ n.val) (hw : count n * t.esize ≤ s.cfg.vlenb)
    (op : BitVec (8 * t.esize) → BitVec (8 * t.esize) → BitVec (8 * t.esize)) (vd vs : VReg) :
    ∃ u, reduction admitted t (fun x => x) op vd vs n o s = .next u ∧
      s.WroteLanes u vd (count o) fun j =>
        (reduceTree op (n.val - o.val) (s.lanesRd 0 vs t.esize (count n))).getD j 0 := by
  subst h
  simpa only [List.map_id'] using reduction_ok t (fun x => x) op vd vs n o s ho hw

/-- Settles O39: seven commands of one template. -/
theorem reductionsComplete : Obligations.ReductionsComplete := by
  intro s vd vs t n o ho hw v k
  refine ⟨fun ht => ⟨?_, ?_, ?_, ?_⟩, fun ht => ⟨?_, ?_, ?_⟩⟩
  · exact reduction_lanes ht ho hw (addLane s.cfg t) vd vs
  · exact reduction_lanes ht ho hw (mulLane s.cfg t) vd vs
  · exact reduction_lanes ht ho hw (minLane s.cfg t) vd vs
  · exact reduction_lanes ht ho hw (maxLane s.cfg t) vd vs
  · exact reduction_lanes ht ho hw (fun a b => a &&& b) vd vs
  · exact reduction_lanes ht ho hw (fun a b => a ||| b) vd vs
  · have hadmitted : Opcode.admits .redpopc t = true := ht
    rw [exec, execRedpopc, hadmitted]
    exact reduction_ok t popcount (fun a b => a + b) vd vs n o s ho hw

/-! ## Exchanged operands (R197) -/

section Commute
variable {t : EType} (ht : t.isInteger = true) (c : Config) (a b : BitVec (8 * t.esize))
include ht

theorem minLane_comm_integer : minLane c t a b = minLane c t b a :=
  intKey_injective t _ (by rw [intKey_minLane ht, intKey_minLane ht, min_comm])

theorem maxLane_comm_integer : maxLane c t a b = maxLane c t b a :=
  intKey_injective t _ (by rw [intKey_maxLane ht, intKey_maxLane ht, max_comm])

end Commute

theorem isNumeric_cases {t : EType} (h : t.isNumeric = true) : t.isInteger = true ∨ t = .f32 ∨ t = .f64 := by
  simpa [EType.isNumeric, or_assoc] using h

/-- Settles O43: integer combiners by the operation or the key of the order, float combiners by the operands' classes or
the key of the order. -/
theorem combinersCommute : Obligations.CombinersCommute := by
  intro c t a b
  refine ⟨fun h => ?_, BitVec.and_comm a b, BitVec.or_comm a b⟩
  rcases isNumeric_cases h with ht | rfl | rfl
  · rw [addLane_integer ht, mulLane_integer ht]
    exact ⟨BitVec.add_comm a b, BitVec.mul_comm a b, minLane_comm_integer ht c a b, maxLane_comm_integer ht c a b⟩
  · exact ⟨fmtF32.add_comm _ a b, fmtF32.mul_comm _ a b, FloatFmt.minimum_comm fmtF32_fits _,
      FloatFmt.maximum_comm fmtF32_fits _⟩
  · exact ⟨fmtF64.add_comm _ a b, fmtF64.mul_comm _ a b, FloatFmt.minimum_comm fmtF64_fits _,
      FloatFmt.maximum_comm fmtF64_fits _⟩

end Sys2Proof.Machine
end

section
/-!
SUPPORT. Faults and the interrupt line (R213, R220 to R225), over every event: the fault report while ERR = 1, the
return from a fault, and what raises the interrupt.
-/
namespace Sys2Proof.Machine

/-! ## Ports by their offsets (R29) -/

/-- STATUS stands at its own offset alone. -/
theorem portAt_eq_status {c : Config} {off : Nat} (h : portAt c off = .status) : off = 0x00C := by
  simpa [registerMap] using portAt_mem h (by simp) (by simp)

/-- CMD_HI stands at its own offset alone. -/
theorem portAt_eq_cmdHi {c : Config} {off : Nat} (h : portAt c off = .cmdHi) : off = 0x034 := by
  simpa [registerMap] using portAt_mem h (by simp) (by simp)

/-! ## The fault report (R35 to R38) -/

/-- ERR and the fault report of `u` are those of `s`. -/
def State.SameReport (s u : State) : Prop :=
  u.err = s.err ∧ u.cause = s.cause ∧ u.faultIdx = s.faultIdx ∧ u.faultInfo = s.faultInfo ∧ u.faultCmd = s.faultCmd

/-- While ERR = 1 no write but one that clears ERR and one that resets the block reaches the report (R221 to R223). -/
theorem writePort_sameReport {v : Word} {p : Port} {s : State} (herr : s.err = true)
    (hstatus : p = .status → v.getLsbD 2 = false) (hctrl : p = .ctrl → v.getLsbD 31 = false) :
    s.SameReport (writePort v s p) := by
  cases p with
  | ctrl => rw [writePort, writeCtrl_of_not_srst s (hctrl rfl)]; exact ⟨rfl, rfl, rfl, rfl, rfl⟩
  | status =>
    rw [writePort, writeStatus_eq, hstatus rfl]
    exact ⟨Bool.and_true _, rfl, rfl, rfl, rfl⟩
  | cmdHi =>
    have hpush : push v s = { s with dropped := true } := if_pos herr
    rw [writePort, hpush]
    exact ⟨rfl, rfl, rfl, rfl, rfl⟩
  | _ => exact ⟨rfl, rfl, rfl, rfl, rfl⟩

/-! ## The interrupt line (R225) -/

theorem irq_iff (s : State) :
    s.irq = true ↔ (s.done = true ∧ s.ieDone = true) ∨ (s.err = true ∧ s.ieErr = true) := by
  simp [State.irq]

/-- The line is a function of DONE, ERR and their enables. -/
theorem irq_congr {s u : State} (hdone : u.done = s.done) (herr : u.err = s.err) (hieDone : u.ieDone = s.ieDone)
    (hieErr : u.ieErr = s.ieErr) : u.irq = s.irq := by
  rw [State.irq, State.irq, hdone, herr, hieDone, hieErr]

/-- A write to STATUS can only lower the line: it sets neither DONE nor ERR (R34). -/
theorem irq_of_writeStatus {v : Word} {s : State} (h : (writeStatus v s).irq = true) : s.irq = true := by
  rw [irq_iff, writeStatus_eq] at h
  simp only [Bool.and_eq_true] at h
  exact (irq_iff s).mpr (h.imp (fun ⟨hdone, hie⟩ => ⟨hdone.1, hie⟩) fun ⟨herr, hie⟩ => ⟨herr.1, hie⟩)

/-- Of the writes, only one to CTRL and a push that faults can raise the line. -/
theorem writePort_raises {v : Word} {p : Port} {s : State} (hlow : s.irq = false)
    (hhigh : (writePort v s p).irq = true) : p = .ctrl ∨ (p = .cmdHi ∧ (writePort v s p).err = true) := by
  have hsame : (writePort v s p).irq ≠ s.irq := by simp [hlow, hhigh]
  cases p with
  | ctrl => exact .inl rfl
  | status => exact absurd (hlow.symm.trans (irq_of_writeStatus hhigh)) Bool.false_ne_true
  | cmdHi =>
    rw [writePort] at hsame ⊢
    rcases push_cases v s with ⟨-, h⟩ | ⟨-, -, h⟩ | ⟨-, -, h⟩ <;> rw [h] at hsame ⊢
    · exact absurd (irq_congr rfl rfl rfl rfl) hsame
    · exact .inr ⟨rfl, rfl⟩
    · exact absurd (irq_congr rfl rfl rfl rfl) hsame
  | _ => exact absurd (irq_congr rfl rfl rfl rfl) hsame

/-- Of the turns of the block, only one that runs SIGNAL and one that faults can raise the line. -/
theorem blockTurn_raises {s u : State} (hu : step (s.awaiting .block) = .next u) (hlow : s.irq = false)
    (hhigh : u.irq = true) :
    ∃ w q, s.queue = w :: q ∧ ((∃ sig, decode w = .ok (.signal sig)) ∨ u.err = true) := by
  have hsame : u.irq ≠ s.irq := by simp [hlow, hhigh]
  obtain ⟨hidle, hturn⟩ := blockTurnRetiresOrFaults s
  cases hx : s.canExecute with
  | false =>
    rw [hidle (canExecute_eq_false_iff.mp hx)] at hu
    cases hu
    exact absurd rfl hsame
  | true =>
    obtain ⟨hen, herr, hne⟩ := canExecute_iff.mp hx
    obtain ⟨w, q, hq⟩ := List.exists_cons_of_ne_nil hne
    refine ⟨w, q, hq, ?_⟩
    rcases hturn w q hen herr hq with ⟨t, i, ht, hdec, hexec, hret⟩ | ⟨c, info, -, d, ht⟩ <;> rw [hu] at ht <;> cases ht
    · by_cases hsig : ∃ sig, i = .signal sig
      · obtain ⟨sig, rfl⟩ := hsig
        exact .inl ⟨sig, hdec⟩
      · obtain ⟨-, -, -, hsignal, -⟩ := commandsTouchOnly i s u hexec
        have hdone : u.done = s.done := (hsignal fun sig hi => hsig ⟨sig, hi⟩).1
        exact absurd (irq_congr hdone hret.err hret.ieDone hret.ieErr) hsame
    · exact .inr rfl

/-! ## The statements -/

/-- Settles O9: the turn's fault is the one of O8, and a push while ERR = 1 is the dropped one of O52. -/
theorem faultEntry : Obligations.FaultEntry := by
  refine ⟨fun s u w q hen herr hq hu hset => ?_, fun s herr => ⟨?_, fun h => ?_⟩⟩
  · rcases (blockTurnRetiresOrFaults s).2 w q hen herr hq with ⟨t, -, ht, -, -, hret⟩ | ⟨c, info, hc, d, ht⟩ <;>
      rw [hu] at ht <;> cases ht
    · rw [hret.err, herr] at hset
      cases hset
    · exact ⟨c, info, hc, rfl⟩
  · exact (blockTurnRetiresOrFaults s).1 (.inr (.inl herr))
  · exact (pushEnqueuesFaultsOrDrops s h).1 herr

/-- Settles O13, event by event. -/
theorem faultsDoNotNest : Obligations.FaultsDoNotNest := by
  intro s u e herr hreset hstatus hctrl hu
  rw [← herr]
  cases e with
  | block =>
    rw [(faultEntry.2 s herr).1] at hu
    cases hu
    exact ⟨rfl, rfl, rfl, rfl, rfl⟩
  | hardReset => exact absurd rfl hreset
  | host a =>
    rw [step_access] at hu
    cases hu
    rcases hostAccess_cases s a with ⟨r, d, h⟩ | ⟨off, v, -, -, ha, h⟩ <;> rw [h]
    · exact ⟨rfl, rfl, rfl, rfl, rfl⟩
    · exact writePort_sameReport herr (fun hp => hstatus v (portAt_eq_status hp ▸ ha))
        fun hp => hctrl v (portAt_eq_ctrl hp ▸ ha)

/-- Settles O56: by O55 the write clears ERR and CAUSE alone; the invariant empties the queue, which O52's push then
enters. -/
theorem faultReturn : Obligations.FaultReturn := by
  intro s v h hinv hdone herr hdropped
  obtain ⟨hclear, hset⟩ := hinv.faultSound
  have hwrite := (statusRegister s).2 v
  simp only [hdone, herr, hdropped, Bool.not_false, Bool.and_true, Bool.not_true, Bool.and_false, if_true] at hwrite
  refine ⟨_, hwrite, rfl, fun h0 => ?_, fun h1 => ⟨(hset h1).2, ?_⟩⟩
  · rw [← h0, ← hclear h0]
  · have hroom : s.queue.length ≠ s.cfg.cmdqDepth := by
      have hdepth := s.cfg.cmdqDepth_bounds
      rw [(hset h1).2, List.length_nil]
      omega
    refine ⟨_, (pushEnqueuesFaultsOrDrops _ h).2.2 rfl hroom, ?_, rfl, ?_⟩
    · simp [(hset h1).2]
    · simp [State.canExecute, State.busy, State.qcount]

/-- Settles O60, event by event. -/
theorem interruptSources : Obligations.InterruptSources := by
  intro s
  refine ⟨irq_iff s, fun u e hu hlow hhigh => ?_⟩
  cases e with
  | block => exact .inl ⟨rfl, blockTurn_raises hu hlow hhigh⟩
  | hardReset =>
    rw [step_reset] at hu
    cases hu
    cases hhigh
  | host a =>
    rw [step_access] at hu
    cases hu
    rcases hostAccess_cases s a with ⟨r, d, h⟩ | ⟨off, v, -, -, ha, h⟩ <;> rw [h] at hhigh ⊢
    · exact absurd (hlow.symm.trans hhigh) Bool.false_ne_true
    · rcases writePort_raises hlow hhigh with hp | ⟨hp, herr⟩
      · exact .inr (.inr ⟨v, portAt_eq_ctrl hp ▸ ha⟩)
      · exact .inr (.inl ⟨v, portAt_eq_cmdHi hp ▸ ha, herr⟩)

end Sys2Proof.Machine
end

section
/-!
SUPPORT. The opcode table's masks (R217): a row's mask, field by field, is the fields its opcode does not use and, in a
CVT row, ET; so a word differs from its row under the mask exactly when check 2 or, in a CVT row, check 3 of R216 fails.
-/
namespace Sys2Proof

/-! ## The decoder on fields with an assigned opcode -/

/-- The destination test of check 2 is on SPLIT and DILV alone (R76). -/
theorem Fields.sameDest_iff (f : Fields) (op : Opcode) : f.sameDest op = true ↔ op.isPair = true ∧ f.vd = f.vd2 := by
  cases op with
  | split | dilv => simp [Fields.sameDest, Opcode.isPair]
  | _ => simp [Fields.sameDest, Opcode.isPair]

/-- NOP, SIGNAL and VZERO, whose ET is 0, pass check 3. -/
theorem Opcode.admittedCodes_of_untyped {op : Opcode} (h : op.untyped = true) :
    op.admittedCodes = [0] ∧ ∀ t, op.admits t = true := by
  cases op with
  | nop | signal | vzero => exact ⟨rfl, fun _ => rfl⟩
  | _ => cases h

/-- An ET field that is not used, and so is zero, holds a code of R78's list. -/
theorem Fields.admitted_of_untyped {f : Fields} {op : Opcode} (h : op.untyped = true)
    (hunused : f.unusedNonzero op.uses = false) : f.et.toNat ∈ op.admittedCodes := by
  obtain ⟨-, -, -, het, -⟩ := Fields.unusedNonzero_eq_false_iff.mp hunused
  rw [het (by rw [Opcode.uses_et, h, Bool.not_true]), (Opcode.admittedCodes_of_untyped h).1]
  decide

/-- A code of R78's list passes check 3. -/
theorem Fields.exists_admittedType {f : Fields} {op : Opcode} (h : f.et.toNat ∈ op.admittedCodes) :
    ∃ t, f.admittedType op = some t := by
  cases huntyped : op.untyped with
  | false =>
    rw [← Option.ne_none_iff_exists']
    exact fun hnone => (Fields.admittedType_eq_none_iff huntyped f).mp hnone h
  | true =>
    obtain ⟨hcodes, hadmits⟩ := Opcode.admittedCodes_of_untyped huntyped
    have het : f.et = 0 := BitVec.eq_of_toNat_eq (by simpa [hcodes] using h)
    have hcode : EType.ofCode f.et = some .u8 := het ▸ EType.ofCode_code .u8
    exact ⟨.u8, by rw [Fields.admittedType, hcode]; exact if_pos (hadmits _)⟩

section Assigned
variable {w : CmdWord} {op : Opcode} (hop : (Fields.unpack w).opc = op.code)
include hop

/-- Check 2 of R216 fails on a nonzero unused field, and on SPLIT and DILV with one destination (R76). -/
theorem decode_illegalField_iff : decode w = .error .illegalField ↔
    (Fields.unpack w).unusedNonzero op.uses = true ∨
      (op.isPair = true ∧ (Fields.unpack w).vd = (Fields.unpack w).vd2) := by
  rw [← Fields.sameDest_iff, ← Bool.or_eq_true]
  exact decodeFields_illegalField_iff hop

theorem decode_ne_illegalField (hunused : (Fields.unpack w).unusedNonzero op.uses = false)
    (hpair : op.isPair = true → (Fields.unpack w).vd ≠ (Fields.unpack w).vd2) : decode w ≠ .error .illegalField := by
  rw [Ne, decode_illegalField_iff hop, hunused]
  rintro (h | ⟨h, hsame⟩)
  · cases h
  · exact hpair h hsame

/-- A word that passes check 2 and has an admitted ET code decodes. -/
theorem exists_decode_ok (hfield : decode w ≠ .error .illegalField)
    (het : (Fields.unpack w).et.toNat ∈ op.admittedCodes) : ∃ i, decode w = .ok i := by
  obtain ⟨t, ht⟩ := Fields.exists_admittedType het
  refine ⟨op.build (Fields.unpack w) t, ?_⟩
  rw [Ne, decode, decodeFields_illegalField_iff hop] at hfield
  rw [decode, decodeFields_of_assigned hop, if_neg hfield, ht, Option.elim_some]

end Assigned

/-! ## A word under a mask, field by field -/

/-- The fields of `(w ^^^ value) &&& mask`, from those of the three words. -/
def Fields.masked (f value mask : Fields) : Fields where
  opc := (f.opc ^^^ value.opc) &&& mask.opc
  vd := (f.vd ^^^ value.vd) &&& mask.vd
  vs1 := (f.vs1 ^^^ value.vs1) &&& mask.vs1
  vs2 := (f.vs2 ^^^ value.vs2) &&& mask.vs2
  et := (f.et ^^^ value.et) &&& mask.et
  logn := (f.logn ^^^ value.logn) &&& mask.logn
  imm := (f.imm ^^^ value.imm) &&& mask.imm

theorem Fields.unpack_masked (w value mask : CmdWord) : Fields.unpack ((w ^^^ value) &&& mask) =
    (Fields.unpack w).masked (Fields.unpack value) (Fields.unpack mask) := by
  simp only [Fields.unpack, Fields.masked, BitVec.extractLsb'_and, BitVec.extractLsb'_xor]

theorem Fields.eq_zero_iff_unpack {w : CmdWord} : w = 0 ↔ Fields.unpack w = ⟨0, 0, 0, 0, 0, 0, 0⟩ :=
  ⟨fun h => h ▸ rfl, fun h => by rw [← Fields.pack_unpack w, h]; rfl⟩

/-- The mask of a field: all of it where the opcode does not use it (R217). -/
def unusedBits (used : Bool) (n : Nat) : BitVec n := if used then 0 else BitVec.allOnes n

theorem and_unusedBits_eq_zero_iff {used : Bool} {n : Nat} {x : BitVec n} :
    x &&& unusedBits used n = 0#n ↔ (used = false → x = 0#n) := by
  cases used <;> simp [unusedBits]

/-- The fields of a mask that holds the opcode, the unused fields and, of ET, the bits `et`. -/
def FieldUse.mask (u : FieldUse) (et : BitVec 5) : Fields :=
  ⟨BitVec.allOnes 8, unusedBits u.vd 5, unusedBits u.vs1 5, unusedBits u.vs2 5, et, unusedBits u.logn 4, ~~~u.imm⟩

/-! ## The rows (R217) -/

/-- The ET bits of a row's match, which CVT rows alone have (R217). -/
def OpcodeRow.typeBits (r : OpcodeRow) : CmdWord := if r.op.isCvt then etBits else 0

/-- What the rows of the table are: the match is the opcode and, in a CVT row, the one ET code it admits; the mask is the
opcode, the unused fields and, in a CVT row, ET. -/
structure OpcodeRow.Sound (r : OpcodeRow) : Prop where
  value : Fields.unpack r.value = ⟨r.op.code, 0, 0, 0, (Fields.unpack r.value).et, 0, 0⟩
  mask : Fields.unpack r.mask =
    r.op.uses.mask (if r.op.isCvt then BitVec.allOnes 5 else unusedBits r.op.uses.et 5)
  fieldMask : Fields.unpack (r.mask &&& ~~~r.typeBits) = r.op.uses.mask (unusedBits r.op.uses.et 5)
  untagged : r.op.isCvt = false → (Fields.unpack r.value).et = 0
  cvt : r.op.isCvt = true → r.op.uses.et = true ∧ r.op.admittedCodes = [(Fields.unpack r.value).et.toNat]

theorem OpcodeRow.sound_of_mem {r : OpcodeRow} (hr : r ∈ opcodeRows) : r.Sound := by
  refine ⟨?_, ?_, ?_, ?_, ?_⟩
  all_goals
    revert r
    decide

section Row
variable {r : OpcodeRow} (hr : r.Sound) {w : CmdWord} (hop : (Fields.unpack w).opc = r.op.code)
include hr hop

/-- A word with the row's opcode, under a mask of the row's shape. -/
theorem OpcodeRow.Sound.masked_eq_zero_iff {mask : CmdWord} {et : BitVec 5}
    (hmask : Fields.unpack mask = r.op.uses.mask et) :
    (w ^^^ r.value) &&& mask = 0 ↔
      (r.op.uses.vd = false → (Fields.unpack w).vd = 0) ∧ (r.op.uses.vs1 = false → (Fields.unpack w).vs1 = 0) ∧
      (r.op.uses.vs2 = false → (Fields.unpack w).vs2 = 0) ∧
      ((Fields.unpack w).et ^^^ (Fields.unpack r.value).et) &&& et = 0 ∧
      (r.op.uses.logn = false → (Fields.unpack w).logn = 0) ∧ (Fields.unpack w).imm &&& ~~~r.op.uses.imm = 0 := by
  rw [Fields.eq_zero_iff_unpack, Fields.unpack_masked, hr.value, hmask]
  simp [Fields.masked, FieldUse.mask, and_unusedBits_eq_zero_iff, hop]

/-- Off the ET bits of a CVT row, a word differs from its row exactly when an unused field is not zero. -/
theorem OpcodeRow.Sound.fields_match_iff : (w ^^^ r.value) &&& r.mask &&& ~~~r.typeBits = 0 ↔
    (Fields.unpack w).unusedNonzero r.op.uses = false := by
  have het : ((Fields.unpack w).et ^^^ (Fields.unpack r.value).et) &&& unusedBits r.op.uses.et 5 = 0 ↔
      (r.op.uses.et = false → (Fields.unpack w).et = 0) := by
    refine and_unusedBits_eq_zero_iff.trans (forall_congr' fun hunused => ?_)
    have hcvt : r.op.isCvt = false := Bool.eq_false_iff.mpr fun hc => by simp [(hr.cvt hc).1] at hunused
    rw [hr.untagged hcvt, BitVec.ofNat_eq_ofNat, BitVec.xor_zero]
  rw [BitVec.and_assoc, hr.masked_eq_zero_iff hop hr.fieldMask, het, Fields.unusedNonzero_eq_false_iff]

/-- A word matches its row exactly when its unused fields are zero and, in a CVT row, ET is the row's. -/
theorem OpcodeRow.Sound.match_iff : (w ^^^ r.value) &&& r.mask = 0 ↔
    (Fields.unpack w).unusedNonzero r.op.uses = false ∧
      (r.op.isCvt = true → (Fields.unpack w).et = (Fields.unpack r.value).et) := by
  cases hcvt : r.op.isCvt with
  | false =>
    have hall : ~~~r.typeBits = BitVec.allOnes 64 := by simp [OpcodeRow.typeBits, hcvt]
    rw [← hr.fields_match_iff hop, hall, BitVec.and_allOnes]
    simp
  | true =>
    have hmask := hr.mask
    rw [hcvt, if_pos rfl] at hmask
    have hcode : ((Fields.unpack w).et ^^^ (Fields.unpack r.value).et) &&& BitVec.allOnes 5 = 0 ↔
        (Fields.unpack w).et = (Fields.unpack r.value).et := by
      rw [BitVec.and_allOnes]
      exact BitVec.xor_eq_zero_iff
    rw [hr.masked_eq_zero_iff hop hmask, hcode, Fields.unusedNonzero_eq_false_iff]
    have het := (hr.cvt hcvt).1
    constructor
    · rintro ⟨hvd, hvs1, hvs2, hz, hlogn, himm⟩
      exact ⟨⟨hvd, hvs1, hvs2, fun hunused => by simp [het] at hunused, hlogn, himm⟩, fun _ => hz⟩
    · rintro ⟨⟨hvd, hvs1, hvs2, -, hlogn, himm⟩, hz⟩
      exact ⟨hvd, hvs1, hvs2, hz rfl, hlogn, himm⟩

end Row

theorem Opcode.not_cvt_of_isPair {op : Opcode} (h : op.isPair = true) : op.isCvt = false := by
  cases op with
  | split | dilv => rfl
  | _ => cases h

end Sys2Proof

namespace Sys2Proof.Machine

/-- Settles O4: a word differs from its row off the ET bits when check 2 fails on an unused field, and in ET alone when
check 3 fails on a CVT row. -/
theorem opcodeTableMasks : Obligations.OpcodeTableMasks := by
  refine ⟨by decide, fun r hmem w hop => ?_⟩
  have hr := OpcodeRow.sound_of_mem hmem
  have hfields := hr.fields_match_iff hop
  have hmatch := hr.match_iff hop
  refine ⟨fun hoff => ?_, fun hoff hdiff => ?_, fun _ hpair hsame => ?_, fun hzero hpair => ?_⟩
  · have hunused : (Fields.unpack w).unusedNonzero r.op.uses ≠ false := fun h => hoff (hfields.mpr h)
    exact (decode_illegalField_iff hop).mpr (.inl (Bool.eq_true_of_not_eq_false hunused))
  · have hunused := hfields.mp hoff
    obtain ⟨hcvt, het⟩ : r.op.isCvt = true ∧ (Fields.unpack w).et ≠ (Fields.unpack r.value).et := by
      by_contra hno
      exact hdiff (hmatch.mpr ⟨hunused, fun hc => by_contra fun hne => hno ⟨hc, hne⟩⟩)
    have hfield := decode_ne_illegalField hop hunused fun hp => by simp [Opcode.not_cvt_of_isPair hp] at hcvt
    obtain ⟨htyped, hcodes⟩ := hr.cvt hcvt
    rw [Opcode.uses_et, Bool.not_eq_true'] at htyped
    refine (decode_illegalType_iff hop htyped hfield).mpr ?_
    rw [hcodes]
    simpa [BitVec.toNat_inj] using het
  · exact (decode_illegalField_iff hop).mpr (.inr ⟨hpair, hsame⟩)
  · obtain ⟨hunused, het⟩ := hmatch.mp hzero
    have hfield := decode_ne_illegalField hop hunused hpair
    by_cases hcode : (Fields.unpack w).et.toNat ∈ r.op.admittedCodes
    · exact .inl (exists_decode_ok hop hfield hcode)
    · have hcvt : r.op.isCvt = false := Bool.eq_false_iff.mpr fun hc => hcode (by simp [(hr.cvt hc).2, het hc])
      have htyped : r.op.untyped = false :=
        Bool.eq_false_iff.mpr fun hu => hcode (Fields.admitted_of_untyped hu hunused)
      exact .inr ⟨hcvt, htyped, (decode_illegalType_iff hop htyped hfield).mpr hcode⟩

end Sys2Proof.Machine
end

section
/-!
SUPPORT. The checks of an execution step in their order (R216): every command but the shuffles runs under a list of
checks that fail first as its rows of R218 and R219 say, then as its address does; a shuffle under its width check and
then its mask. From that the two tables, both ways, and the one fault a turn takes.
-/
namespace Sys2Proof.Machine

/-! ## Checks that follow the tables (R218, R219) -/

/-- A check that passes can be left out. -/
theorem firstFault_cons_of_passes {c : Check} (h : c.fails = false) (cs : List Check) :
    firstFault (c :: cs) = firstFault cs := by
  rw [firstFault_cons, h]
  rfl

/-- The checks 6 and 7 of R216, which loads and stores have (R54). -/
def addressChecks (s : State) (i : Instr) : List Check :=
  match scratchpadAccess i with
  | some (t, n, a) =>
    [⟨decide (a.toNat % t.esize ≠ 0), .misalign, a⟩,
     ⟨decide (s.cfg.spmBytes < a.toNat + count n * t.esize), .addr, a⟩]
  | none => []

/-- What the first failing one of `checks` is, for command `i` in state `s`: WIDTH(0) where its row of R218 says so, then
RANGE(0) where its row of R219 does, then what its address gives (R216). -/
structure FollowTables (s : State) (i : Instr) (checks : List Check) : Prop where
  width : widthFaults s.cfg i → firstFault checks = some (.width, 0)
  range : ¬widthFaults s.cfg i → rangeFaults i → firstFault checks = some (.range, 0)
  address : ¬widthFaults s.cfg i → ¬rangeFaults i → firstFault checks = firstFault (addressChecks s i)

/-- A width check and a range check that fail as the tables say, with the address checks after them. -/
theorem FollowTables.of_operands {s : State} {i : Instr} {wide out : Bool} {checks : List Check}
    (hchecks : firstFault checks = firstFault (widthCheck wide :: rangeCheck out :: addressChecks s i))
    (hwide : wide = true ↔ widthFaults s.cfg i) (hout : out = true ↔ rangeFaults i) : FollowTables s i checks := by
  rw [firstFault_cons, firstFault_cons] at hchecks
  refine ⟨fun hw => ?_, fun hw hr => ?_, fun hw hr => ?_⟩
  · rw [hchecks, widthCheck_fails, if_pos (hwide.mpr hw)]; rfl
  · rw [hchecks, widthCheck_fails, if_neg (mt hwide.mp hw), rangeCheck_fails, if_pos (hout.mpr hr)]; rfl
  · rw [hchecks, widthCheck_fails, if_neg (mt hwide.mp hw), rangeCheck_fails, if_neg (mt hout.mp hr)]

/-- A command without a row in R219 needs no range check. -/
theorem FollowTables.of_width {s : State} {i : Instr} {wide : Bool} {checks : List Check}
    (hchecks : firstFault checks = firstFault (widthCheck wide :: addressChecks s i))
    (hwide : wide = true ↔ widthFaults s.cfg i) (hout : ¬rangeFaults i) : FollowTables s i checks :=
  .of_operands (out := false)
    (by rw [hchecks, firstFault_cons, firstFault_cons, firstFault_cons_of_passes (rangeCheck_fails false)])
    hwide (iff_of_false Bool.false_ne_true hout)

/-- The first failing check is all that matters. -/
theorem FollowTables.congr {s : State} {i : Instr} {checks checks' : List Check} (h : FollowTables s i checks)
    (hchecks : firstFault checks' = firstFault checks) : FollowTables s i checks' := by
  obtain ⟨hwidth, hrange, haddress⟩ := h
  exact ⟨hchecks ▸ hwidth, hchecks ▸ hrange, hchecks ▸ haddress⟩

/-! ## The commands under their checks -/

/-- Command `i` runs under checks that follow the tables, and if they all pass its writes are made and it retires. -/
def RunsUnderTables (s : State) (i : Instr) : Prop :=
  ∃ checks perform, exec i s = command checks perform s ∧ s.RetiredFrom (retire (perform s)) ∧
    FollowTables s i checks

theorem tooWide_or_iff {s : State} {bytes : Nat} {p : Prop} [Decidable p] :
    (s.tooWide bytes || decide p) = true ↔ s.cfg.vlenb < bytes ∨ p := by
  rw [Bool.or_eq_true, tooWide_eq_true, decide_eq_true_iff]

theorem or_tooWide_iff {s : State} {bytes : Nat} {p : Prop} [Decidable p] :
    (decide p || s.tooWide bytes) = true ↔ p ∨ s.cfg.vlenb < bytes := by
  rw [Bool.or_eq_true, tooWide_eq_true, decide_eq_true_iff]

/-- From the command's checks and the frame of its writes. -/
theorem RunsUnderTables.of_command {s : State} {i : Instr} {checks : List Check} {perform : State → State}
    (hexec : exec i s = command checks perform s)
    (hrest : perform s = { s with
      regs := (perform s).regs, draws := (perform s).draws, spm := (perform s).spm, sigVal := (perform s).sigVal,
      done := (perform s).done })
    (hchecks : FollowTables s i checks) : RunsUnderTables s i :=
  ⟨checks, perform, hexec, retiredFrom_retire hrest, hchecks⟩

/-- The template of R122. -/
theorem RunsUnderTables.of_convert {s : State} {i : Instr} {esS esD : Nat} {f : BitVec (8 * esS) → BitVec (8 * esD)}
    {vd vs : VReg} {n : LogCount} (hexec : exec i s = convert esS esD f vd vs n s)
    (hchecks : FollowTables s i [widthCheck (s.tooWide (count n * max esS esD))]) : RunsUnderTables s i :=
  .of_command hexec rfl hchecks

/-- The template of R190, of a type that is admitted. -/
theorem RunsUnderTables.of_reduction {s : State} {i : Instr} {admitted : Bool} {t : EType}
    {pre : BitVec (8 * t.esize) → BitVec (8 * t.esize)}
    {op : BitVec (8 * t.esize) → BitVec (8 * t.esize) → BitVec (8 * t.esize)} {vd vs : VReg} {n o : LogCount}
    (hexec : exec i s = reduction admitted t pre op vd vs n o s) (hadmitted : admitted = true)
    (hchecks : FollowTables s i [widthCheck (s.tooWide (count n * t.esize) || decide (n.val < o.val))]) :
    RunsUnderTables s i :=
  .of_command hexec rfl (hchecks.congr (firstFault_cons_of_passes (congrArg (!·) hadmitted) _))

/-- The template of R159. -/
theorem RunsUnderTables.of_lanewise {s : State} {i : Instr} {t : EType} {n : LogCount} {out : Bool}
    {f : List (BitVec (8 * t.esize)) → List (BitVec (8 * t.esize))} {vd vs : VReg}
    (hexec : exec i s = lanewise t n out f vd vs s)
    (hchecks : FollowTables s i [widthCheck (s.tooWide (count n * t.esize)), rangeCheck out]) : RunsUnderTables s i :=
  .of_command hexec rfl hchecks

/-- Every command but the shuffles is one of the templates: its operands' checks, of which the decoder's own pass, and
then its address's (R122, R146 to R149, R159, R190). -/
theorem exec_runsUnderTables {i : Instr} (hwf : i.wf = true) (hmask : shuffleMask i = none) (s : State) :
    RunsUnderTables s i := by
  cases i with
  | nop | signal | vzero =>
    refine .of_command (by unfold exec; exact rfl) ?_ ?_
    · rfl
    · exact .of_width (wide := false) rfl (iff_of_false Bool.false_ne_true id) id
  | vld | vldBe | vst | vstBe =>
    refine .of_command rfl ?_ ?_
    · rfl
    · exact .of_width rfl tooWide_eq_true id
  | cvtF32E4m3 | cvtF32E5m2 | cvtF32Bf16 | cvtF64E4m3 | cvtF64E5m2 | cvtF64Bf16
  | cvtE4m3F32 | cvtE5m2F32 | cvtBf16F32 | cvtE4m3F64 | cvtE5m2F64 | cvtBf16F64 =>
    refine .of_convert rfl ?_
    exact .of_width rfl tooWide_eq_true id
  | redadd | redmul | redmin | redmax | redand | redor | redpopc =>
    refine .of_reduction rfl hwf ?_
    exact .of_width rfl tooWide_or_iff id
  | split | dilv =>
    refine .of_command (by unfold exec; exact rfl) ?_ ?_
    · rfl
    · refine .congr (.of_width rfl tooWide_or_iff id) (firstFault_cons_of_passes ?_ _)
      exact beq_eq_false_iff_ne.mpr (bne_iff_ne.mp hwf)
  | join | ilv =>
    refine .of_command (by unfold exec; exact rfl) ?_ ?_
    · rfl
    · exact .of_width rfl or_tooWide_iff id
  | vsplat | slice | insert =>
    refine .of_command (by unfold exec; exact rfl) ?_ ?_
    · rfl
    · refine .of_operands rfl tooWide_eq_true ?_
      exact decide_eq_true_iff
  | rotl _ _ t n sh =>
    refine .of_lanewise (t := t) (n := n) (f := fun v => rotate v (signedAmount sh)) rfl ?_
    exact .of_operands rfl tooWide_eq_true decide_eq_true_iff
  | rotr _ _ t n sh =>
    refine .of_lanewise (t := t) (n := n) (f := fun v => rotate v (-signedAmount sh)) rfl ?_
    exact .of_operands rfl tooWide_eq_true decide_eq_true_iff
  | shll _ _ t n sh =>
    refine .of_lanewise (t := t) (n := n) (f := fun v => shiftDown v (unsignedAmount sh)) rfl ?_
    exact .of_operands rfl tooWide_eq_true decide_eq_true_iff
  | shrl _ _ t n sh =>
    refine .of_lanewise (t := t) (n := n) (f := fun v => shiftUp v (unsignedAmount sh)) rfl ?_
    exact .of_operands rfl tooWide_eq_true decide_eq_true_iff
  | rev =>
    refine .of_lanewise (by unfold exec; exact rfl) ?_
    exact .of_operands rfl tooWide_eq_true (iff_of_false Bool.false_ne_true id)
  | shuf1 | shuf2 => cases hmask

/-! ## The shuffles (R166, R167) -/

theorem shuffleCheck_iff {s : State} {t : EType} {n m : LogCount} : (shuffleCheck s t n m).fails = true ↔
    s.cfg.vlenb < count n * t.esize ∨ s.cfg.vlenb < count m * t.esize ∨ s.cfg.vlenb < 2 * count m := by
  rw [shuffleCheck, widthCheck_fails, Bool.or_eq_true, Bool.or_eq_true, tooWide_eq_true, tooWide_eq_true,
    tooWide_eq_true, or_assoc]

section Shuffle
variable {i : Instr} {n m : LogCount} {vm : VReg} {k : Nat} (h : shuffleMask i = some (n, m, vm, k)) {s : State}
include h

/-- A shuffle takes WIDTH(0) where its row of R218 says so. -/
theorem exec_shuffle_width (hw : widthFaults s.cfg i) : exec i s = .next (raise .width 0 s) := by
  cases i with
  | shuf1 | shuf2 =>
    simp only [exec, execShuf1, execShuf2, firstFault_cons, shuffleCheck_iff.mpr hw, if_true]
    rfl
  | _ => cases h

/-- A shuffle that fits goes on to its mask (R172). -/
theorem exec_shuffle_mask (hw : ¬widthFaults s.cfg i) : ∃ (vd : VReg) (es r : Nat) (c : List (BitVec (8 * es))),
    exec i s = .next (shuffleFrom vd (count n) r c (s.lanesRd k vm 2 (count m)) s) := by
  cases i with
  | shuf1 vd | shuf2 vd =>
    cases h
    have hfits := Bool.eq_false_iff.mpr (mt shuffleCheck_iff.mp hw)
    simp only [exec, execShuf1, execShuf2, firstFault_cons_of_passes hfits, firstFault_nil]
    exact ⟨_, _, _, _, rfl⟩
  | _ => cases h

theorem not_rangeFaults_of_shuffle : ¬rangeFaults i := by
  cases i with
  | shuf1 | shuf2 => exact id
  | _ => cases h

end Shuffle

/-- FAULTINFO tells a bad mask entry from an immediate out of range (R211). -/
theorem maskInfo_ne_zero (j : Nat) : maskInfo j ≠ 0 := fun h => by
  have hbit : (maskInfo j).getLsbD 31 = true := by simp [maskInfo]
  simp [h] at hbit

/-- A shuffle with a legal mask retires (R172). -/
theorem shuffleFrom_retires {es : Nat} (s : State) (vd vm : VReg) (c : List (BitVec (8 * es))) (k r : Nat) {n m : Nat}
    (h : ∀ j < m, (s.lane k vm 2 j).toNat < 2 * n) :
    s.RetiredFrom (shuffleFrom vd n r c (s.lanesRd k vm 2 m) s) := by
  have hmask : badEntry n (s.lanesRd k vm 2 m) = none := badEntry_eq_none.mpr fun j hj => by
    rw [lanesRd_length] at hj
    rw [lanesRd_getD _ _ _ _ hj]
    exact h j hj
  rw [shuffleFrom, hmask]
  exact retiredFrom_retire rfl

/-! ## The checks 4 and 5, and what is left after them (R216) -/

section Checks
variable {i : Instr} (hwf : i.wf = true) {s : State}
include hwf

theorem exec_width (hw : widthFaults s.cfg i) : exec i s = .next (raise .width 0 s) := by
  cases hmask : shuffleMask i with
  | some p => exact exec_shuffle_width hmask hw
  | none =>
    obtain ⟨checks, perform, hexec, -, hchecks⟩ := exec_runsUnderTables hwf hmask s
    exact hexec.trans (command_fault (hchecks.width hw))

theorem exec_range (hw : ¬widthFaults s.cfg i) (hr : rangeFaults i) : exec i s = .next (raise .range 0 s) := by
  cases hmask : shuffleMask i with
  | some p => exact absurd hr (not_rangeFaults_of_shuffle hmask)
  | none =>
    obtain ⟨checks, perform, hexec, -, hchecks⟩ := exec_runsUnderTables hwf hmask s
    exact hexec.trans (command_fault (hchecks.range hw hr))

/-- Past the checks 4 and 5 a command that is no shuffle is left with the checks of its address. -/
theorem exec_address (hmask : shuffleMask i = none) (hw : ¬widthFaults s.cfg i) (hr : ¬rangeFaults i) :
    ∃ u, s.RetiredFrom u ∧
      exec i s = .next ((firstFault (addressChecks s i)).elim u fun p => raise p.1 p.2 s) := by
  obtain ⟨checks, perform, hexec, hretired, hchecks⟩ := exec_runsUnderTables hwf hmask s
  refine ⟨_, hretired, ?_⟩
  rw [hexec, command, hchecks.address hw hr]
  cases firstFault (addressChecks s i) <;> rfl

end Checks

theorem shuffleMask_of_access {i : Instr} {p : EType × LogCount × Word} (h : scratchpadAccess i = some p) :
    shuffleMask i = none := by
  cases i with
  | shuf1 | shuf2 => cases h
  | _ => rfl

/-- The checks 6 and 7, one after the other (R54). -/
theorem firstFault_addressChecks {i : Instr} {t : EType} {n : LogCount} {a : Word}
    (h : scratchpadAccess i = some (t, n, a)) (s : State) : firstFault (addressChecks s i) =
      if a.toNat % t.esize ≠ 0 then some (.misalign, a)
      else if s.cfg.spmBytes < a.toNat + count n * t.esize then some (.addr, a) else none := by
  simp only [addressChecks, h, firstFault_cons, firstFault_nil, decide_eq_true_iff]

/-- The address checks report MISALIGN and ADDR alone. -/
theorem addressChecks_cause {s : State} {i : Instr} {c : Cause} {info : Word}
    (h : firstFault (addressChecks s i) = some (c, info)) : c = .misalign ∨ c = .addr := by
  obtain ⟨before, k, after, hchecks, -, -, rfl, -⟩ := firstFault_eq_some h
  have hk : k ∈ addressChecks s i := by simp [hchecks]
  rw [addressChecks] at hk
  split at hk
  · simp only [List.mem_cons, List.not_mem_nil, or_false] at hk
    rcases hk with rfl | rfl
    · exact .inl rfl
    · exact .inr rfl
  · cases hk

/-- Past the checks 4 and 5 a command retires, or faults in another way than they do. -/
theorem exec_passed {i : Instr} (hwf : i.wf = true) {s : State} (hw : ¬widthFaults s.cfg i) (hr : ¬rangeFaults i) :
    ∃ u, exec i s = .next u ∧ (s.RetiredFrom u ∨ u.cause = .misalign ∨ u.cause = .addr ∨
      (u.cause = .range ∧ u.faultInfo ≠ 0)) := by
  cases hmask : shuffleMask i with
  | some p =>
    obtain ⟨n, m, vm, k⟩ := p
    obtain ⟨vd, es, r, c, hexec⟩ := exec_shuffle_mask hmask hw
    refine ⟨_, hexec, ?_⟩
    rw [shuffleFrom]
    cases badEntry (count n) (s.lanesRd k vm 2 (count m)) with
    | some j => exact .inr (.inr (.inr ⟨rfl, maskInfo_ne_zero j⟩))
    | none => exact .inl (retiredFrom_retire rfl)
  | none =>
    obtain ⟨u, hretired, hexec⟩ := exec_address hwf hmask hw hr
    refine ⟨_, hexec, ?_⟩
    cases hfault : firstFault (addressChecks s i) with
    | none => exact .inl hretired
    | some p => exact .inr ((addressChecks_cause hfault).imp_right .inl)

/-- A retirement is no fault: it counts (R25). -/
theorem State.RetiredFrom.ne_afterFault {s u : State} (h : s.RetiredFrom u) (c : Cause) (info : Word) (w : CmdWord) :
    u ≠ s.afterFault c info w := by
  rintro rfl
  have hcseq : s.cseq = s.cseq + 1 := h.cseq
  simp at hcseq

/-! ## The statements -/

/-- Settles O11: the other checks report another cause, and a retirement counts. -/
theorem widthChecks : Obligations.WidthChecks := by
  intro i s hwf
  refine ⟨exec_width hwf, fun hexec => ?_⟩
  by_contra hw
  by_cases hr : rangeFaults i
  · rw [exec_range hwf hw hr] at hexec
    cases hexec
  · obtain ⟨u, hu, hout⟩ := exec_passed hwf hw hr
    obtain rfl : u = s.afterFault .width 0 s.headWord := by simpa [hu] using hexec
    rcases hout with hretired | hc | hc | ⟨hc, -⟩
    · exact hretired.ne_afterFault _ _ _ rfl
    all_goals cases hc

/-- Settles O12: of the checks after it only a shuffle's mask reports RANGE, with another FAULTINFO. -/
theorem immediateRangeChecks : Obligations.ImmediateRangeChecks := by
  intro i s hwf hw
  refine ⟨exec_range hwf hw, fun hexec => ?_⟩
  by_contra hr
  obtain ⟨u, hu, hout⟩ := exec_passed hwf hw hr
  obtain rfl : u = s.afterFault .range 0 s.headWord := by simpa [hu] using hexec
  rcases hout with hretired | hc | hc | ⟨-, hinfo⟩
  · exact hretired.ne_afterFault _ _ _ rfl
  · cases hc
  · cases hc
  · exact hinfo rfl

/-- Settles O10: the decoder's three checks reject the word; a word that decodes takes the fault its command's tables say,
then that of its address or its mask, and else retires. -/
theorem checksInOrder : Obligations.ChecksInOrder := by
  intro s w q hen herr hq turn f
  have hreject : ∀ c, decode w = .error c → s.Faults turn c 0 w := fun c hdec =>
    ⟨s.draws, step_rejected hdec hen herr hq⟩
  refine ⟨fun hno => hreject _ (decodeFields_illegalOpcode_iff.mpr ?_), fun op hop =>
    ⟨fun hbad => hreject _ ((decode_illegalField_iff hop).mpr hbad), fun hunused hpair => ?_⟩⟩
  · rw [Option.eq_none_iff_forall_ne_some]
    exact fun op h => hno op (Opcode.code_of_ofCode h).symm
  have hfield := decode_ne_illegalField hop hunused hpair
  refine ⟨fun htyped het => hreject _ ((decode_illegalType_iff hop htyped hfield).mpr het), fun het => ?_⟩
  obtain ⟨i, hdec⟩ := exists_decode_ok hop hfield het
  have hwf := (encode_of_decode hdec).1
  have hturn : turn = exec i s := (step_turn s).trans (blockStep_decoded hen herr hq hdec)
  have hraise : ∀ c info d, s.Faults (.next { raise c info s with draws := d }) c info w := faults_of_raise hq
  rw [hturn]
  refine ⟨i, hdec, fun hw => ?_, fun hw hr => ?_, fun hw hr => ?_⟩
  · rw [exec_width hwf hw]; exact hraise _ _ s.draws
  · rw [exec_range hwf hw hr]; exact hraise _ _ s.draws
  split
  next t n a _ hacc =>
    obtain ⟨u, hretired, hexec⟩ := exec_address hwf (shuffleMask_of_access hacc) hw hr
    rw [hexec, firstFault_addressChecks hacc]
    refine ⟨fun ha => ?_, fun ha hb => ?_, fun ha hb => ?_⟩
    · rw [if_pos ha]; exact hraise _ _ s.draws
    · rw [if_neg (not_not.mpr ha), if_pos hb]; exact hraise _ _ s.draws
    · rw [if_neg (not_not.mpr ha), if_neg (Nat.not_lt.mpr hb)]; exact ⟨u, rfl, hretired⟩
  next n m vm k hacc hmask =>
    obtain ⟨vd, es, r, c, hexec⟩ := exec_shuffle_mask hmask hw
    rw [hexec, ← headWord_of_queue hq]
    exact ⟨fun j hj hbad hlow => shuffleFrom_faults s vd vm c k r hj hbad hlow,
      fun hlegal => ⟨_, rfl, shuffleFrom_retires s vd vm c k r hlegal⟩⟩
  next hacc hmask =>
    obtain ⟨u, hretired, hexec⟩ := exec_address hwf hmask hw hr
    rw [hexec, addressChecks, hacc]
    exact ⟨u, rfl, hretired⟩

end Sys2Proof.Machine
end

section
/-!
SUPPORT. The reset block (R42, R240, R241): what its registers, its scratchpad and its status read, that it is idle, and
that both resets lead to it.
-/
namespace Sys2Proof.Machine

/-! ## The block after reset -/

@[simp] theorem resetBlock_reg (s : State) (r : VReg) :
    (resetBlock s).reg r = List.replicate s.cfg.vlenb .unwritten := resetWith_reg s.cfg r

/-- No byte of the scratchpad is listed, so each is unwritten (R42). -/
@[simp] theorem read_resetBlock_spm (s : State) (a : Nat) : Memory.read (resetBlock s).spm a = .unwritten := rfl

/-- The empty queue is not full, since every legal CMDQ_DEPTH is positive (R6). -/
@[simp] theorem resetBlock_qfull (s : State) : (resetBlock s).qfull = false := by
  have hdepth := s.cfg.cmdqDepth_bounds
  have hne : (resetBlock s).queue.length ≠ (resetBlock s).cfg.cmdqDepth := by
    change 0 ≠ s.cfg.cmdqDepth
    omega
  exact Bool.eq_false_iff.mpr (mt qfull_iff.mp hne)

@[simp] theorem resetBlock_statusWord (s : State) : (resetBlock s).statusWord = 0 := by
  rw [State.statusWord, resetBlock_qfull]
  simp [State.busy, State.qcount, resetBlock, State.resetWith]

@[simp] theorem resetBlock_ctrlWord (s : State) : (resetBlock s).ctrlWord = 0 := by
  simp [State.ctrlWord, resetBlock, State.resetWith]

@[simp] theorem resetBlock_causeWord (s : State) : (resetBlock s).causeWord = 0 := by
  simp [State.causeWord, causeCode, resetBlock, State.resetWith]

/-- EN = 0 and the queue is empty: no execution step is possible (R140). -/
@[simp] theorem resetBlock_canExecute (s : State) : (resetBlock s).canExecute = false := rfl

/-! ## The two resets -/

/-- The soft reset leaves what the hardware reset does, and the response of a completed write (R241). -/
theorem step_softReset (s : State) {v : Word} (h : v.getLsbD 31 = true) :
    step (s.awaiting (s.hostWrite 0x008 v)) = .next { resetBlock s with response := .done } := by
  rw [step_writeRegister s (p := .ctrl) (by decide), writePort, writeCtrl_of_srst s h]

/-- Settles O17: both resets lead to `resetBlock s`, whose next turn is idle. -/
theorem resetsLeaveResetValues : Obligations.ResetsLeaveResetValues := by
  intro s
  have hidle : step ((resetBlock s).awaiting .block) = .next (resetBlock s) := by
    rw [step_turn, blockStep_idle (resetBlock_canExecute s)]
  exact ⟨resetBlock s, step_reset s, resetBlock_reg s, read_resetBlock_spm s, rfl, rfl, rfl,
    resetBlock_ctrlWord s, resetBlock_statusWord s, resetBlock_causeWord s, rfl, rfl, rfl, rfl, rfl, hidle,
    rfl, rfl, rfl, rfl, rfl, rfl, fun _ => step_softReset s⟩

end Sys2Proof.Machine
end
